-- ==== Sys2Proof/Word.lean ====
section
/-!
DEFINITION. The widths the spec names (00_scope.md R8) and the three words of one command transaction
(30_encoding.md R90).
-/

namespace Sys2Proof

/-- `u8`: a data byte, an instance index `INST`, an opcode `OPC`. -/
abbrev Byte := BitVec 8

/-- `u16`: the immediate `IMM16`, the baud divisor `UBRR[i]`. -/
abbrev Half := BitVec 16

/-- `u24`: the timer's reload value `TLOAD` and current value `TVAL` (R26, R27). -/
abbrev Ticks := BitVec 24

/-- `u32`: a command word, an operand word, a host memory address, a handler reference. -/
abbrev Word := BitVec 32

/-- The input side of one transaction on the command port: `CW`, `A1`, `A2` (R90). -/
structure Command where
  cw : Word
  a1 : Word
  a2 : Word
  deriving DecidableEq, Repr, Inhabited

end Sys2Proof
end

