-- ==== Sys2Proof/Syntax.lean ====
section
/-!
DEFINITION. The sixteen commands of the opcode map (30_encoding.md R94), each with the operands that R92 and
R93 give it. The Baud-Rate Synthesizer is a function used by UCONFIG, not a command (R94).
-/

namespace Sys2Proof

/-- One constructor per row of spec/opcode_table.json. `inst` is `INST`; a timer command has none (R91). -/
inductive Instr where
  /-- `TINIT`, R121: `fullClock` is the one-bit operand `clock_source` (R101). -/
  | tinit (fullClock : Bool)
  /-- `TBUSY`, R122: `ms` is `interval_ms`, all of `IMM16`. -/
  | tbusy (ms : Half)
  /-- `TSINGLE`, R123. -/
  | tsingle (ms : Half)
  /-- `TPERIOD`, R124. -/
  | tperiod (ms : Half)
  /-- `TSETCB`, R125: the handler reference is `A1`. -/
  | tsetcb (handler : Word)
  /-- `TELAPSED`, R126. -/
  | telapsed
  /-- `TREMAIN`, R127. -/
  | tremain
  /-- `TDEINIT`, R128. -/
  | tdeinit
  /-- `UCONFIG`, R171: `A1` points at the configuration record (R100). -/
  | uconfig (inst : Byte) (record : Word)
  /-- `USENDB`, R172: the byte is `IMM16[7:0]`. -/
  | usendb (inst : Byte) (byte : Byte)
  /-- `URECVB`, R173: `A1` is the `out` pointer. -/
  | urecvb (inst : Byte) (out : Word)
  /-- `USENDBUF`, R174: `A1` is the buffer pointer, `A2` the size. -/
  | usendbuf (inst : Byte) (buffer size : Word)
  /-- `URECVBUF`, R175. -/
  | urecvbuf (inst : Byte) (buffer size : Word)
  /-- `USENDSTR`, R176: `A1` is the text pointer. -/
  | usendstr (inst : Byte) (text : Word)
  /-- `URECVSTR`, R177: `A1` is the buffer pointer. -/
  | urecvstr (inst : Byte) (outBuffer : Word)
  /-- `USETCB`, R178: the handler reference is `A1`; legal only in the interrupt-receive build (R95 b). -/
  | usetcb (inst : Byte) (handler : Word)
  deriving DecidableEq, Repr, Inhabited

end Sys2Proof
end

