-- ==== Sys2Proof/Config.lean ====
section
/-!
DEFINITION. The constants the source fixes (00_scope.md R4), the open parameters of R5, the inputs the outside
world can give the block (R10, R242), and the free values.
-/

namespace Sys2Proof

/-- An interrupt source (60_exceptions.md R224). -/
inductive Source where
  /-- The timer's tick interrupt (R225). -/
  | timer
  /-- The receive interrupt of one UART instance (R226). -/
  | uartRx (i : Nat)
  deriving DecidableEq, Repr, Inhabited

/-- A slot of the Register Surface, by name (20_memory.md R60, R61). -/
inductive Slot where
  | tctrl
  | tload
  | tval
  | ucr (i : Nat)
  | ubrr (i : Nat)
  | udr (i : Nat)
  | usr (i : Nat)
  deriving DecidableEq, Repr, Inhabited

/-- One choice of the outside world and the schedule: which agent of R10 steps next, and with what input. -/
inductive Event where
  /-- Host: issue a command in the active context (R242). -/
  | issue (c : Command)
  /-- Host: return from the active callback (R231). -/
  | handlerReturn
  /-- Host: read a byte of host memory (R242; one byte a step, log 37). -/
  | hostRead (addr : Word)
  /-- Host: write a byte of host memory (R242; one byte a step, log 37). -/
  | hostWrite (addr : Word) (b : Byte)
  /-- Host: touch a Register Surface slot, which it may not (R63). -/
  | hostSlot (slot : Slot)
  /-- Host: change `LineEnabled(s)` through the interrupt controller (R242). -/
  | setLine (src : Source) (on : Bool)
  /-- Command sequencer: one step of the command in progress in the active context (R240). -/
  | sequencer
  /-- Timer counter: one tick (R130). -/
  | tick
  /-- Transmit shifter of instance `i`: one bit (R180). -/
  | txShift (i : Nat)
  /-- Serial peer of instance `i`: one received frame carrying `d` (R182). -/
  | rxFrame (i : Nat) (d : Byte)
  /-- Interrupt dispatcher: enter the handler of a source (R227). -/
  | dispatch (src : Source)
  deriving DecidableEq, Repr, Inhabited

/-- A range of host memory addresses the platform backs (93_implementation_defined.md U17; log 12). -/
structure Region where
  base : Nat
  size : Nat
  deriving DecidableEq, Repr, Inhabited

/-- `UART_TC_RESET` of R5: 0, 1 or unspecified. -/
inductive TcReset where
  | zero
  | one
  | unspecified
  deriving DecidableEq, Repr, Inhabited

/-- Where each slot stands from its unit's base address: open, and used by no rule (R61). DESIGN CHOICE (log 24): an
offset has 32 bits, and one set of offsets serves every UART instance. -/
structure SlotOffsets where
  tctrl : Word
  tload : Word
  tval : Word
  ucr : Word
  ubrr : Word
  udr : Word
  usr : Word
  deriving DecidableEq, Repr, Inhabited

/-- The parameters of R5 that are not state and that no step changes. `N_UART` is the number of instances in
the state (log 4). -/
structure Params where
  /-- `F_CORE`, Hz. -/
  fCore : Nat
  /-- `F_REF`, Hz. -/
  fRef : Nat
  /-- `RX_IRQ_BUILD`. -/
  rxIrqBuild : Bool
  /-- `PREEMPTS(a, b)`: the pairs in the relation. -/
  preempts : List (Source × Source)
  /-- `UART_TC_RESET`. -/
  tcReset : TcReset
  /-- `UART_RXNE_CLEARED_BY_DR_READ`. -/
  rxneClearedByRead : Bool
  /-- `TIMER_BASE`; no rule uses an address (R61). DESIGN CHOICE (log 24): a register address has 32 bits. -/
  timerBase : Word
  /-- `UART_BASE[i]`, instance 0 first; 32 bits as `TIMER_BASE` (log 24). -/
  uartBases : List Word
  /-- The slot offsets, "equally open" (R61; log 24). -/
  slotOffsets : SlotOffsets
  /-- Which addresses of host memory the platform backs. -/
  regions : List Region
  deriving DecidableEq, Repr, Inhabited

namespace Config

/-- `MAX_TICKS` (R4). -/
def maxTicks : Nat := 16777215

/-- `CLK_DIV` (R4). -/
def clkDiv : Nat := 8

/-- `BAUD_MIN` (R4). -/
def baudMin : Nat := 1200

/-- `BAUD_MAX` (R4). -/
def baudMax : Nat := 3000000

/-- `OVERSAMPLING` (R4). -/
def oversampling : Nat := 16

/-- `TERMINATOR` (R4). -/
def terminator : Byte := 0

/-- DESIGN CHOICE (log 4, log 24): the values of R5's column for the test vectors, with the interrupt-receive build,
every address backed, and 0 for the register addresses, which R5 leaves open. A claim over all states holds for every value. -/
def defaultParams : Params :=
  { fCore := 16000000
    fRef := 16000000
    rxIrqBuild := true
    preempts := []
    tcReset := .zero
    rxneClearedByRead := true
    timerBase := 0
    uartBases := [0, 0, 0]
    slotOffsets := { tctrl := 0, tload := 0, tval := 0, ucr := 0, ubrr := 0, udr := 0, usr := 0 }
    regions := [{ base := 0, size := 4294967296 }] }

/-- DESIGN CHOICE (log 4): `N_UART` of `State.reset`, R5's value for the test vectors. -/
def defaultUarts : Nat := 3

/-- Free value (log 1): the event the outside world and the schedule choose when nothing is in the inbox (R10:
"the order is otherwise free"). -/
opaque freeEvent : Nat → Event

/-- Free value (log 14, log 15): which of the two outcomes R183 or R262 (c) admits is taken. -/
opaque freeBit : Nat → Bool

/-- Free value (log 10): `TC` of instance `i` after reset when `UART_TC_RESET` is unspecified. -/
opaque freeTc : Nat → Bool

end Config

end Sys2Proof
end

