-- ==== Sys2Proof/WellFormed.lean ====
section
/-!
DEFINITION. Which commands a build of the block has. The must-be-zero fields and the operand widths of R91 and
R92 are in the types of `Instr`, so the one check left is R95 (b): `USETCB` exists only when `RX_IRQ_BUILD`.
-/

namespace Sys2Proof

/-- The command is legal in a build whose `RX_IRQ_BUILD` is `rxIrq` (R95). -/
def Instr.wellFormed (rxIrq : Bool) : Instr → Bool
  | .tinit _ => true
  | .tbusy _ => true
  | .tsingle _ => true
  | .tperiod _ => true
  | .tsetcb _ => true
  | .telapsed => true
  | .tremain => true
  | .tdeinit => true
  | .uconfig _ _ => true
  | .usendb _ _ => true
  | .urecvb _ _ => true
  | .usendbuf _ _ _ => true
  | .urecvbuf _ _ _ => true
  | .usendstr _ _ => true
  | .urecvstr _ _ => true
  | .usetcb _ _ => rxIrq

end Sys2Proof
end

