-- ==== Sys2Proof/Decode.lean ====
section
/-!
DEFINITION. From the three words of a transaction to a command or to the reason the word is illegal
(30_encoding.md R91, R92, R94, R95), and back; R107's match and mask; the host's numbering of a table word.
Whether USETCB is legal depends on the build, so the meaning of USETCB judges R95 (b) (log 28).
-/

namespace Sys2Proof

/-- Why a command word is illegal (R95 a, R95 c). -/
inductive Illegal where
  /-- `OPC` is not in the table of R94. -/
  | reservedOpcode
  /-- A timer command with `INST` other than 0. -/
  | instNotZero
  /-- Bits of `IMM16` that must be 0 are not. -/
  | immNotZero
  deriving DecidableEq, Repr

/-- `OPC`, bits 31:24 (R91). -/
def cwOpc (cw : Word) : Byte := cw.extractLsb' 24 8

/-- `INST`, bits 23:16 (R91). -/
def cwInst (cw : Word) : Byte := cw.extractLsb' 16 8

/-- `IMM16`, bits 15:0 (R91). -/
def cwImm (cw : Word) : Half := cw.extractLsb' 0 16

/-- A timer command: `INST` must be 0 (R91). -/
def needInstZero (cw : Word) (i : Except Illegal Instr) : Except Illegal Instr :=
  if cwInst cw = 0 then i else .error .instNotZero

/-- A command that uses no bit of `IMM16`: all of it must be 0 (R92). -/
def needImmZero (cw : Word) (i : Instr) : Except Illegal Instr :=
  if cwImm cw = 0 then .ok i else .error .immNotZero

/-- `TINIT` uses `IMM16[0]`; `IMM16[15:1]` must be 0 (R92). -/
def decodeTinit (cw : Word) : Except Illegal Instr :=
  if (cwImm cw).extractLsb' 1 15 = 0 then .ok (.tinit ((cwImm cw).getLsbD 0)) else .error .immNotZero

/-- `USENDB` uses `IMM16[7:0]`; `IMM16[15:8]` must be 0 (R92). -/
def decodeUsendb (cw : Word) : Except Illegal Instr :=
  if (cwImm cw).extractLsb' 8 8 = 0 then .ok (.usendb (cwInst cw) ((cwImm cw).extractLsb' 0 8)) else .error .immNotZero

/-- The command a transaction carries (R94), total on every word; `A1` and `A2` take no part in the choice (R107). -/
def decode (c : Command) : Except Illegal Instr :=
  match (cwOpc c.cw).toNat with
  | 0x10 => needInstZero c.cw (decodeTinit c.cw)
  | 0x11 => needInstZero c.cw (.ok (.tbusy (cwImm c.cw)))
  | 0x12 => needInstZero c.cw (.ok (.tsingle (cwImm c.cw)))
  | 0x13 => needInstZero c.cw (.ok (.tperiod (cwImm c.cw)))
  | 0x14 => needInstZero c.cw (needImmZero c.cw (.tsetcb c.a1))
  | 0x15 => needInstZero c.cw (needImmZero c.cw .telapsed)
  | 0x16 => needInstZero c.cw (needImmZero c.cw .tremain)
  | 0x17 => needInstZero c.cw (needImmZero c.cw .tdeinit)
  | 0x20 => needImmZero c.cw (.uconfig (cwInst c.cw) c.a1)
  | 0x21 => decodeUsendb c.cw
  | 0x22 => needImmZero c.cw (.urecvb (cwInst c.cw) c.a1)
  | 0x23 => needImmZero c.cw (.usendbuf (cwInst c.cw) c.a1 c.a2)
  | 0x24 => needImmZero c.cw (.urecvbuf (cwInst c.cw) c.a1 c.a2)
  | 0x25 => needImmZero c.cw (.usendstr (cwInst c.cw) c.a1)
  | 0x26 => needImmZero c.cw (.urecvstr (cwInst c.cw) c.a1)
  | 0x27 => needImmZero c.cw (.usetcb (cwInst c.cw) c.a1)
  | _ => .error .reservedOpcode

/-- The opcode of each command (R94). -/
def Instr.opcode : Instr → Byte
  | .tinit _ => 0x10
  | .tbusy _ => 0x11
  | .tsingle _ => 0x12
  | .tperiod _ => 0x13
  | .tsetcb _ => 0x14
  | .telapsed => 0x15
  | .tremain => 0x16
  | .tdeinit => 0x17
  | .uconfig _ _ => 0x20
  | .usendb _ _ => 0x21
  | .urecvb _ _ => 0x22
  | .usendbuf _ _ _ => 0x23
  | .urecvbuf _ _ _ => 0x24
  | .usendstr _ _ => 0x25
  | .urecvstr _ _ => 0x26
  | .usetcb _ _ => 0x27

/-- The `INST` field of each command: 0 in a timer command (R91). -/
def Instr.instField : Instr → Byte
  | .tinit _ => 0
  | .tbusy _ => 0
  | .tsingle _ => 0
  | .tperiod _ => 0
  | .tsetcb _ => 0
  | .telapsed => 0
  | .tremain => 0
  | .tdeinit => 0
  | .uconfig n _ => n
  | .usendb n _ => n
  | .urecvb n _ => n
  | .usendbuf n _ _ => n
  | .urecvbuf n _ _ => n
  | .usendstr n _ => n
  | .urecvstr n _ => n
  | .usetcb n _ => n

/-- The `IMM16` field of each command (R92). -/
def Instr.immField : Instr → Half
  | .tinit fullClock => (0 : BitVec 15) ++ BitVec.ofBool fullClock
  | .tbusy ms => ms
  | .tsingle ms => ms
  | .tperiod ms => ms
  | .tsetcb _ => 0
  | .telapsed => 0
  | .tremain => 0
  | .tdeinit => 0
  | .uconfig _ _ => 0
  | .usendb _ b => (0 : BitVec 8) ++ b
  | .urecvb _ _ => 0
  | .usendbuf _ _ _ => 0
  | .urecvbuf _ _ _ => 0
  | .usendstr _ _ => 0
  | .urecvstr _ _ => 0
  | .usetcb _ _ => 0

/-- The operand word `A1` of each command (R93); 0 where the command ignores it. -/
def Instr.a1Field : Instr → Word
  | .tinit _ => 0
  | .tbusy _ => 0
  | .tsingle _ => 0
  | .tperiod _ => 0
  | .tsetcb h => h
  | .telapsed => 0
  | .tremain => 0
  | .tdeinit => 0
  | .uconfig _ p => p
  | .usendb _ _ => 0
  | .urecvb _ p => p
  | .usendbuf _ p _ => p
  | .urecvbuf _ p _ => p
  | .usendstr _ p => p
  | .urecvstr _ p => p
  | .usetcb _ h => h

/-- The operand word `A2` of each command (R93); 0 where the command ignores it. -/
def Instr.a2Field : Instr → Word
  | .tinit _ => 0
  | .tbusy _ => 0
  | .tsingle _ => 0
  | .tperiod _ => 0
  | .tsetcb _ => 0
  | .telapsed => 0
  | .tremain => 0
  | .tdeinit => 0
  | .uconfig _ _ => 0
  | .usendb _ _ => 0
  | .urecvb _ _ => 0
  | .usendbuf _ _ n => n
  | .urecvbuf _ _ n => n
  | .usendstr _ _ => 0
  | .urecvstr _ _ => 0
  | .usetcb _ _ => 0

/-- `{OPC, INST, IMM16}` (R91). -/
def packCw (opc inst : Byte) (imm : Half) : Word := (opc ++ inst) ++ imm

/-- The transaction that carries a command, ignored operand words 0. -/
def encode (i : Instr) : Command :=
  { cw := packCw i.opcode i.instField i.immField, a1 := i.a1Field, a2 := i.a2Field }

/-- R107's match value of each opcode's row. -/
def matchOf (opc : Byte) : Word := packCw opc 0 0

/-- R107's mask of each opcode's row: `OPC` and every must-be-zero bit; none for a reserved opcode. -/
def maskOf (opc : Byte) : Option Word :=
  match opc.toNat with
  | 0x10 => some 0xFFFFFFFE
  | 0x11 => some 0xFFFF0000
  | 0x12 => some 0xFFFF0000
  | 0x13 => some 0xFFFF0000
  | 0x14 => some 0xFFFFFFFF
  | 0x15 => some 0xFFFFFFFF
  | 0x16 => some 0xFFFFFFFF
  | 0x17 => some 0xFFFFFFFF
  | 0x20 => some 0xFF00FFFF
  | 0x21 => some 0xFF00FF00
  | 0x22 => some 0xFF00FFFF
  | 0x23 => some 0xFF00FFFF
  | 0x24 => some 0xFF00FFFF
  | 0x25 => some 0xFF00FFFF
  | 0x26 => some 0xFF00FFFF
  | 0x27 => some 0xFF00FFFF
  | _ => none

/-- The transaction whose bits, numbered as spec/opcode_table.json numbers `CW` (R107) and going on through `A1`
and `A2`, are the low `nbits` bits of `w`; every bit above `nbits` is 0 (log 30). -/
def commandOfBits (nbits w : Nat) : Command :=
  let v := w % 2 ^ nbits
  { cw := BitVec.ofNat 32 v, a1 := BitVec.ofNat 32 (v / 2 ^ 32), a2 := BitVec.ofNat 32 (v / 2 ^ 64) }

/-- What the decoder reads from a table word laid out on the command port (R107). -/
def decodeTableWord (nbits w : Nat) : Option Instr := (decode (commandOfBits nbits w)).toOption

end Sys2Proof
end

