-- ==== Sys2Proof/Machine/State.lean ====
section
/-!
DEFINITION. The complete state of the machine (10_state.md R20) as plain data, the reasons a step can stop, and
the state after reset (70_reset_and_hazards.md R260). Registers are held field by field; Machine/Flags.lean
gives the 32-bit slot views, whose reserved bits read 0 (log 22).
-/

namespace Sys2Proof.Machine

/-- `T.mode` (R21). -/
inductive TimerMode where
  | idle
  | busyWait
  | oneShot
  | periodic
  deriving DecidableEq, Repr, Inhabited

/-- The named fields of `TCTRL` (R24). -/
structure Tctrl where
  /-- Bit 0, counter enable. -/
  en : Bool
  /-- Bit 1, tick-interrupt enable. -/
  tie : Bool
  /-- Bit 2, clock-source select: 1 is the full core clock. -/
  clksrc : Bool
  /-- Bit 16, count flag. -/
  cf : Bool
  deriving DecidableEq, Repr, Inhabited

/-- The Timer Engine (R21 to R28). `tickFrequency` is `none` while "the model holds it as no value" (R22). -/
structure Timer where
  mode : TimerMode
  tickFrequency : Option Nat
  callback : Option Word
  tctrl : Tctrl
  tload : Ticks
  tval : Ticks
  irqPending : Bool
  deriving DecidableEq, Repr, Inhabited

/-- The named fields of `UCR[i]` (R31). -/
structure Ucr where
  /-- Bit 2, receiver enable. -/
  rxen : Bool
  /-- Bit 3, transmitter enable. -/
  txen : Bool
  /-- Bit 5, receive-interrupt enable. -/
  rxie : Bool
  /-- Bit 9, parity type: 0 even, 1 odd. -/
  ptype : Bool
  /-- Bit 10, parity enable. -/
  pen : Bool
  /-- Bit 13, peripheral enable. -/
  uen : Bool
  deriving DecidableEq, Repr, Inhabited

/-- The flags of `USR[i]` (R34). -/
structure Usr where
  /-- Bit 6, transmission complete. -/
  tc : Bool
  /-- Bit 5, data register not empty. -/
  rxne : Bool
  deriving DecidableEq, Repr, Inhabited

/-- One UART instance (R30 to R36). -/
structure Uart where
  /-- A `UCONFIG` on this instance has succeeded; until then the fields of `UCR[i]` "hold no value" (R262). -/
  configured : Bool
  ucr : Ucr
  ubrr : Half
  tdr : Byte
  rdr : Byte
  usr : Usr
  callback : Option Word
  /-- `U.tx[i]`: the bits still to be put on `TXD[i]`, first bit first; the empty list is `idle` (R36). -/
  tx : List Bool
  /-- The level of `TXD[i]` (R36, R180). -/
  txd : Bool
  deriving DecidableEq, Repr, Inhabited

/-- The status a command ends with (30_encoding.md R97). -/
inductive Status where
  | success
  | indexError
  | nullPointerError
  | baudRateError
  | deviceModeError
  | parityError
  | overflowError
  | busyError
  | illegalCommand
  deriving DecidableEq, Repr, Inhabited

/-- The output side of a transaction: `ST` and `RV` (R90). -/
structure Delivery where
  st : Status
  rv : Word
  deriving DecidableEq, Repr, Inhabited

/-- The stored phases of a command in progress (R40); `done` is the step that delivers the status (log 18).
Which phase a command of several bytes is in between two bytes is a DESIGN CHOICE (log 36). -/
inductive Phase where
  /-- The next step of the sequencer begins byte `k`. -/
  | start
  /-- The command polls. -/
  | spin
  deriving DecidableEq, Repr, Inhabited

/-- What a frame of the context stack is doing (R40). -/
inductive Activity where
  /-- Host code runs in this frame; it may issue a command. -/
  | running
  /-- A command is in progress, with its latched operands, phase and byte index; `b` is the byte being sent,
  the local variable of R174 and R176 (log 18). -/
  | inCmd (cmd : Instr) (phase : Phase) (k : Word) (b : Byte)
  deriving DecidableEq, Repr, Inhabited

/-- The tag of a frame (R40). -/
inductive Context where
  | main
  | handler (src : Source)
  deriving DecidableEq, Repr, Inhabited

/-- A frame of the context stack `K` (R40), with the result its last command delivered to it (R41). -/
structure Frame where
  ctx : Context
  act : Activity
  result : Option Delivery
  deriving DecidableEq, Repr, Inhabited

/-- What the block shows the outside besides a command's result (log 21). -/
inductive Emission where
  /-- `emit Invoke(h, arg)` (R228): no argument from the timer, the data byte from a receive handler. -/
  | invoke (h : Word) (arg : Option Byte)
  /-- One bit driven on `TXD[i]` (R180). -/
  | txBit (i : Nat) (b : Bool)
  deriving DecidableEq, Repr, Inhabited

/-- Host memory: address and byte pairs in canonical form (20_memory.md R60 b). -/
abbrev Memory := List Host.Cell

/-- The whole machine (R20), with the parameters of the step relation and the model's own inbox, free-value
counter and trace. -/
structure State where
  /-- Parameters (00_scope.md R5); no step changes them. -/
  params : Params
  /-- The Timer Engine. -/
  timer : Timer
  /-- The UART instances; `N_UART` is the length. -/
  uarts : List Uart
  /-- The active frame: the last of `K`. -/
  active : Frame
  /-- The other frames of `K`, the interrupted one first, the main context last. -/
  beneath : List Frame
  /-- `Mem`. -/
  mem : Memory
  /-- The sources whose `LineEnabled(s)` is false. -/
  linesOff : List Source
  /-- What the block emitted, newest first. -/
  trace : List Emission
  /-- Events the outside has already chosen, next first (log 1). -/
  inbox : List Event
  /-- How many free values have been used (log 33). -/
  free : Nat
  deriving DecidableEq, Repr, Inhabited

/-- Why the machine is stuck. -/
inductive Fault where
  /-- Raised by `readByte` and `writeByte` of Machine/Ops.lean, so by every command or host step that reaches
  host memory: the platform does not back the address, "the access has no step" (93_implementation_defined.md
  U17). Safe: the run ends where the spec gives no step. -/
  | unbackedAddress (addr : Word)
  deriving DecidableEq, Repr, Inhabited

/-- Why a run has no meaning under the spec: the closed list of 93_implementation_defined.md part 2. Every one
is safe: it errs toward unprovable. The outcome is the sticky mark of R20 (e) (log 13). -/
inductive Refusal where
  /-- Raised by exec's arm of an instruction without a meaning; no arm is left. Safe. -/
  | notModelled (mnemonic : String)
  /-- R120, R264: raised by TBUSY, TSINGLE, TPERIOD in Idle before any TINIT. Safe. -/
  | armBeforeInit
  /-- R134: raised by TSINGLE, TPERIOD whose interval is zero ticks. Safe. -/
  | zeroTickInterval
  /-- R236: raised by TBUSY, TSINGLE, TPERIOD in a handler frame above a TBUSY in its spin phase. Safe. -/
  | rearmDuringBusyWait
  /-- R179: raised by a send command's data-slot write while the shifter holds a frame. Safe. -/
  | drWriteWhileShifting
  /-- R237: raised by a send command in a handler frame above a send on the same instance. Safe. -/
  | nestedSendSameInstance
  /-- R262 (a): raised by a transfer command on an instance never configured. Safe. -/
  | uartUnconfigured
  /-- R63: raised by a host step that touches a Register Surface slot. Safe. -/
  | directRegisterAccess
  /-- R6: raised by every step under parameters that break the constraints. Safe. -/
  | badParameters
  deriving DecidableEq, Repr, Inhabited

/-- What a step or a command's meaning answers. -/
abbrev Answer := Host.Outcome State Fault Refusal

/-- The Timer Engine after reset (R260); `CLKSRC` is a DESIGN CHOICE (log 6). -/
def Timer.reset : Timer :=
  { mode := .idle
    tickFrequency := none
    callback := none
    tctrl := { en := false, tie := false, clksrc := false, cf := false }
    tload := 0
    tval := 0
    irqPending := false }

/-- `TC` of instance `i` after reset (R34, R260). -/
def tcAfterReset (i : Nat) : TcReset → Bool
  | .zero => false
  | .one => true
  | .unspecified => Config.freeTc i

/-- Instance `i` after reset (R260); the fields of `UCR`, `UBRR` and the data cells are DESIGN CHOICES (log 7,
log 8). -/
def Uart.reset (p : Params) (i : Nat) : Uart :=
  { configured := false
    ucr := { rxen := false, txen := false, rxie := false, ptype := false, pen := false, uen := false }
    ubrr := 0
    tdr := 0
    rdr := 0
    usr := { tc := tcAfterReset i p.tcReset, rxne := false }
    callback := none
    tx := []
    txd := true }

/-- The main context after reset: `[main: Running]` (R40). -/
def Frame.reset : Frame := { ctx := .main, act := .running, result := none }

/-- The machine after reset under given parameters with `n` UART instances (R260). -/
def State.resetWith (p : Params) (n : Nat) : State :=
  { params := p
    timer := Timer.reset
    uarts := (List.range n).map (Uart.reset p)
    active := Frame.reset
    beneath := []
    mem := []
    linesOff := []
    trace := []
    inbox := []
    free := 0 }

/-- The machine right after reset, with R5's values for the test vectors (log 4). -/
def State.reset : State := State.resetWith Config.defaultParams Config.defaultUarts

end Sys2Proof.Machine
end

