-- ==== Sys2Proof/Machine/Flags.lean ====
section
/-!
DEFINITION. The status numbers, the 32-bit views of the slots (10_state.md R24, R26, R27, R31 to R34), the flags
CF, TC and RXNE with everything that sets, clears or reads them (R25, R34, 20_memory.md R66), the request levels
(R39, 60_exceptions.md R225, R226) and the parity bit (30_encoding.md R103).
-/

namespace Sys2Proof.Machine

/-- `ST` (R97). -/
def Status.code : Status → Byte
  | .success => 0x00
  | .indexError => 0x01
  | .nullPointerError => 0x02
  | .baudRateError => 0x03
  | .deviceModeError => 0x04
  | .parityError => 0x05
  | .overflowError => 0x06
  | .busyError => 0x07
  | .illegalCommand => 0xFF

/-- The number of a timer mode, where one is wanted (R21). -/
def TimerMode.number : TimerMode → Nat
  | .idle => 0
  | .busyWait => 1
  | .oneShot => 2
  | .periodic => 3

/-- A 32-bit word with bit `n` equal to `b` and every other bit 0. -/
def bitAt (n : Nat) (b : Bool) : Word := if b then BitVec.twoPow 32 n else 0

/-- The `TCTRL` slot: named bits at 0, 1, 2 and 16, every other bit 0 (R24). -/
def Tctrl.toWord (c : Tctrl) : Word := bitAt 0 c.en ||| bitAt 1 c.tie ||| bitAt 2 c.clksrc ||| bitAt 16 c.cf

/-- The `TLOAD` slot (R26). -/
def Timer.tloadSlot (t : Timer) : Word := t.tload.setWidth 32

/-- The `TVAL` slot (R27). -/
def Timer.tvalSlot (t : Timer) : Word := t.tval.setWidth 32

/-- The `UCR[i]` slot: named bits at 2, 3, 5, 9, 10 and 13, every other bit 0 (R31). -/
def Ucr.toWord (c : Ucr) : Word :=
  bitAt 2 c.rxen ||| bitAt 3 c.txen ||| bitAt 5 c.rxie ||| bitAt 9 c.ptype ||| bitAt 10 c.pen ||| bitAt 13 c.uen

/-- The `UBRR[i]` slot: bits 31:16 are 0 (R32). -/
def Uart.ubrrSlot (u : Uart) : Word := u.ubrr.setWidth 32

/-- Bits 15:4 of the baud divisor (R32). -/
def Uart.mantissa (u : Uart) : BitVec 12 := u.ubrr.extractLsb' 4 12

/-- Bits 3:0 of the baud divisor (R32). -/
def Uart.fraction (u : Uart) : BitVec 4 := u.ubrr.extractLsb' 0 4

/-- A data byte in the 32-bit slot `UDR[i]`, zero-extended (R33, 20_memory.md R60). -/
def udrOfByte (b : Byte) : Word := b.setWidth 32

/-- `v[7:0]` of a word of the slot `UDR[i]` (R179, R185). -/
def byteOfUdr (v : Word) : Byte := v.extractLsb' 0 8

/-- The `USR[i]` slot: `TC` at 6, `RXNE` at 5, every other bit 0 (R34). -/
def Usr.toWord (f : Usr) : Word := bitAt 5 f.rxne ||| bitAt 6 f.tc

/-- The address of a slot, where its unit has a base address; no rule uses it (R61). DESIGN CHOICE (log 24): addresses
and offsets have 32 bits, an address is base plus offset modulo 2^32, and all instances share one set of offsets. -/
def Params.slotAddress (p : Params) : Slot → Option Word
  | .tctrl => some (p.timerBase + p.slotOffsets.tctrl)
  | .tload => some (p.timerBase + p.slotOffsets.tload)
  | .tval => some (p.timerBase + p.slotOffsets.tval)
  | .ucr i => p.uartBases[i]?.map (· + p.slotOffsets.ucr)
  | .ubrr i => p.uartBases[i]?.map (· + p.slotOffsets.ubrr)
  | .udr i => p.uartBases[i]?.map (· + p.slotOffsets.udr)
  | .usr i => p.uartBases[i]?.map (· + p.slotOffsets.usr)

/-- `read(TCTRL)`: the word as it was, and the timer with `CF` cleared (R25 a, R66). -/
def Timer.readTctrl (t : Timer) : Word × Timer :=
  (t.tctrl.toWord, { t with tctrl := { t.tctrl with cf := false } })

/-- A command's write of `TVAL`, which clears `CF` (R25 b, R66). -/
def Timer.writeTval (v : Ticks) (t : Timer) : Timer :=
  { t with tval := v, tctrl := { t.tctrl with cf := false } }

/-- An expiry: the counter reloads, `CF` rises, and the request is raised when `TIE` is 1 (R130). This write of
`TVAL` is the counter's own and does not clear `CF`. -/
def Timer.expire (t : Timer) : Timer :=
  { t with
    tval := t.tload
    tctrl := { t.tctrl with cf := true }
    irqPending := t.irqPending || t.tctrl.tie }

/-- `read(UDR[i])`: the receive cell, zero-extended to the slot's 32 bits; `RXNE` falls when
`UART_RXNE_CLEARED_BY_DR_READ` (R33, R34, R66). -/
def Uart.readUdr (clears : Bool) (u : Uart) : Word × Uart :=
  (udrOfByte u.rdr, { u with usr := { u.usr with rxne := u.usr.rxne && !clears } })

/-- A write of `USR[i]` with `TC` = 0 (R66). -/
def Uart.clearTc (u : Uart) : Uart := { u with usr := { u.usr with tc := false } }

/-- The receiver takes a frame's data byte (R182). -/
def Uart.takeByte (d : Byte) (u : Uart) : Uart := { u with rdr := d, usr := { u.usr with rxne := true } }

/-- The receive request of an instance: the level `RXNE` and `RXIE` (R39, R226), in a build that has the source,
on an instance whose `RXIE` has a value (R262 d). -/
def Uart.rxRequest (rxIrqBuild : Bool) (u : Uart) : Bool :=
  rxIrqBuild && u.configured && u.usr.rxne && u.ucr.rxie

/-- `d[0] xor d[1] xor ... xor d[7]` (R103). -/
def xorBits (d : Byte) : Bool :=
  d.getLsbD 0 ^^ d.getLsbD 1 ^^ d.getLsbD 2 ^^ d.getLsbD 3 ^^ d.getLsbD 4 ^^ d.getLsbD 5 ^^ d.getLsbD 6 ^^ d.getLsbD 7

/-- The parity bit: even parity (`PTYPE` = 0) sends `x`, odd parity `not x` (R103). -/
def parityBit (d : Byte) (ptype : Bool) : Bool := xorBits d ^^ ptype

end Sys2Proof.Machine
end

