-- ==== Sys2Proof/Machine/Ops.lean ====
section
/-!
DEFINITION. The named operations over memory, registers and contexts: host memory (20_memory.md R62, R75), the
parameter constraints (00_scope.md R6), delivering a command's result (30_encoding.md R90), the deinit actions
(40_timer_engine.md R129), taking an interrupt and returning from it (60_exceptions.md R227 to R231).
-/

namespace Sys2Proof.Machine

/-! Host memory. -/

/-- The byte an unlisted address reads as. DESIGN CHOICE (log 11). -/
def unlistedByte : Byte := 0

/-- The byte at an address. -/
def Memory.read : Memory → Nat → Byte
  | [], _ => unlistedByte
  | (a, b) :: rest, addr => if a = addr then b else Memory.read rest addr

/-- Store a byte, keeping the canonical form: storing what an unlisted address reads as removes the entry. -/
def Memory.write : Memory → Nat → Byte → Memory
  | [], addr, v => if v = unlistedByte then [] else [(addr, v)]
  | (a, b) :: rest, addr, v =>
    if addr < a then (if v = unlistedByte then (a, b) :: rest else (addr, v) :: (a, b) :: rest)
    else if addr = a then (if v = unlistedByte then rest else (addr, v) :: rest)
    else (a, b) :: Memory.write rest addr v

/-- Every listed address is at or above `lo`, addresses rise strictly, lie in the 32-bit space, and no entry
equals what an unlisted address reads as. -/
def Memory.wfFrom : Nat → Memory → Bool
  | _, [] => true
  | lo, (a, b) :: rest => decide (lo ≤ a) && decide (a < 4294967296) && decide (b ≠ unlistedByte) && Memory.wfFrom (a + 1) rest

/-- The canonical form of host memory. -/
def Memory.wf (m : Memory) : Bool := Memory.wfFrom 0 m

/-- The platform backs the address (93_implementation_defined.md U17; log 12). -/
def Params.backs (p : Params) (addr : Word) : Bool :=
  p.regions.any fun r => decide (r.base ≤ addr.toNat) && decide (addr.toNat < r.base + r.size)

/-- `MemRead(addr, 1)` (R62). -/
def State.readByte (s : State) (addr : Word) : Except Fault Byte :=
  if Params.backs s.params addr then .ok (Memory.read s.mem addr.toNat) else .error (.unbackedAddress addr)

/-- `MemWrite(addr, 1, v)` (R62). -/
def State.writeByte (s : State) (addr : Word) (v : Byte) : Except Fault State :=
  if Params.backs s.params addr then .ok { s with mem := Memory.write s.mem addr.toNat v }
  else .error (.unbackedAddress addr)

/-- `MemRead(addr, n)`: the byte at the lowest address least significant, addresses modulo 2^32 (R62, R75). -/
def State.memRead (s : State) (addr : Word) : Nat → Except Fault Nat
  | 0 => .ok 0
  | n + 1 =>
    match s.readByte addr with
    | .error f => .error f
    | .ok b =>
      match State.memRead s (addr + 1) n with
      | .error f => .error f
      | .ok v => .ok (b.toNat + 256 * v)

/-! Parameters. -/

/-- `N_UART` (R5, R30). -/
def State.nUart (s : State) : Nat := s.uarts.length

/-- `PREEMPTS(a, b)` (R5). -/
def Params.preemptsRel (p : Params) (a b : Source) : Bool := decide ((a, b) ∈ p.preempts)

/-- R6 (d): `PREEMPTS` is irreflexive and transitive. -/
def Params.preemptsOk (p : Params) : Bool :=
  p.preempts.all fun x =>
    decide (x.1 ≠ x.2) && p.preempts.all fun y => !decide (x.2 = y.1) || Params.preemptsRel p x.1 y.2

/-- R6 (a): `F_CORE` is a (positive) multiple of 8. -/
def Params.fCoreOk (p : Params) : Bool := decide (0 < p.fCore) && decide (p.fCore % Config.clkDiv = 0)

/-- R6 (b), (c): every rate in range has a divisor from 1 to 65535. -/
def Params.fRefOk (p : Params) : Bool :=
  decide ((2 * p.fRef + Config.baudMin) / (2 * Config.baudMin) ≤ 65535) &&
    decide (1 ≤ (2 * p.fRef + Config.baudMax) / (2 * Config.baudMax))

/-- The parameter constraints of R6, with `N_UART` positive (R5; log 5). -/
def State.paramsOk (s : State) : Bool :=
  decide (0 < s.nUart) && Params.fCoreOk s.params && Params.fRefOk s.params && Params.preemptsOk s.params

/-! Writing parts of the state. -/

/-- The state with another Timer Engine. -/
def State.withTimer (s : State) (t : Timer) : State := { s with timer := t }

/-- The state with another UART instance `i`. -/
def State.withUart (s : State) (i : Nat) (u : Uart) : State := { s with uarts := s.uarts.set i u }

/-- The state with the active frame doing something else. -/
def State.withAct (s : State) (a : Activity) : State := { s with active := { s.active with act := a } }

/-- The command in progress goes on polling (R40, phase `spin`). -/
def State.spin (s : State) (cmd : Instr) (k : Word) (b : Byte) : State := s.withAct (.inCmd cmd .spin k b)

/-- The command in progress goes on to byte `k`. DESIGN CHOICE (log 36): it goes back to phase `start`, where R42 gives
only `start -> spin -> done`; byte `k` of a send begins with a step that is no poll (R240). -/
def State.startByte (s : State) (cmd : Instr) (k : Word) : State := s.withAct (.inCmd cmd .start k 0)

/-- The command ends: `ST` and `RV` go to the issuing frame, which runs on (R90, R223). -/
def State.deliver (s : State) (st : Status) (rv : Word) : State :=
  { s with active := { s.active with act := .running, result := some { st := st, rv := rv } } }

/-- `return st` with `RV` = 0 (R9, R90). -/
def finish (st : Status) (s : State) : Answer := .next (s.deliver st 0)

/-- An illegal command: `ST = 0xFF`, `RV = 0`, no state change (R95). -/
def illegalCommand (s : State) : Answer := finish .illegalCommand s

/-- The block emits something (R228, R180). -/
def State.emit (s : State) (e : Emission) : State := { s with trace := e :: s.trace }

/-! The Timer Engine's shared actions. -/

/-- `DEINIT_ACTIONS` (R129). -/
def Timer.deinit (t : Timer) : Timer :=
  let off := { t with tctrl := { t.tctrl with en := false, tie := false }, tload := 0 }
  { off.writeTval 0 with mode := .idle }

/-- `DEINIT_ACTIONS` on the machine. -/
def State.deinitTimer (s : State) : State := s.withTimer s.timer.deinit

/-- `TIMER_EXIT`: in OneShot mode the deinit actions run (R229). -/
def State.timerExit (s : State) : State := if s.timer.mode = .oneShot then s.deinitTimer else s

/-! Contexts: taking an interrupt and returning. -/

/-- Host code runs in the frame. -/
def Activity.isRunning : Activity → Bool
  | .running => true
  | .inCmd _ _ _ _ => false

/-- The source of a handler frame. -/
def Context.source : Context → Option Source
  | .main => none
  | .handler src => some src

/-- `K` as R40 writes it: the main context first, the active frame last. -/
def State.stack (s : State) : List Frame := (s.active :: s.beneath).reverse

/-- The sources of the handler frames on `K`, the top one first. -/
def State.handlerSources (s : State) : List Source := (s.active :: s.beneath).filterMap fun f => f.ctx.source

/-- The active frame is a handler frame. -/
def State.inHandler (s : State) : Bool := s.active.ctx.source.isSome

/-- R227 (c): `K` holds no handler frame, or the source preempts the top one's. -/
def State.stackAdmits (s : State) (src : Source) : Bool :=
  match s.handlerSources with
  | [] => true
  | top :: _ => Params.preemptsRel s.params src top

/-- R227 (a): the source's request is active (R225, R226). -/
def State.requested (s : State) : Source → Bool
  | .timer => s.timer.irqPending
  | .uartRx i =>
    match s.uarts[i]? with
    | none => false
    | some u => u.rxRequest s.params.rxIrqBuild

/-- R227: the source may be dispatched. -/
def State.mayDispatch (s : State) (src : Source) : Bool :=
  s.requested src && !decide (src ∈ s.linesOff) && s.stackAdmits src

/-- Handler entry with a callback: the interrupted frame stays beneath, intact, and the host is invoked in a new
handler frame (R228). -/
def State.enterHandler (s : State) (src : Source) (h : Word) (arg : Option Byte) : State :=
  { s with
    active := { ctx := .handler src, act := .running, result := none }
    beneath := s.active :: s.beneath
    trace := .invoke h arg :: s.trace }

/-- `DISPATCH(TIMER)` (R229). -/
def State.dispatchTimer (s : State) : State :=
  let s1 := s.withTimer { s.timer with irqPending := false }
  match s.timer.callback with
  | some h => s1.enterHandler .timer h none
  | none => s1.timerExit

/-- `DISPATCH(UART_RX[i])` (R230): the data slot is read whether or not a callback exists. -/
def State.dispatchUart (s : State) (i : Nat) (u : Uart) : State :=
  let r := u.readUdr s.params.rxneClearedByRead
  let s1 := s.withUart i r.2
  match u.callback with
  | some h => s1.enterHandler (.uartRx i) h (some (byteOfUdr r.1))
  | none => s1

/-- Taking an interrupt: the one shared operation (R227). A source that may not be dispatched is not: the
dispatcher has no step (log 2). -/
def State.takeInterrupt (s : State) (src : Source) : State :=
  if s.mayDispatch src then
    match src with
    | .timer => s.dispatchTimer
    | .uartRx i =>
      match s.uarts[i]? with
      | none => s
      | some u => s.dispatchUart i u
  else s

/-- The exit action of a source (R231): `TIMER_EXIT` for the timer, none for a receive handler. -/
def State.exitAction (s : State) : Source → State
  | .timer => s.timerExit
  | .uartRx _ => s

/-- Returning from a callback (R231): legal only in a handler frame in state Running; the frame is popped, the
exit action runs, and the frame beneath resumes where it was. Otherwise the host has no such step (log 2). -/
def State.returnFromHandler (s : State) : State :=
  match s.active.ctx, s.active.act, s.beneath with
  | .handler src, .running, f :: rest => State.exitAction { s with active := f, beneath := rest } src
  | _, _, _ => s

end Sys2Proof.Machine
end

