-- ==== Sys2Proof/Machine/Operands.lean ====
section
/-!
DEFINITION. Every operand form of the commands and the checks on it: the interval and the arming check
(40_timer_engine.md R120, R132), the instance check (42_uart_transceiver.md R170), the null check (30_encoding.md
R93), the configuration record (R98 to R100), the refusals that depend on the contexts beneath (60_exceptions.md
R236, R237) and on an unconfigured instance (70_reset_and_hazards.md R262).
-/

namespace Sys2Proof.Machine

/-- `N = floor(interval_ms * f / 1000)`, exact, one truncation (R132). -/
def tickCount (ms : Half) (f : Nat) : Nat := ms.toNat * f / 1000

/-- `interval_ms` exceeds `maxInterval` (R120, R132). -/
def intervalTooLong (ms : Half) (f : Nat) : Bool := decide (Config.maxTicks * 1000 < ms.toNat * f)

/-- `ARM_CHECK(ms)` (R120): `go` is what follows when it yields `N`. -/
def armCheck (ms : Half) (s : State) (go : Nat → Answer) : Answer :=
  if s.timer.mode ≠ .idle then finish .busyError s
  else
    match s.timer.tickFrequency with
    | none => .refused .armBeforeInit
    | some f => if intervalTooLong ms f then finish .overflowError s else go (tickCount ms f)

/-- The frame is in the spin phase of `TBUSY` (R236). -/
def Frame.busyWaiting (f : Frame) : Bool :=
  match f.act with
  | .inCmd (.tbusy _) .spin _ _ => true
  | _ => false

/-- The instance of a send command (R237). -/
def Instr.sendInst : Instr → Option Byte
  | .usendb n _ => some n
  | .usendbuf n _ _ => some n
  | .usendstr n _ => some n
  | _ => none

/-- The frame has a send command on instance `n` in progress (R237). -/
def Frame.sendingOn (n : Byte) (f : Frame) : Bool :=
  match f.act with
  | .inCmd cmd _ _ _ => decide (Instr.sendInst cmd = some n)
  | .running => false

/-- The active frame is a handler frame and a frame beneath it is in the spin phase of `TBUSY` (R236). -/
def State.busyWaitBeneath (s : State) : Bool := s.inHandler && s.beneath.any Frame.busyWaiting

/-- The active frame is a handler frame and a frame beneath it has a send on instance `n` in progress (R237). -/
def State.sendBeneath (n : Byte) (s : State) : Bool := s.inHandler && s.beneath.any (Frame.sendingOn n)

/-- An arming command issued from a handler frame above a spinning `TBUSY` is refused, whatever its check would
say (R236; log 19). -/
def guardRearm (s : State) (go : Answer) : Answer :=
  if s.busyWaitBeneath then .refused .rearmDuringBusyWait else go

/-- A send command issued from a handler frame above a send on the same instance is refused (R237; log 19). -/
def guardNestedSend (n : Byte) (s : State) (go : Answer) : Answer :=
  if s.sendBeneath n then .refused .nestedSendSameInstance else go

/-- `INST_CHECK(i)` (R170): `go` is given the instance. -/
def instCheck (n : Byte) (s : State) (go : Uart → Answer) : Answer :=
  match s.uarts[n.toNat]? with
  | none => finish .indexError s
  | some u => go u

/-- A required reference: 0 is absent (R93, 20_memory.md R68). -/
def nullCheck (ref : Word) (s : State) (go : Answer) : Answer :=
  if ref = 0 then finish .nullPointerError s else go

/-- A transfer command on an instance never configured is refused once its operand checks have passed (R262 a). -/
def needConfigured (u : Uart) (go : Answer) : Answer :=
  if u.configured then go else .refused .uartUnconfigured

/-- The configuration record (R100). -/
structure ConfigRecord where
  baud : Nat
  duplex : Nat
  parity : Nat
  deriving DecidableEq, Repr

/-- The six bytes at the record's address (R100, R171). -/
def State.readRecord (s : State) (addr : Word) : Except Fault ConfigRecord :=
  match s.memRead addr 4 with
  | .error f => .error f
  | .ok baud =>
    match s.memRead (addr + 4) 1 with
    | .error f => .error f
    | .ok duplex =>
      match s.memRead (addr + 5) 1 with
      | .error f => .error f
      | .ok parity => .ok { baud := baud, duplex := duplex, parity := parity }

/-- `baud_rate` lies in `[BAUD_MIN, BAUD_MAX]` (R171). -/
def baudInRange (baud : Nat) : Bool := decide (Config.baudMin ≤ baud) && decide (baud ≤ Config.baudMax)

/-- A member of `duplex_mode` (R98): 1, 2, 3. -/
def duplexMember (d : Nat) : Bool := decide (d = 1) || decide (d = 2) || decide (d = 3)

/-- A member of `parity` (R99): 0, 2, 3. -/
def parityMember (p : Nat) : Bool := decide (p = 0) || decide (p = 2) || decide (p = 3)

/-- The range checks of `UCONFIG`, in order (R171, R222); `none` when all pass. -/
def ConfigRecord.firstError (r : ConfigRecord) : Option Status :=
  if !baudInRange r.baud then some .baudRateError
  else if !duplexMember r.duplex then some .deviceModeError
  else if !parityMember r.parity then some .parityError
  else none

/-- The address of byte `k` of a buffer or string, modulo 2^32 (20_memory.md R75). -/
def byteAddr (base k : Word) : Word := base + k

/-- `size` bytes: byte `k` is the last one (R174, R175). -/
def lastOfSize (k size : Word) : Bool := decide (size.toNat ≤ k.toNat + 1)

end Sys2Proof.Machine
end

