-- ==== Sys2Proof/Machine/Baud.lean ====
section
/-!
DEFINITION. The Baud-Rate Synthesizer (41_baud_synthesizer.md R160), step by step as the rule writes it, in exact
integer arithmetic (R164).
-/

namespace Sys2Proof.Machine

/-- `M = floor(F / (B * 16))`, the integer mantissa before the carry (R160). -/
def baudMantissa (f b : Nat) : Nat := f / (b * Config.oversampling)

/-- `frac = (F / (16 B) - M) * 16` is the rational `baudFracNum f b / b`; this is its numerator (R160). -/
def baudFracNum (f b : Nat) : Nat := f % (b * Config.oversampling)

/-- `Fi = floor(frac)`, before rounding (R160). -/
def baudFracFloor (f b : Nat) : Nat := baudFracNum f b / b

/-- `d >= 5` where `d = (frac - Fi) * 10` (R160). -/
def baudRoundsUp (f b : Nat) : Bool := decide (5 * b ≤ 10 * (baudFracNum f b % b))

/-- `Fi` after the round-half-up (R160). -/
def baudFracRounded (f b : Nat) : Nat := baudFracFloor f b + (if baudRoundsUp f b then 1 else 0)

/-- Mantissa and fraction after the carry (R160). -/
def baudFields (f b : Nat) : Nat × Nat :=
  if baudFracRounded f b = Config.oversampling then (baudMantissa f b + 1, 0) else (baudMantissa f b, baudFracRounded f b)

/-- `BRSYNTH(F, B)`: `{M[11:0], Fi[3:0]}` (R160). -/
def brsynth (f b : Nat) : Half := BitVec.ofNat 12 (baudFields f b).1 ++ BitVec.ofNat 4 (baudFields f b).2

/-- One serial bit lasts this many cycles of `F_REF` (R163, R280); no rule of the model reads it. -/
def Uart.bitCycles (u : Uart) : Nat := u.ubrr.toNat

end Sys2Proof.Machine
end

