-- ==== Sys2Proof/Machine/Serial.lean ====
section
/-!
DEFINITION. The eight transceiver commands, the shared send and receive steps, the transmit shifter and frame
arrival (42_uart_transceiver.md R170 to R185). A meaning is the command's step at issue; its later steps are
taken by the sequencer through `sendFrom`, `sendPoll` and `recvPoll`.
-/

namespace Sys2Proof.Machine

/-- `FRAME(d, pen, pt)`: start bit, eight data bits LSB first, the parity bit if enabled, stop bit (30_encoding.md
R102, R179). -/
def serialFrame (d : Byte) (pen ptype : Bool) : List Bool :=
  [false, d.getLsbD 0, d.getLsbD 1, d.getLsbD 2, d.getLsbD 3, d.getLsbD 4, d.getLsbD 5, d.getLsbD 6, d.getLsbD 7] ++
    (if pen then [parityBit d ptype] else []) ++ [true]

/-- `WRITE_UDR(i, v)` (R179), a write of the 32-bit slot: a frame starts when both enables are 1, otherwise the byte
is discarded. -/
def Uart.writeUdr (v : Word) (u : Uart) : Except Refusal Uart :=
  if u.ucr.uen && u.ucr.txen then
    (if u.tx = [] then .ok { u with tdr := byteOfUdr v, tx := serialFrame (byteOfUdr v) u.ucr.pen u.ucr.ptype }
     else .error .drWriteWhileShifting)
  else .ok { u with tdr := byteOfUdr v }

/-- The first step of `SEND1` (R185): the data-slot write; the command then polls. -/
def sendByte (cmd : Instr) (n : Byte) (u : Uart) (k : Word) (b : Byte) (s : State) : Answer :=
  match u.writeUdr (udrOfByte b) with
  | .error r => .refused r
  | .ok u' => .next ((s.withUart n.toNat u').spin cmd k b)

/-- The first step of `SEND1` for byte `k` of a buffer or string, with the `MemRead` in the same step (R240). -/
def sendFrom (cmd : Instr) (n : Byte) (u : Uart) (base k : Word) (s : State) : Answer :=
  match s.readByte (byteAddr base k) with
  | .error f => .fault f
  | .ok b => sendByte cmd n u k b s

/-- A poll of `SEND1` (R185): the poll that sees `TC` = 1 clears it; the command ends after its last byte and
otherwise goes on to the next. -/
def sendPoll (cmd : Instr) (n : Byte) (u : Uart) (k : Word) (last : Bool) (s : State) : Answer :=
  if u.usr.tc then
    (if last then finish .success (s.withUart n.toNat u.clearTc)
     else .next ((s.withUart n.toNat u.clearTc).startByte cmd (k + 1)))
  else .next s

/-- A received byte is in memory: the command ends when it was the last, otherwise it polls for the next (R185).
DESIGN CHOICE (log 36): it stays in phase `spin` between two bytes, which R42 does not say. -/
def recvAfter (cmd : Instr) (k : Word) (last : Bool) (s : State) : Answer :=
  if last then finish .success s else .next (s.spin cmd (k + 1) 0)

/-- A poll of `RECV1` (R185): the poll that sees `RXNE` = 1 reads the data slot and writes memory; `last` says
whether a byte is the command's last. -/
def recvPoll (cmd : Instr) (n : Byte) (u : Uart) (base k : Word) (last : Byte → Bool) (s : State) : Answer :=
  if u.usr.rxne then
    let r := u.readUdr s.params.rxneClearedByRead
    match s.writeByte (byteAddr base k) (byteOfUdr r.1) with
    | .error f => .fault f
    | .ok s1 => recvAfter cmd k (last (byteOfUdr r.1)) (s1.withUart n.toNat r.2)
  else .next (s.spin cmd k 0)

/-- The register writes of `UCONFIG` after its checks (R171). -/
def Uart.configure (p : Params) (r : ConfigRecord) (u : Uart) : Uart :=
  { u with
    configured := true
    ucr :=
      { rxen := r.duplex.testBit 0
        txen := r.duplex.testBit 1
        rxie := p.rxIrqBuild || u.ucr.rxie
        ptype := r.parity.testBit 0
        pen := r.parity.testBit 1
        uen := true }
    ubrr := brsynth p.fRef r.baud }

/-- `UCONFIG` (R171). -/
def execUconfig (inst : Byte) (record : Word) (s : State) : Answer :=
  instCheck inst s fun u => nullCheck record s <|
    match s.readRecord record with
    | .error f => .fault f
    | .ok r =>
      match r.firstError with
      | some st => finish st s
      | none => finish .success (s.withUart inst.toNat (u.configure s.params r))

/-- `USENDB` (R172). -/
def execUsendb (inst byte : Byte) (s : State) : Answer :=
  instCheck inst s fun u => guardNestedSend inst s <| needConfigured u <|
    sendByte (.usendb inst byte) inst u 0 byte s

/-- `URECVB` (R173): the set-up step, after which it polls (20_memory.md R67; log 17). -/
def execUrecvb (inst : Byte) (out : Word) (s : State) : Answer :=
  instCheck inst s fun u => nullCheck out s <| needConfigured u <|
    .next (s.spin (.urecvb inst out) 0 0)

/-- `USENDBUF` (R174). -/
def execUsendbuf (inst : Byte) (buffer size : Word) (s : State) : Answer :=
  instCheck inst s fun u => guardNestedSend inst s <| nullCheck buffer s <| needConfigured u <|
    if size = 0 then finish .success s else sendFrom (.usendbuf inst buffer size) inst u buffer 0 s

/-- `URECVBUF` (R175): the checks are in the step of the first byte's first poll (60_exceptions.md R240; log 17). -/
def execUrecvbuf (inst : Byte) (buffer size : Word) (s : State) : Answer :=
  instCheck inst s fun u => nullCheck buffer s <| needConfigured u <|
    if size = 0 then finish .success s
    else recvPoll (.urecvbuf inst buffer size) inst u buffer 0 (fun _ => lastOfSize 0 size) s

/-- `USENDSTR` (R176). -/
def execUsendstr (inst : Byte) (text : Word) (s : State) : Answer :=
  instCheck inst s fun u => guardNestedSend inst s <| nullCheck text s <| needConfigured u <|
    sendFrom (.usendstr inst text) inst u text 0 s

/-- `URECVSTR` (R177), its checks as for URECVBUF (R240; log 17). -/
def execUrecvstr (inst : Byte) (outBuffer : Word) (s : State) : Answer :=
  instCheck inst s fun u => nullCheck outBuffer s <| needConfigured u <|
    recvPoll (.urecvstr inst outBuffer) inst u outBuffer 0 (fun v => decide (v = Config.terminator)) s

/-- `USETCB` (R178), illegal in a build without the receive interrupt (R95 b). -/
def execUsetcb (inst : Byte) (handler : Word) (s : State) : Answer :=
  if (Instr.usetcb inst handler).wellFormed s.params.rxIrqBuild then
    instCheck inst s fun u => nullCheck handler s <|
      finish .success (s.withUart inst.toNat { u with callback := some handler })
  else illegalCommand s

/-- `TX_SHIFT(i)` (R180, R181) on the instance: drive the next bit; `TC` rises with the last. An idle shifter has
no step (log 2). -/
def Uart.shift (u : Uart) : Uart :=
  match u.tx with
  | [] => u
  | [b] => { u with txd := b, tx := [], usr := { u.usr with tc := true } }
  | b :: rest => { u with txd := b, tx := rest }

/-- `TX_SHIFT(i)` on the machine. -/
def State.txShift (i : Nat) (s : State) : State :=
  match s.uarts[i]? with
  | none => s
  | some u =>
    match u.tx with
    | [] => s
    | b :: _ => (s.withUart i u.shift).emit (.txBit i b)

/-- A frame reaches an enabled receiver (R182). With `RXNE` = 1 the byte before it is unread and `takeNew` says
which of the two is kept (R183). -/
def Uart.receive (takeNew : Bool) (d : Byte) (u : Uart) : Uart :=
  if u.usr.rxne then (if takeNew then u.takeByte d else u) else u.takeByte d

/-- `RX_FRAME(i, d)` (R182). On an instance never configured a free bit says whether the frame is ignored or
received (R262 c; log 15); at an overrun a free bit says which byte is kept (R183; log 14). -/
def State.rxFrame (i : Nat) (d : Byte) (s : State) : State :=
  match s.uarts[i]? with
  | none => s
  | some u =>
    let received := Config.freeBit s.free
    let takeNew := Config.freeBit (s.free + 1)
    if u.configured then
      (if u.ucr.uen && u.ucr.rxen then
        (if u.usr.rxne then { s.withUart i (u.receive takeNew d) with free := s.free + 2 }
         else s.withUart i (u.receive true d))
       else s)
    else { (if received then s.withUart i (u.receive takeNew d) else s) with free := s.free + 2 }

end Sys2Proof.Machine
end

