-- ==== Sys2Proof/Machine/TimerEngine.lean ====
section
/-!
DEFINITION. The eight timer commands and the counter's tick (40_timer_engine.md R121 to R135). A meaning is the
command's step at issue; the polls of TBUSY are `busyPoll`, taken by the sequencer.
-/

namespace Sys2Proof.Machine

/-- The counter's tick (R130); with `EN` = 0 there is no tick step (log 2). -/
def Timer.tick (t : Timer) : Timer :=
  if t.tctrl.en then (if t.tval ≠ 0 then { t with tval := t.tval - 1 } else t.expire) else t

/-- Arming with `N` ticks (R122): reload value `N - 1`, counter reset (which clears `CF`), counting enabled. -/
def Timer.arm (n : Nat) (mode : TimerMode) (t : Timer) : Timer :=
  let load := BitVec.ofNat 24 (n - 1)
  let t1 := Timer.writeTval load { t with tload := load }
  { t1 with tctrl := { t1.tctrl with en := true }, mode := mode }

/-- Arming with the tick interrupt enabled (R123, R124). -/
def Timer.armWithIrq (n : Nat) (mode : TimerMode) (t : Timer) : Timer :=
  let t1 := t.arm n mode
  { t1 with tctrl := { t1.tctrl with tie := true } }

/-- The frequency `TINIT` selects (R121). -/
def selectedFrequency (p : Params) (fullClock : Bool) : Nat := if fullClock then p.fCore else p.fCore / Config.clkDiv

/-- `TINIT` (R121). -/
def execTinit (fullClock : Bool) (s : State) : Answer :=
  finish .success (s.withTimer
    { s.timer with
      tctrl := { s.timer.tctrl with clksrc := fullClock }
      tickFrequency := some (selectedFrequency s.params fullClock) })

/-- `TBUSY`, phase start (R122, R134). -/
def execTbusy (ms : Half) (s : State) : Answer :=
  guardRearm s <| armCheck ms s fun n =>
    if n = 0 then finish .success s.deinitTimer
    else .next ((s.withTimer (s.timer.arm n .busyWait)).spin (.tbusy ms) 0 0)

/-- `TBUSY`, one poll, with the completion in the poll that sees `CF` = 1 (R135, R122, R240). -/
def busyPoll (s : State) : Answer :=
  let r := s.timer.readTctrl
  let s1 := s.withTimer r.2
  if r.1.getLsbD 16 then finish .success s1.deinitTimer else .next s1

/-- `TSINGLE` (R123, R134). -/
def execTsingle (ms : Half) (s : State) : Answer :=
  guardRearm s <| armCheck ms s fun n =>
    if n = 0 then .refused .zeroTickInterval
    else finish .success (s.withTimer (s.timer.armWithIrq n .oneShot))

/-- `TPERIOD` (R124, R134). -/
def execTperiod (ms : Half) (s : State) : Answer :=
  guardRearm s <| armCheck ms s fun n =>
    if n = 0 then .refused .zeroTickInterval
    else finish .success (s.withTimer (s.timer.armWithIrq n .periodic))

/-- `TSETCB` (R125). -/
def execTsetcb (handler : Word) (s : State) : Answer :=
  nullCheck handler s <| finish .success (s.withTimer { s.timer with callback := some handler })

/-- `TELAPSED` (R126). -/
def execTelapsed (s : State) : Answer := .next (s.deliver .success ((s.timer.tload - s.timer.tval).setWidth 32))

/-- `TREMAIN` (R127). -/
def execTremain (s : State) : Answer := .next (s.deliver .success (s.timer.tval.setWidth 32))

/-- `TDEINIT` (R128). -/
def execTdeinit (s : State) : Answer := finish .success s.deinitTimer

end Sys2Proof.Machine
end

