-- ==== Sys2Proof/Machine/Dispatch.lean ====
section
/-!
DEFINITION. exec: one arm per constructor of Instr, each one direct call of its meaning.
-/

namespace Sys2Proof.Machine

def exec (i : Instr) (s : State) : Host.Outcome State Fault Refusal :=
  match i with
  | .tinit fullClock => Sys2Proof.Machine.execTinit fullClock s
  | .tbusy ms => Sys2Proof.Machine.execTbusy ms s
  | .tsingle ms => Sys2Proof.Machine.execTsingle ms s
  | .tperiod ms => Sys2Proof.Machine.execTperiod ms s
  | .tsetcb handler => Sys2Proof.Machine.execTsetcb handler s
  | .telapsed => Sys2Proof.Machine.execTelapsed s
  | .tremain => Sys2Proof.Machine.execTremain s
  | .tdeinit => Sys2Proof.Machine.execTdeinit s
  | .uconfig inst record => Sys2Proof.Machine.execUconfig inst record s
  | .usendb inst byte => Sys2Proof.Machine.execUsendb inst byte s
  | .urecvb inst out => Sys2Proof.Machine.execUrecvb inst out s
  | .usendbuf inst buffer size => Sys2Proof.Machine.execUsendbuf inst buffer size s
  | .urecvbuf inst buffer size => Sys2Proof.Machine.execUrecvbuf inst buffer size s
  | .usendstr inst text => Sys2Proof.Machine.execUsendstr inst text s
  | .urecvstr inst outBuffer => Sys2Proof.Machine.execUrecvstr inst outBuffer s
  | .usetcb inst handler => Sys2Proof.Machine.execUsetcb inst handler s

end Sys2Proof.Machine
end

