-- ==== Sys2Proof/Machine/Events.lean ====
section
/-!
DEFINITION. One step of each agent of 00_scope.md R10: the host's liberties (60_exceptions.md R242), the command
sequencer (R240), the counter, the shifters, the peers and the dispatcher. An agent that is not enabled takes no
step (log 2).
-/

namespace Sys2Proof.Machine

/-- The next atomic step of the command in progress (R240): `phase`, byte index `k` and byte `b` are the active
frame's. A command that never spins has no later step, so none is ever stored (log 31). -/
def resume (cmd : Instr) (phase : Phase) (k : Word) (b : Byte) (s : State) : Answer :=
  match cmd with
  | .tinit _ => .next s
  | .tbusy _ => busyPoll s
  | .tsingle _ => .next s
  | .tperiod _ => .next s
  | .tsetcb _ => .next s
  | .telapsed => .next s
  | .tremain => .next s
  | .tdeinit => .next s
  | .uconfig _ _ => .next s
  | .usendb n byte =>
    instCheck n s fun u =>
      match phase with
      | .start => sendByte cmd n u k byte s
      | .spin => sendPoll cmd n u k true s
  | .urecvb n out => instCheck n s fun u => recvPoll cmd n u out k (fun _ => true) s
  | .usendbuf n buffer size =>
    instCheck n s fun u =>
      match phase with
      | .start => sendFrom cmd n u buffer k s
      | .spin => sendPoll cmd n u k (lastOfSize k size) s
  | .urecvbuf n buffer size => instCheck n s fun u => recvPoll cmd n u buffer k (fun _ => lastOfSize k size) s
  | .usendstr n text =>
    instCheck n s fun u =>
      match phase with
      | .start => sendFrom cmd n u text k s
      | .spin => sendPoll cmd n u k (decide (b = Config.terminator)) s
  | .urecvstr n outBuffer =>
    instCheck n s fun u => recvPoll cmd n u outBuffer k (fun v => decide (v = Config.terminator)) s
  | .usetcb _ _ => .next s

/-- The command sequencer's step: only the active frame's command steps (R40, R235). -/
def sequencerStep (s : State) : Answer :=
  match s.active.act with
  | .running => .next s
  | .inCmd cmd phase k b => resume cmd phase k b s

/-- The host issues a command in the active context (R242): decode comes before everything (R222). -/
def issueCommand (c : Command) (s : State) : Answer :=
  match decode c with
  | .error _ => illegalCommand s
  | .ok i => exec i s

/-- A host step that needs the active frame to be Running (R242). -/
def whenRunning (s : State) (go : Answer) : Answer := if s.active.act.isRunning then go else .next s

/-- The host reads a byte: the block does nothing (R242; log 32). DESIGN CHOICE (log 37): one step reads one byte. -/
def hostReadStep (addr : Word) (s : State) : Answer :=
  match s.readByte addr with
  | .error f => .fault f
  | .ok _ => .next s

/-- The host writes a byte (R242). DESIGN CHOICE (log 37): one step writes one byte, so other agents may step between the
bytes of a wider host store. -/
def hostWriteStep (addr : Word) (b : Byte) (s : State) : Answer :=
  match s.writeByte addr b with
  | .error f => .fault f
  | .ok s' => .next s'

/-- The host changes `LineEnabled(s)` (R242; log 25). -/
def State.setLine (src : Source) (on : Bool) (s : State) : State :=
  { s with linesOff := if on then s.linesOff.filter (fun x => !decide (x = src)) else s.linesOff.insert src }

/-- One step of the agent an event names (R10). -/
def perform (e : Event) (s : State) : Answer :=
  match e with
  | .issue c => whenRunning s (issueCommand c s)
  | .handlerReturn => .next s.returnFromHandler
  | .hostRead addr => whenRunning s (hostReadStep addr s)
  | .hostWrite addr b => whenRunning s (hostWriteStep addr b s)
  | .hostSlot _ => .refused .directRegisterAccess
  | .setLine src on => whenRunning s (.next (s.setLine src on))
  | .sequencer => sequencerStep s
  | .tick => .next (s.withTimer s.timer.tick)
  | .txShift i => .next (s.txShift i)
  | .rxFrame i d => .next (s.rxFrame i d)
  | .dispatch src => .next (s.takeInterrupt src)

/-- The event the next step takes: the first of the inbox, or else a free value (R10; log 1). -/
def State.nextEvent (s : State) : Event :=
  match s.inbox with
  | e :: _ => e
  | [] => Config.freeEvent s.free

/-- The state once that event is taken. -/
def State.takeEvent (s : State) : State :=
  match s.inbox with
  | _ :: rest => { s with inbox := rest }
  | [] => { s with free := s.free + 1 }

/-- The transaction placed so that the very next step issues it: it goes to the head of the inbox, and the active
frame runs host code, which alone may issue (R242; log 3). -/
def State.placeCommand (c : Command) (s : State) : State :=
  { s with active := { s.active with act := .running }, inbox := .issue c :: s.inbox }

end Sys2Proof.Machine
end

