-- ==== Sys2Proof/Machine/Step.lean ====
section
/-!
DEFINITION. One step of the machine: the parameter constraints (00_scope.md R6), then one step of the agent that
the next event names (R10).
-/

namespace Sys2Proof.Machine

/-- One step. A configuration that breaks R6 is refused before any step. -/
def step (s : State) : Host.Outcome State Fault Refusal :=
  if s.paramsOk then perform s.nextEvent s.takeEvent else .refused .badParameters

/-- The machine with the command of a table word placed where the next step takes its event (log 3, log 30). -/
def State.withFetchWord (s : State) (nbits w : Nat) : State := s.placeCommand (commandOfBits nbits w)

end Sys2Proof.Machine
end

