-- ==== Sys2Proof/Safety.lean ====
section
/-!
DEFINITION. What the claims about runs are stated in: the invariants of the spec (10_state.md R29, 60_exceptions.md
R232 and what follows from the other rules), the groups of commands the rules name together, and the events a rule
allows to touch a piece of state.
-/

namespace Sys2Proof.Machine

/-- The timer invariants (R29 a to e). -/
abbrev TimerInv (t : Timer) : Prop :=
  (t.mode ≠ .idle → t.tctrl.en = true) ∧
  (t.mode = .idle → t.tctrl.en = false ∧ t.tctrl.tie = false ∧ t.tload = 0 ∧ t.tval = 0 ∧ t.tctrl.cf = false) ∧
  (t.mode = .busyWait → t.tctrl.tie = false) ∧
  (t.mode = .oneShot ∨ t.mode = .periodic → t.tctrl.tie = true) ∧
  t.tval.toNat ≤ t.tload.toNat ∧
  t.tload.toNat ≤ Config.maxTicks - 1

/-- Each source preempts the one after it. -/
def preemptChain (p : Params) : List Source → Bool
  | [] => true
  | [_] => true
  | a :: b :: rest => Params.preemptsRel p a b && preemptChain p (b :: rest)

/-- Frames from the active one down: every frame but the last is a handler frame, the last is the main context. -/
def stackShape : List Frame → Bool
  | [] => false
  | [f] => decide (f.ctx = .main)
  | f :: g :: rest => f.ctx.source.isSome && stackShape (g :: rest)

/-- The context stack is as R40 and R232 say: main at the bottom, and each handler above preempts the next. -/
abbrev StackInv (s : State) : Prop :=
  stackShape (s.active :: s.beneath) = true ∧ preemptChain s.params s.handlerSources = true

/-- The commands that can be in progress between two steps (R240; 90_conflicts.md C7), with the instance each needs. -/
def Instr.blockingOn : Instr → Option (Option Byte)
  | .tbusy _ => some none
  | .usendb n _ => some (some n)
  | .urecvb n _ => some (some n)
  | .usendbuf n _ _ => some (some n)
  | .urecvbuf n _ _ => some (some n)
  | .usendstr n _ => some (some n)
  | .urecvstr n _ => some (some n)
  | _ => none

/-- The command is one that can be in progress, and its instance, if it has one, exists and is configured. -/
def State.mayBeInProgress (s : State) (cmd : Instr) : Bool :=
  match Instr.blockingOn cmd with
  | none => false
  | some none => true
  | some (some n) =>
    match s.uarts[n.toNat]? with
    | none => false
    | some u => u.configured

/-- A frame's command in progress is one that can be. -/
def State.frameOk (s : State) (f : Frame) : Bool :=
  match f.act with
  | .running => true
  | .inCmd cmd _ _ _ => s.mayBeInProgress cmd

/-- Every command in progress on the stack is one of the seven that can spin, on a configured instance. -/
abbrev CommandInv (s : State) : Prop := (s.active :: s.beneath).all s.frameOk = true

/-- A TBUSY in progress is in its spin phase, and the timer is in BusyWait or, after a deinit, in Idle (R122, R236). -/
abbrev BusyWaitInv (s : State) : Prop :=
  ∀ f ∈ s.active :: s.beneath, ∀ ms ph k b, f.act = .inCmd (.tbusy ms) ph k b →
    ph = .spin ∧ (s.timer.mode = .busyWait ∨ s.timer.mode = .idle)

/-- The line of an idle shifter is high, and a frame being shifted out ends with its stop bit (R36, R102). -/
abbrev LineInv (u : Uart) : Prop :=
  (u.tx = [] → u.txd = true) ∧ (u.tx ≠ [] → u.tx.getLast? = some true)

/-- A registered handler reference is not 0 (R23, R35). -/
abbrev CallbackInv (s : State) : Prop :=
  s.timer.callback ≠ some 0 ∧ ∀ u ∈ s.uarts, u.callback ≠ some 0

/-- The three arming commands (R120). -/
def armingCommands (ms : Half) : List Instr := [.tbusy ms, .tsingle ms, .tperiod ms]

/-- The six transfer commands on one instance (R262 a), with `r` as pointer, `size` and `b` as the other operands. -/
def transferCommands (n b : Byte) (r size : Word) : List Instr :=
  [.usendb n b, .urecvb n r, .usendbuf n r size, .urecvbuf n r size, .usendstr n r, .urecvstr n r]

/-- The eight transceiver commands on one instance. -/
def uartCommands (n b : Byte) (r size : Word) : List Instr :=
  .uconfig n r :: .usetcb n r :: transferCommands n b r size

/-- The command an `issue` event carries, when it decodes and the active frame may issue it. -/
def State.issuedCommand (s : State) : Option Instr :=
  match s.nextEvent with
  | .issue c => if s.active.act.isRunning then (decode c).toOption else none
  | _ => none

/-- The command the sequencer is about to step, when the next event is the sequencer's. -/
def State.steppedCommand (s : State) : Option Instr :=
  match s.nextEvent, s.active.act with
  | .sequencer, .inCmd cmd _ _ _ => some cmd
  | _, _ => none

/-- The command that acts in the next step, issued or stepped. -/
def State.actingCommand (s : State) : Option Instr := s.issuedCommand.or s.steppedCommand

/-- The UART instance a command works on. -/
def Instr.uartInst : Instr → Option Byte
  | .uconfig n _ => some n
  | .usetcb n _ => some n
  | .usendb n _ => some n
  | .urecvb n _ => some n
  | .usendbuf n _ _ => some n
  | .urecvbuf n _ _ => some n
  | .usendstr n _ => some n
  | .urecvstr n _ => some n
  | _ => none

/-- The next step is one that works on UART instance `j`. -/
def State.touchesUart (s : State) (j : Nat) : Prop :=
  (∃ i n, s.actingCommand = some i ∧ Instr.uartInst i = some n ∧ n.toNat = j) ∨
  s.nextEvent = .txShift j ∨ (∃ d, s.nextEvent = .rxFrame j d) ∨ s.nextEvent = .dispatch (.uartRx j)

end Sys2Proof.Machine
end

