-- ==== Sys2Proof/Certificates/Slice0/Obligations.lean ====
section
/-!
DEFINITION. The statements for the provers, each from the numbered rules of spec/ it names. `perform e s` is one
step of the agent that event `e` names; `s.deliver st rv` is `s` with `(ST, RV)` delivered to the issuing frame,
which runs on; `s.spin cmd k b` and `s.startByte cmd k` are `s` with the active frame in command `cmd`.
-/

open Sys2Proof Sys2Proof.Machine

/-! Encodings and the step. -/

/-- R91 to R94: decoding the transaction of a command gives the command back, every operand at every value. -/
def Obligations.DecodeOfEncode : Prop :=
  ∀ i : Instr, decode (encode i) = .ok i

/-- R107, which the spec derives from R91, R92, R94 and R95: a word is a command of opcode `opc` iff it agrees with
that row's match under its mask; so a word that fits no row is illegal. -/
def Obligations.DecodeIsMatchAndMask : Prop :=
  ∀ (c : Command) (opc : Byte),
    (∃ i, decode c = .ok i ∧ i.opcode = opc) ↔ (∃ m, maskOf opc = some m ∧ c.cw &&& m = matchOf opc)

/-- R91, R92, R95: no bit of a legal command word is dropped, the encoder gives the word back. -/
def Obligations.EncodeOfDecode : Prop :=
  ∀ (c : Command) (i : Instr), decode c = .ok i → (encode i).cw = c.cw

/-- R106, which the spec derives from R91, R92 and R94: the worked encodings, with the two illegal words; `UCONFIG
u3` returns IndexError when `N_UART` is 3. -/
def Obligations.WorkedEncodings : Prop :=
  (∀ a1 a2 : Word,
    decode { cw := 0x10000001, a1 := a1, a2 := a2 } = .ok (.tinit true) ∧
    decode { cw := 0x110000FA, a1 := a1, a2 := a2 } = .ok (.tbusy 250) ∧
    decode { cw := 0x120003E8, a1 := a1, a2 := a2 } = .ok (.tsingle 1000) ∧
    decode { cw := 0x13000000, a1 := a1, a2 := a2 } = .ok (.tperiod 0) ∧
    decode { cw := 0x14000000, a1 := a1, a2 := a2 } = .ok (.tsetcb a1) ∧
    decode { cw := 0x15000000, a1 := a1, a2 := a2 } = .ok .telapsed ∧
    decode { cw := 0x16000000, a1 := a1, a2 := a2 } = .ok .tremain ∧
    decode { cw := 0x17000000, a1 := a1, a2 := a2 } = .ok .tdeinit ∧
    decode { cw := 0x20010000, a1 := a1, a2 := a2 } = .ok (.uconfig 1 a1) ∧
    decode { cw := 0x21010041, a1 := a1, a2 := a2 } = .ok (.usendb 1 0x41) ∧
    decode { cw := 0x22000000, a1 := a1, a2 := a2 } = .ok (.urecvb 0 a1) ∧
    decode { cw := 0x23020000, a1 := a1, a2 := a2 } = .ok (.usendbuf 2 a1 a2) ∧
    decode { cw := 0x24020000, a1 := a1, a2 := a2 } = .ok (.urecvbuf 2 a1 a2) ∧
    decode { cw := 0x25010000, a1 := a1, a2 := a2 } = .ok (.usendstr 1 a1) ∧
    decode { cw := 0x26010000, a1 := a1, a2 := a2 } = .ok (.urecvstr 1 a1) ∧
    decode { cw := 0x27020000, a1 := a1, a2 := a2 } = .ok (.usetcb 2 a1) ∧
    decode { cw := 0x20030000, a1 := a1, a2 := a2 } = .ok (.uconfig 3 a1) ∧
    decode { cw := 0x18000000, a1 := a1, a2 := a2 } = .error .reservedOpcode ∧
    decode { cw := 0x11010000, a1 := a1, a2 := a2 } = .error .instNotZero) ∧
  ∀ (s : State) (a1 : Word), s.uarts.length = 3 → exec (.uconfig 3 a1) s = .next (s.deliver .indexError 0)

/-- R242, R90: a step whose event is a command issued in a Running frame runs the decoded command on the state
with that event taken, and nothing else; `withFetchWord` places a table word so that the very next step does. -/
def Obligations.StepRunsDecodedInstruction : Prop :=
  (∀ (s : State) (c : Command) (i : Instr) (rest : List Event),
    s.paramsOk = true → s.inbox = .issue c :: rest → s.active.act = .running → decode c = .ok i →
    step s = exec i { s with inbox := rest }) ∧
  (∀ (s : State) (nbits w : Nat) (i : Instr),
    s.paramsOk = true → decodeTableWord nbits w = some i →
    step (s.withFetchWord nbits w) = exec i (s.withAct .running))

/-- R95: an illegal command (a word the decoder rejects, or USETCB in a build without the receive interrupt) ends at
once with `ST = 0xFF`, `RV = 0`, and changes no state but the delivery. -/
def Obligations.IllegalWordDeliversIllegalCommand : Prop :=
  ∀ (s : State) (c : Command) (rest : List Event),
    s.paramsOk = true → s.inbox = .issue c :: rest → s.active.act = .running →
    ((∃ e, decode c = .error e) ∨ (∃ i, decode c = .ok i ∧ i.wellFormed s.params.rxIrqBuild = false)) →
    Status.code .illegalCommand = 0xFF ∧
    step s = .next { s with
      inbox := rest
      active := { s.active with act := .running, result := some { st := .illegalCommand, rv := 0 } } }

/-- R6, whose bounds in (b) and (c) the spec derives from R160 and R161: parameters that break (a) to (d) are
refused before any step, all others step (`F_CORE` and `N_UART` are positive integers, R5). -/
def Obligations.BadParametersRefused : Prop :=
  ∀ s : State, 0 < s.params.fCore → 0 < s.uarts.length →
    ((8 ∣ s.params.fCore ∧ s.params.fRef < 78642600 ∧ 1500000 ≤ s.params.fRef ∧
        (∀ a, (a, a) ∉ s.params.preempts) ∧
        (∀ a b c, (a, b) ∈ s.params.preempts → (b, c) ∈ s.params.preempts → (a, c) ∈ s.params.preempts)) →
      step s = perform s.nextEvent s.takeEvent) ∧
    (¬ (8 ∣ s.params.fCore ∧ s.params.fRef < 78642600 ∧ 1500000 ≤ s.params.fRef ∧
        (∀ a, (a, a) ∉ s.params.preempts) ∧
        (∀ a b c, (a, b) ∈ s.params.preempts → (b, c) ∈ s.params.preempts → (a, c) ∈ s.params.preempts)) →
      step s = .refused .badParameters)

/-- R10, R130, R180, R227, R231, R242: an agent that is not enabled takes no step. That its event then leaves the state
as it is, rather than not existing, is the model's choice (log 2). -/
def Obligations.DisabledAgentsTakeNoStep : Prop :=
  ∀ s : State,
    (s.timer.tctrl.en = false → perform .tick s = .next s) ∧
    (s.active.act = .running → perform .sequencer s = .next s) ∧
    (∀ i u, s.uarts[i]? = some u → u.tx = [] → perform (.txShift i) s = .next s) ∧
    (∀ src, s.mayDispatch src = false → perform (.dispatch src) s = .next s) ∧
    (s.active.ctx = .main ∨ s.active.act ≠ .running → perform .handlerReturn s = .next s) ∧
    (s.active.act ≠ .running → ∀ (c : Command) (a : Word) (b : Byte) (src : Source) (on : Bool),
      ∀ e ∈ [Event.issue c, .hostRead a, .hostWrite a b, .setLine src on], perform e s = .next s)

/-! Timer commands. -/

/-- R121: TINIT writes `CLKSRC` and the tick frequency and ends with Success, in every mode; nothing else. -/
def Obligations.TinitSelectsClock : Prop :=
  ∀ (fullClock : Bool) (s : State),
    exec (.tinit fullClock) s = .next ((s.withTimer
      { s.timer with
        tctrl := { s.timer.tctrl with clksrc := fullClock }
        tickFrequency := some (if fullClock then s.params.fCore else s.params.fCore / 8) }).deliver .success 0)

/-- R122: TBUSY in Idle with `N >= 1` sets reload and counter to `N - 1`, clears `CF`, enables counting, enters
BusyWait and spins. -/
def Obligations.TbusyArms : Prop :=
  ∀ (ms : Half) (f : Nat) (s : State),
    s.busyWaitBeneath = false → s.timer.mode = .idle → s.timer.tickFrequency = some f →
    1000 ≤ ms.toNat * f → ms.toNat * f ≤ 16777215000 →
    ∃ load : Ticks, load.toNat = ms.toNat * f / 1000 - 1 ∧
      exec (.tbusy ms) s = .next ((s.withTimer
        { s.timer with
          mode := .busyWait
          tload := load
          tval := load
          tctrl := { s.timer.tctrl with en := true, cf := false } }).spin (.tbusy ms) 0 0)

/-- R123, R124: TSINGLE and TPERIOD in Idle with `N >= 1` set reload and counter to `N - 1`, clear `CF`, enable
the tick interrupt and counting, enter their mode and end with Success. -/
def Obligations.TsingleTperiodArm : Prop :=
  ∀ (ms : Half) (f : Nat) (s : State),
    s.busyWaitBeneath = false → s.timer.mode = .idle → s.timer.tickFrequency = some f →
    1000 ≤ ms.toNat * f → ms.toNat * f ≤ 16777215000 →
    ∃ load : Ticks, load.toNat = ms.toNat * f / 1000 - 1 ∧
      ∀ x ∈ [(Instr.tsingle ms, TimerMode.oneShot), (Instr.tperiod ms, TimerMode.periodic)],
        exec x.1 s = .next ((s.withTimer
          { s.timer with
            mode := x.2
            tload := load
            tval := load
            tctrl := { s.timer.tctrl with en := true, tie := true, cf := false } }).deliver .success 0)

/-- R134: an interval of zero ticks ends TBUSY at once with the deinit actions and Success; TSINGLE and TPERIOD
are refused. -/
def Obligations.ZeroTickInterval : Prop :=
  ∀ (ms : Half) (f : Nat) (s : State),
    s.busyWaitBeneath = false → s.timer.mode = .idle → s.timer.tickFrequency = some f → ms.toNat * f < 1000 →
    exec (.tbusy ms) s = .next ((s.withTimer
      { s.timer with
        mode := .idle
        tload := 0
        tval := 0
        tctrl := { s.timer.tctrl with en := false, tie := false, cf := false } }).deliver .success 0) ∧
    exec (.tsingle ms) s = .refused .zeroTickInterval ∧
    exec (.tperiod ms) s = .refused .zeroTickInterval

/-- R120, R264, R222: an arming command while armed returns BusyError, whatever the interval and the frequency; in Idle
it is refused while the frequency has no value, and returns OverflowError when `ms * f` exceeds `MAX_TICKS * 1000`;
a status changes nothing but the delivery. -/
def Obligations.ArmingCheckFailures : Prop :=
  ∀ (ms : Half) (s : State), s.busyWaitBeneath = false → ∀ i ∈ armingCommands ms,
    (s.timer.mode ≠ .idle → exec i s = .next (s.deliver .busyError 0)) ∧
    (s.timer.mode = .idle → s.timer.tickFrequency = none → exec i s = .refused .armBeforeInit) ∧
    (∀ f, s.timer.mode = .idle → s.timer.tickFrequency = some f → 16777215000 < ms.toNat * f →
      exec i s = .next (s.deliver .overflowError 0))

/-- R236: an arming command issued from a handler frame while a frame beneath it is in the spin phase of TBUSY is
refused, in every mode and for every interval. -/
def Obligations.RearmDuringBusyWaitRefused : Prop :=
  ∀ (ms ms' : Half) (k : Word) (b : Byte) (src : Source) (f : Frame) (s : State),
    s.active.ctx = .handler src → f ∈ s.beneath → f.act = .inCmd (.tbusy ms') .spin k b →
    ∀ i ∈ armingCommands ms, exec i s = .refused .rearmDuringBusyWait

/-- R135, R122: a poll of TBUSY reads TCTRL: with `CF` = 0 it stays in spin and nothing changes; with `CF` = 1 the
read clears it, the deinit actions run and Success is delivered. -/
def Obligations.TbusyPoll : Prop :=
  ∀ (ms : Half) (ph : Phase) (k : Word) (b : Byte) (s : State), s.active.act = .inCmd (.tbusy ms) ph k b →
    (s.timer.tctrl.cf = false → perform .sequencer s = .next s) ∧
    (s.timer.tctrl.cf = true → perform .sequencer s = .next ((s.withTimer
      { s.timer with
        mode := .idle
        tload := 0
        tval := 0
        tctrl := { s.timer.tctrl with en := false, tie := false, cf := false } }).deliver .success 0))

/-- R125, R178: TSETCB stores a present handler in every mode, overwriting the one before; an absent one returns
NullPointerError and stores nothing. USETCB does the same for its instance's slot after the instance check; in a build
without the receive interrupt it is an illegal command. -/
def Obligations.HandlerCommandsStore : Prop :=
  (∀ (h : Word) (s : State),
    (h ≠ 0 → exec (.tsetcb h) s = .next ((s.withTimer { s.timer with callback := some h }).deliver .success 0)) ∧
    (h = 0 → exec (.tsetcb h) s = .next (s.deliver .nullPointerError 0))) ∧
  ∀ (n : Byte) (h : Word) (s : State),
    (s.params.rxIrqBuild = false → exec (.usetcb n h) s = .next (s.deliver .illegalCommand 0)) ∧
    (s.params.rxIrqBuild = true → s.uarts.length ≤ n.toNat → exec (.usetcb n h) s = .next (s.deliver .indexError 0)) ∧
    (∀ u, s.params.rxIrqBuild = true → s.uarts[n.toNat]? = some u →
      (h = 0 → exec (.usetcb n h) s = .next (s.deliver .nullPointerError 0)) ∧
      (h ≠ 0 → exec (.usetcb n h) s =
        .next ((s.withUart n.toNat { u with callback := some h }).deliver .success 0)))

/-- R126, R127: TELAPSED returns `TLOAD - TVAL` (never negative, R29 d) and TREMAIN returns `TVAL`, both with
Success, in Idle both 0 (R29 b); nothing else changes, so `CF` survives. -/
def Obligations.TickReads : Prop :=
  ∀ s : State,
    (s.timer.tval.toNat ≤ s.timer.tload.toNat →
      ∃ rv : Word, rv.toNat = s.timer.tload.toNat - s.timer.tval.toNat ∧
        exec .telapsed s = .next (s.deliver .success rv)) ∧
    (∃ rv : Word, rv.toNat = s.timer.tval.toNat ∧ exec .tremain s = .next (s.deliver .success rv)) ∧
    (s.timer.mode = .idle → TimerInv s.timer →
      exec .telapsed s = .next (s.deliver .success 0) ∧ exec .tremain s = .next (s.deliver .success 0))

/-- R129, R128: TDEINIT disables counting and the tick interrupt, zeroes reload and counter, clears `CF`, enters
Idle, and leaves clock source, frequency, callback and pending request alone; applied again it changes nothing. -/
def Obligations.TdeinitDisarms : Prop :=
  ∀ s : State,
    exec .tdeinit s = .next ((s.withTimer
      { s.timer with
        mode := .idle
        tload := 0
        tval := 0
        tctrl := { s.timer.tctrl with en := false, tie := false, cf := false } }).deliver .success 0) ∧
    (∀ t, exec .tdeinit s = .next t → exec .tdeinit t = .next t)

/-- R130: with `EN` = 1 a tick counts `TVAL` down by one, or, finding it 0, reloads it, sets `CF` and, with `TIE` = 1,
raises the request. -/
def Obligations.CounterTick : Prop :=
  ∀ s : State,
    (s.timer.tctrl.en = true → s.timer.tval ≠ 0 →
      ∃ v : Ticks, v.toNat + 1 = s.timer.tval.toNat ∧
        perform .tick s = .next (s.withTimer { s.timer with tval := v })) ∧
    (s.timer.tctrl.en = true → s.timer.tval = 0 →
      perform .tick s = .next (s.withTimer
        { s.timer with
          tval := s.timer.tload
          tctrl := { s.timer.tctrl with cf := true }
          irqPending := if s.timer.tctrl.tie then true else s.timer.irqPending }))

/-- R131, which the spec derives from R122 to R124 and R130: after arming with `N` ticks, `TVAL` is `N - 1 - k mod
N` after `k` ticks, so tick `k` finds it 0 iff `N` divides `k`: the first expiry is the `N`-th tick and every later
one exactly `N` ticks on. `CF` is 1 from tick `N` on, the request too when `TIE` = 1, and nothing else changes. -/
def Obligations.CountingLaw : Prop :=
  ∀ (n k : Nat) (t : Timer),
    1 ≤ n → t.tctrl.en = true → t.tload.toNat = n - 1 → t.tval = t.tload → t.tctrl.cf = false →
    (Timer.tick^[k] t).tval.toNat = n - 1 - k % n ∧
    (1 ≤ k → ((Timer.tick^[k - 1] t).tval = 0 ↔ n ∣ k)) ∧
    Timer.tick^[k] t =
      { t with
        tval := (Timer.tick^[k] t).tval
        tctrl := { t.tctrl with cf := decide (n ≤ k) }
        irqPending := t.irqPending || (t.tctrl.tie && decide (n ≤ k)) }

/-! The Baud-Rate Synthesizer. -/

/-- R161, which the spec derives from R160: the stepwise synthesizer is `floor((2F + B) / (2B))` wherever that is
below 65536. -/
def Obligations.BrsynthClosedForm : Prop :=
  ∀ f b : Nat, 0 < b → (2 * f + b) / (2 * b) < 65536 → (brsynth f b).toNat = (2 * f + b) / (2 * b)

/-- R162, R6 (b, c: the spec's own derivation): for every rate in range and every legal reference frequency the
divisor is 1 to 65535, the mantissa at most 4095 and the fraction below 16, so nothing is truncated. -/
def Obligations.BrsynthStaysInField : Prop :=
  ∀ f b : Nat, 1500000 ≤ f → f < 78642600 → 1200 ≤ b → b ≤ 3000000 →
    1 ≤ (brsynth f b).toNat ∧ (baudFields f b).1 ≤ 4095 ∧ (baudFields f b).2 < 16 ∧
    (brsynth f b).toNat = (baudFields f b).1 * 16 + (baudFields f b).2

/-! Transceiver commands. -/

/-- R170: every transceiver command of the build on an index outside the set returns IndexError before anything
else and writes nothing. -/
def Obligations.InstanceCheckFirst : Prop :=
  ∀ (n b : Byte) (r size : Word) (s : State), s.uarts.length ≤ n.toNat →
    ∀ i ∈ uartCommands n b r size, i.wellFormed s.params.rxIrqBuild = true →
      exec i s = .next (s.deliver .indexError 0)

/-- R220, R222: on an existing instance, a required reference of 0 returns NullPointerError and writes nothing (of
USENDBUF and USENDSTR where R237 does not refuse them; which of the two comes first is the model's choice, log 19). -/
def Obligations.NullReferenceRejected : Prop :=
  ∀ (n : Byte) (size : Word) (u : Uart) (s : State), s.uarts[n.toNat]? = some u →
    (∀ i ∈ [Instr.uconfig n 0, .urecvb n 0, .urecvbuf n 0 size, .urecvstr n 0, .usetcb n 0],
      i.wellFormed s.params.rxIrqBuild = true → exec i s = .next (s.deliver .nullPointerError 0)) ∧
    (s.sendBeneath n = false → ∀ i ∈ [Instr.usendbuf n 0 size, .usendstr n 0],
      exec i s = .next (s.deliver .nullPointerError 0))

/-- R171: UCONFIG's five checks in order, the first failing one giving the status with nothing written, and the
register writes when all pass. -/
def Obligations.UconfigValidatesThenWrites : Prop :=
  ∀ (n : Byte) (p : Word) (s : State),
    (s.uarts.length ≤ n.toNat → exec (.uconfig n p) s = .next (s.deliver .indexError 0)) ∧
    (∀ u, s.uarts[n.toNat]? = some u → p = 0 → exec (.uconfig n p) s = .next (s.deliver .nullPointerError 0)) ∧
    (∀ (u : Uart) (baud dup par : Nat), s.uarts[n.toNat]? = some u → p ≠ 0 →
      s.memRead p 4 = .ok baud → s.memRead (p + 4) 1 = .ok dup → s.memRead (p + 5) 1 = .ok par →
      exec (.uconfig n p) s = .next (
        if baud < 1200 ∨ 3000000 < baud then s.deliver .baudRateError 0
        else if dup ∉ [1, 2, 3] then s.deliver .deviceModeError 0
        else if par ∉ [0, 2, 3] then s.deliver .parityError 0
        else (s.withUart n.toNat
          { u with
            configured := true
            ucr :=
              { pen := par.testBit 1
                ptype := par.testBit 0
                rxen := dup.testBit 0
                txen := dup.testBit 1
                rxie := if s.params.rxIrqBuild then true else u.ucr.rxie
                uen := true }
            ubrr := brsynth s.params.fRef baud }).deliver .success 0))

/-- R262 (a): a transfer command on an instance never configured is refused once its operand checks have passed (a
send nested over a send is refused as R237 says). -/
def Obligations.UnconfiguredTransferRefused : Prop :=
  ∀ (n b : Byte) (r size : Word) (u : Uart) (s : State),
    s.uarts[n.toNat]? = some u → u.configured = false → r ≠ 0 →
    ∀ i ∈ transferCommands n b r size, (Instr.sendInst i = none ∨ s.sendBeneath n = false) →
      exec i s = .refused .uartUnconfigured

/-- R179, R172, R174, R176, R102: the first step of a send command writes the data slot. With both enables 1 and an
idle shifter the frame of the byte is loaded (start bit, data LSB first, parity if enabled, stop bit); with the
shifter busy the write is refused; with an enable 0 the byte is discarded. `TC` is not changed and the command
polls. -/
def Obligations.SendWritesDataSlot : Prop :=
  ∀ (n b : Byte) (i : Instr) (u : Uart) (s : State),
    s.uarts[n.toNat]? = some u → u.configured = true → s.sendBeneath n = false →
    (i = .usendb n b ∨ ∃ r size, r ≠ 0 ∧ size ≠ 0 ∧ s.readByte r = .ok b ∧ (i = .usendbuf n r size ∨ i = .usendstr n r)) →
    (u.ucr.uen = true → u.ucr.txen = true → u.tx = [] →
      exec i s = .next ((s.withUart n.toNat
        { u with
          tdr := b
          tx := false :: (List.ofFn fun j : Fin 8 => b.getLsbD j) ++
            (if u.ucr.pen then [if u.ucr.ptype then !xorBits b else xorBits b] else []) ++ [true] }).spin i 0 b)) ∧
    (u.ucr.uen = true → u.ucr.txen = true → u.tx ≠ [] → exec i s = .refused .drWriteWhileShifting) ∧
    ((u.ucr.uen && u.ucr.txen) = false →
      exec i s = .next ((s.withUart n.toNat { u with tdr := b }).spin i 0 b))

/-- R174, R175: a buffer command of size 0 with its operands good ends at once with Success: no data-slot write,
no memory access. -/
def Obligations.ZeroSizeBufferCompletes : Prop :=
  ∀ (n : Byte) (r : Word) (u : Uart) (s : State),
    s.uarts[n.toNat]? = some u → u.configured = true → r ≠ 0 →
    (s.sendBeneath n = false → exec (.usendbuf n r 0) s = .next (s.deliver .success 0)) ∧
    exec (.urecvbuf n r 0) s = .next (s.deliver .success 0)

/-- R185, R172, R174, R176: a poll of a send that sees `TC` = 0 changes nothing; one that sees `TC` = 1 clears it
and ends the command after its last byte (the only one, byte `size - 1`, the terminator), else goes on to byte `k +
1`, in phase `start` (log 36). -/
def Obligations.SendPoll : Prop :=
  ∀ (n b byte : Byte) (r size k : Word) (u : Uart) (s : State), s.uarts[n.toNat]? = some u →
    ∀ x ∈ [(Instr.usendb n byte, true), (Instr.usendbuf n r size, decide (size.toNat ≤ k.toNat + 1)),
        (Instr.usendstr n r, decide (b = 0))],
      s.active.act = .inCmd x.1 .spin k b →
      (u.usr.tc = false → perform .sequencer s = .next s) ∧
      (u.usr.tc = true → perform .sequencer s = .next (
        if x.2 then (s.withUart n.toNat { u with usr := { u.usr with tc := false } }).deliver .success 0
        else (s.withUart n.toNat { u with usr := { u.usr with tc := false } }).startByte x.1 (k + 1)))

/-- R174, R176, R75, R240: the step that begins byte `k` of a buffer or string reads the byte at the base address
plus `k` modulo 2^32 and writes it to the data slot, or is refused when the shifter is busy. That the
phase before it is `start` is the model's choice (log 36). -/
def Obligations.SendNextByte : Prop :=
  ∀ (n b v : Byte) (r size k : Word) (u : Uart) (s : State), s.uarts[n.toNat]? = some u →
    s.readByte (r + k) = .ok v →
    ∀ i ∈ [Instr.usendbuf n r size, .usendstr n r], s.active.act = .inCmd i .start k b →
      (u.ucr.uen = true → u.ucr.txen = true → u.tx = [] →
        perform .sequencer s = .next ((s.withUart n.toNat
          { u with tdr := v, tx := serialFrame v u.ucr.pen u.ucr.ptype }).spin i k v)) ∧
      (u.ucr.uen = true → u.ucr.txen = true → u.tx ≠ [] →
        perform .sequencer s = .refused .drWriteWhileShifting) ∧
      ((u.ucr.uen && u.ucr.txen) = false →
        perform .sequencer s = .next ((s.withUart n.toNat { u with tdr := v }).spin i k v))

/-- R237: a send command issued from a handler frame while a frame beneath it has a send on the same instance in
progress is refused; it is not refused for that when the active frame is main or no such frame is beneath (a send on
another instance, a receive), and a receive command never is. That the refusal comes before the null check of the
same command is the model's choice (log 19), which the clauses with `r` = 0 rest on. -/
def Obligations.NestedSendRefused : Prop :=
  ∀ (n b : Byte) (r size : Word) (u : Uart) (s : State), s.uarts[n.toNat]? = some u →
    (∀ i ∈ [Instr.urecvb n r, .urecvbuf n r size, .urecvstr n r],
      exec i s ≠ .refused .nestedSendSameInstance) ∧
    ∀ i ∈ [Instr.usendb n b, .usendbuf n r size, .usendstr n r],
      ((∃ (src : Source) (f : Frame) (cmd : Instr) (ph : Phase) (k : Word) (b' : Byte),
          s.active.ctx = .handler src ∧ f ∈ s.beneath ∧ f.act = .inCmd cmd ph k b' ∧ Instr.sendInst cmd = some n) →
        exec i s = .refused .nestedSendSameInstance) ∧
      ((s.active.ctx = .main ∨
          ∀ f ∈ s.beneath, ∀ cmd ph k b', f.act = .inCmd cmd ph k b' → Instr.sendInst cmd ≠ some n) →
        exec i s ≠ .refused .nestedSendSameInstance)

/-- R173, R67: URECVB's step at issue is its set-up step, after which it polls. R175, R177, R185, R240: the step that
issues URECVBUF or URECVSTR is its first byte's first poll too (read from R240, log 17): with `RXNE` = 0 it spins and
changes nothing else; with `RXNE` = 1 the byte waiting is stored at the pointer, every other byte of memory is
unchanged, `RXNE` falls (when the read clears it), and the command ends with Success after its last byte (byte
`size - 1`, the terminator) or else spins for byte 1 (log 36). -/
def Obligations.ReceiveCommands : Prop :=
  ∀ (n : Byte) (r size : Word) (u : Uart) (s : State),
    Memory.wf s.mem = true → s.uarts[n.toNat]? = some u → u.configured = true → r ≠ 0 → size ≠ 0 →
    exec (.urecvb n r) s = .next (s.spin (.urecvb n r) 0 0) ∧
    ∀ x ∈ [(Instr.urecvbuf n r size, decide (size = 1)), (Instr.urecvstr n r, decide (u.rdr = 0))],
      (u.usr.rxne = false → exec x.1 s = .next (s.spin x.1 0 0)) ∧
      (u.usr.rxne = true → Params.backs s.params r = true →
        ∃ t, exec x.1 s = .next t ∧
          Memory.read t.mem r.toNat = u.rdr ∧
          (∀ a, a ≠ r.toNat → Memory.read t.mem a = Memory.read s.mem a) ∧
          t.uarts = s.uarts.set n.toNat
            { u with usr := { u.usr with rxne := if s.params.rxneClearedByRead then false else true } } ∧
          t.active = { s.active with
            act := if x.2 then .running else .inCmd x.1 .spin 1 0
            result := if x.2 then some { st := .success, rv := 0 } else s.active.result } ∧
          t = { s with mem := t.mem, uarts := t.uarts, active := t.active })

/-- R185, R175, R177, R75: a poll of a receive command in progress at byte `k`: with `RXNE` = 0 it goes on spinning;
with `RXNE` = 1 the byte is stored at the pointer plus `k` modulo 2^32 and every other byte of memory is unchanged,
and the command ends after its last byte or else spins for byte `k + 1` (log 36). -/
def Obligations.ReceivePoll : Prop :=
  ∀ (n b : Byte) (ph : Phase) (r size k : Word) (u : Uart) (s : State),
    Memory.wf s.mem = true → s.uarts[n.toNat]? = some u →
    ∀ x ∈ [(Instr.urecvb n r, true), (Instr.urecvbuf n r size, decide (size.toNat ≤ k.toNat + 1)),
        (Instr.urecvstr n r, decide (u.rdr = 0))],
      s.active.act = .inCmd x.1 ph k b →
      (u.usr.rxne = false → perform .sequencer s = .next (s.spin x.1 k 0)) ∧
      (u.usr.rxne = true → Params.backs s.params (r + k) = true →
        ∃ t, perform .sequencer s = .next t ∧
          Memory.read t.mem (r + k).toNat = u.rdr ∧
          (∀ a, a ≠ (r + k).toNat → Memory.read t.mem a = Memory.read s.mem a) ∧
          t.uarts = s.uarts.set n.toNat
            { u with usr := { u.usr with rxne := if s.params.rxneClearedByRead then false else true } } ∧
          t.active = { s.active with
            act := if x.2 then .running else .inCmd x.1 .spin (k + 1) 0
            result := if x.2 then some { st := .success, rv := 0 } else s.active.result } ∧
          t = { s with mem := t.mem, uarts := t.uarts, active := t.active })

/-! The serial line. -/

/-- R103, R102: data bits and parity bit together hold an even number of ones under even parity and an odd number
under odd parity; a frame is 10 bits without parity and 11 with, from a start bit 0 through the
data bits, least significant first, and the parity bit to a stop bit 1. -/
def Obligations.FrameAndParity : Prop :=
  ∀ (d : Byte) (pen ptype : Bool),
    ((List.range 8).countP (fun j => d.getLsbD j) + (parityBit d ptype).toNat) % 2 = ptype.toNat ∧
    (serialFrame d pen ptype).length = (if pen then 11 else 10) ∧
    (serialFrame d pen ptype).head? = some false ∧ (serialFrame d pen ptype).getLast? = some true ∧
    (∀ j, j < 8 → (serialFrame d pen ptype)[j + 1]? = some (d.getLsbD j)) ∧
    (pen = true → (serialFrame d pen ptype)[9]? = some (parityBit d ptype))

/-- R180, R181, R102: a shifter step drives the first bit and keeps the rest, and with the last bit the shifter is
idle and `TC` is 1; so shifting as often as the frame has bits puts exactly those bits on the line, in order, and
leaves the shifter idle, `TC` = 1 and everything else as it was. -/
def Obligations.FrameShiftsOut : Prop :=
  ∀ (i : Nat) (u : Uart) (s : State), s.uarts[i]? = some u →
    (∀ b rest, u.tx = b :: rest → perform (.txShift i) s = .next { s with
      uarts := s.uarts.set i
        { u with txd := b, tx := rest, usr := { u.usr with tc := if rest = [] then true else u.usr.tc } }
      trace := .txBit i b :: s.trace }) ∧
    (u.tx ≠ [] → (State.txShift i)^[u.tx.length] s =
      { s with
        uarts := s.uarts.set i { u with tx := [], txd := u.tx.getLast?.getD true, usr := { u.usr with tc := true } }
        trace := (u.tx.map (Emission.txBit i)).reverse ++ s.trace })

/-- R182, R183, R262 (c), (d): a frame reaching a configured instance is ignored unless both enables are 1; with
`RXNE` = 0 its byte is delivered and `RXNE` rises; at an overrun `RDR` holds the old byte or the new one and nothing
else changes. On an instance never configured the frame is either ignored or received as on an enabled one, and no
receive interrupt is dispatched. Each choice is a free value of the model (log 14, log 15); this holds for all of
them. -/
def Obligations.FrameArrival : Prop :=
  ∀ (i : Nat) (d : Byte) (u : Uart) (s : State), s.uarts[i]? = some u →
    (u.configured = true →
      ((u.ucr.uen && u.ucr.rxen) = false → perform (.rxFrame i d) s = .next s) ∧
      (u.ucr.uen = true → u.ucr.rxen = true → u.usr.rxne = false →
        perform (.rxFrame i d) s = .next (s.withUart i { u with rdr := d, usr := { u.usr with rxne := true } })) ∧
      (u.ucr.uen = true → u.ucr.rxen = true → u.usr.rxne = true →
        ∃ t v, perform (.rxFrame i d) s = .next t ∧ (v = u.rdr ∨ v = d) ∧
          t = { s.withUart i { u with rdr := v } with free := t.free })) ∧
    (u.configured = false →
      (∃ t, perform (.rxFrame i d) s = .next t ∧
        (t = { s with free := t.free } ∨
          ∃ v, (v = d ∨ (u.usr.rxne = true ∧ v = u.rdr)) ∧
            t = { s.withUart i { u with rdr := v, usr := { u.usr with rxne := true } } with free := t.free })) ∧
      perform (.dispatch (.uartRx i)) s = .next s)

/-! Interrupts. -/

/-- R229, R228, R227: a dispatched timer request is cleared; with a callback a handler frame is pushed over the
interrupted frame, which stays as it is, and the callback is invoked; without one the deinit actions run in OneShot
mode and nothing more otherwise. The callback's return pops the frame and runs the deinit actions in OneShot mode. -/
def Obligations.TimerHandler : Prop :=
  ∀ s : State,
    let off := { s.timer with
      mode := TimerMode.idle, tload := 0, tval := 0, irqPending := false
      tctrl := { s.timer.tctrl with en := false, tie := false, cf := false } }
    (s.timer.irqPending = true → Source.timer ∉ s.linesOff → s.stackAdmits .timer = true →
      (∀ h, s.timer.callback = some h → perform (.dispatch .timer) s = .next { s with
        timer := { s.timer with irqPending := false }
        active := { ctx := .handler .timer, act := .running, result := none }
        beneath := s.active :: s.beneath
        trace := .invoke h none :: s.trace }) ∧
      (s.timer.callback = none → s.timer.mode = .oneShot → perform (.dispatch .timer) s = .next (s.withTimer off)) ∧
      (s.timer.callback = none → s.timer.mode ≠ .oneShot →
        perform (.dispatch .timer) s = .next (s.withTimer { s.timer with irqPending := false }))) ∧
    (∀ f rest, s.active.ctx = .handler .timer → s.active.act = .running → s.beneath = f :: rest →
      perform .handlerReturn s = .next { s with
        active := f
        beneath := rest
        timer := if s.timer.mode = .oneShot then { off with irqPending := s.timer.irqPending } else s.timer })

/-- R230, R226, R231: a dispatched receive request reads the data slot, which lowers `RXNE` when the read clears it;
with a callback a handler frame is pushed and the callback is invoked with the byte, without one the byte is
dropped. The callback's return pops the frame and does nothing else. -/
def Obligations.ReceiveHandler : Prop :=
  ∀ (i : Nat) (s : State),
    (∀ u, s.uarts[i]? = some u → s.params.rxIrqBuild = true → u.configured = true → u.usr.rxne = true →
      u.ucr.rxie = true → Source.uartRx i ∉ s.linesOff → s.stackAdmits (.uartRx i) = true →
      ∀ u', u' = { u with usr := { u.usr with rxne := if s.params.rxneClearedByRead then false else true } } →
      (∀ h, u.callback = some h → perform (.dispatch (.uartRx i)) s = .next { s with
        uarts := s.uarts.set i u'
        active := { ctx := .handler (.uartRx i), act := .running, result := none }
        beneath := s.active :: s.beneath
        trace := .invoke h (some u.rdr) :: s.trace }) ∧
      (u.callback = none → perform (.dispatch (.uartRx i)) s = .next (s.withUart i u'))) ∧
    (∀ f rest, s.active.ctx = .handler (.uartRx i) → s.active.act = .running → s.beneath = f :: rest →
      perform .handlerReturn s = .next { s with active := f, beneath := rest })

/-- R227, R225, R226, R224: a source is dispatched only if its request is active, its line is enabled and `K` holds
no handler frame or it preempts the top one; otherwise the dispatcher changes nothing (that
its event is then a step at all is the model's choice, log 2). -/
def Obligations.DispatchNeedsRequestLineAndPriority : Prop :=
  ∀ (src : Source) (s : State),
    ((∃ i u, src = .uartRx i ∧ s.uarts[i]? = some u ∧
        (s.params.rxIrqBuild = false ∨ u.usr.rxne = false ∨ u.ucr.rxie = false)) ∨
      (src = .timer ∧ s.timer.irqPending = false) ∨
      src ∈ s.linesOff ∨
      (∃ top rest, s.handlerSources = top :: rest ∧ (src, top) ∉ s.params.preempts)) →
    perform (.dispatch src) s = .next s

/-! Reset, invariants and rules about the whole machine. -/

/-- R260: the values the spec gives for reset, for all parameters and numbers of instances; that state meets every
invariant (R29, R40, R36, R23; the canonical form of memory is the model's own, log 11). -/
def Obligations.ResetState : Prop :=
  ∀ (p : Params) (n : Nat),
    let s := State.resetWith p n
    (s.params = p ∧ s.uarts.length = n ∧
      s.timer.mode = .idle ∧ s.timer.tickFrequency = none ∧ s.timer.callback = none ∧
      s.timer.tctrl.en = false ∧ s.timer.tctrl.tie = false ∧ s.timer.tctrl.cf = false ∧
      s.timer.tload = 0 ∧ s.timer.tval = 0 ∧ s.timer.irqPending = false ∧
      s.stack.map Frame.ctx = [.main] ∧ s.active.act = .running ∧
      ∀ u ∈ s.uarts, u.configured = false ∧ u.usr.rxne = false ∧ u.callback = none ∧ u.tx = [] ∧ u.txd = true ∧
        (p.tcReset = .zero → u.usr.tc = false) ∧ (p.tcReset = .one → u.usr.tc = true)) ∧
    TimerInv s.timer ∧ StackInv s ∧ CommandInv s ∧ BusyWaitInv s ∧ CallbackInv s ∧ (∀ u ∈ s.uarts, LineInv u) ∧
    Memory.wf s.mem = true

/-- R29, which the spec derives from R120 to R130: every step keeps the timer invariants (a) to (e). -/
def Obligations.StepKeepsTimerInv : Prop :=
  ∀ s t : State, TimerInv s.timer → step s = .next t → TimerInv t.timer

/-- R40, R228, R231, R232: every step keeps the shape of the context stack: main at the bottom, handlers above it, each
preempting the one beneath. -/
def Obligations.StepKeepsStackInv : Prop :=
  ∀ s t : State, StackInv s → step s = .next t → StackInv t

/-- R232, which the spec derives from R227, with R6 (d): on a stack of that shape under legal parameters, no source
stands twice. -/
def Obligations.NoSourceTwiceOnStack : Prop :=
  ∀ s : State, StackInv s → s.paramsOk = true → s.handlerSources.Nodup

/-- R240, R262, C7: every step keeps it that only the seven commands that can spin are in progress, each on an
existing, configured instance. -/
def Obligations.StepKeepsCommandInv : Prop :=
  ∀ s t : State, CommandInv s → step s = .next t → CommandInv t

/-- R122, R236, R29: every step keeps it that while a TBUSY is in progress in any frame it is in its spin phase and the
timer is in BusyWait, or in Idle after a deinit. -/
def Obligations.StepKeepsBusyWaitInv : Prop :=
  ∀ s t : State, StackInv s → BusyWaitInv s → step s = .next t → BusyWaitInv t

/-- R133, which the spec derives from R120 to R129 and R229: the mode changes only so: from Idle by an accepted arming
command to that command's mode; from BusyWait to Idle by a poll of TBUSY that sees `CF` = 1; from OneShot to Idle by
the timer handler's exit; from any mode to Idle by TDEINIT. -/
def Obligations.ModeTransitions : Prop :=
  ∀ s t : State, BusyWaitInv s → step s = .next t → t.timer.mode ≠ s.timer.mode →
    (s.timer.mode = .idle ∧ ∃ ms,
      (s.issuedCommand = some (.tbusy ms) ∧ t.timer.mode = .busyWait) ∨
      (s.issuedCommand = some (.tsingle ms) ∧ t.timer.mode = .oneShot) ∨
      (s.issuedCommand = some (.tperiod ms) ∧ t.timer.mode = .periodic)) ∨
    (s.timer.mode = .busyWait ∧ t.timer.mode = .idle ∧ s.timer.tctrl.cf = true ∧
      ∃ ms, s.steppedCommand = some (.tbusy ms)) ∨
    (s.timer.mode = .oneShot ∧ t.timer.mode = .idle ∧
      ((s.nextEvent = .dispatch .timer ∧ s.timer.callback = none) ∨
       (s.nextEvent = .handlerReturn ∧ s.active.ctx = .handler .timer))) ∨
    (t.timer.mode = .idle ∧ s.issuedCommand = some .tdeinit)

/-- R36, R102: every step keeps the line of an idle shifter high and a frame in flight ending in its stop bit. -/
def Obligations.StepKeepsLineInv : Prop :=
  ∀ s t : State, (∀ u ∈ s.uarts, LineInv u) → step s = .next t → ∀ u ∈ t.uarts, LineInv u

/-- R23, R35, R93: every step keeps registered handler references non-zero, and no step empties a callback slot. -/
def Obligations.StepKeepsCallbacks : Prop :=
  ∀ s t : State, step s = .next t →
    (CallbackInv s → CallbackInv t) ∧
    (s.timer.callback ≠ none → t.timer.callback ≠ none) ∧
    (∀ (i : Nat) (u u' : Uart), s.uarts[i]? = some u → t.uarts[i]? = some u' → u.callback ≠ none → u'.callback ≠ none)

/-- R62 and the model's canonical form of memory (log 11): every step keeps it. -/
def Obligations.StepKeepsMemoryForm : Prop :=
  ∀ s t : State, Memory.wf s.mem = true → step s = .next t → Memory.wf t.mem = true

/-- R25: `CF` is cleared only by a poll of TBUSY or by a command's or the handler exit's write of `TVAL`: an arming
command, TDEINIT, or `TIMER_EXIT` in OneShot mode. -/
def Obligations.CountFlagClearers : Prop :=
  ∀ s t : State, step s = .next t → s.timer.tctrl.cf = true → t.timer.tctrl.cf = false →
    (∃ ms, s.actingCommand = some (.tbusy ms) ∨ s.actingCommand = some (.tsingle ms) ∨
      s.actingCommand = some (.tperiod ms)) ∨
    s.actingCommand = some .tdeinit ∨
    (s.timer.mode = .oneShot ∧
      ((s.nextEvent = .dispatch .timer ∧ s.timer.callback = none) ∨
       (s.nextEvent = .handlerReturn ∧ s.active.ctx = .handler .timer)))

/-- R28, R225: the timer's request is raised only by a tick that is an expiry with `TIE` = 1, and lowered only by its
dispatch. -/
def Obligations.TimerRequestChangers : Prop :=
  ∀ s t : State, step s = .next t →
    (s.timer.irqPending = false → t.timer.irqPending = true →
      s.nextEvent = .tick ∧ s.timer.tctrl.en = true ∧ s.timer.tval = 0 ∧ s.timer.tctrl.tie = true) ∧
    (s.timer.irqPending = true → t.timer.irqPending = false → s.nextEvent = .dispatch .timer)

/-- R181, R34: `TC` of an instance rises exactly when the last bit of a frame of that instance has been shifted out, and
falls only by a poll of a send command on it. -/
def Obligations.TransmissionCompleteChangers : Prop :=
  ∀ (s t : State) (i : Nat) (u u' : Uart), step s = .next t → s.uarts[i]? = some u → t.uarts[i]? = some u' →
    (u.usr.tc = false → (u'.usr.tc = true ↔ s.nextEvent = .txShift i ∧ ∃ b, u.tx = [b])) ∧
    (u.usr.tc = true → u'.usr.tc = false →
      s.nextEvent = .sequencer ∧
        ∃ cmd n k b, s.active.act = .inCmd cmd .spin k b ∧ Instr.sendInst cmd = some n ∧ n.toNat = i)

/-- R30, R20: a step changes no parameter and not the number of instances, and one that does not work on UART instance
`j` leaves instance `j` as it was. -/
def Obligations.InstancesAreIndependent : Prop :=
  ∀ s t : State, step s = .next t →
    t.params = s.params ∧ t.uarts.length = s.uarts.length ∧
    ∀ j : Nat, ¬ s.touchesUart j → t.uarts[j]? = s.uarts[j]?

/-- R60, R62, R70: a byte of host memory changes only by a host write to its address (one byte a step: the model's
choice, log 37) or by a receive command's store there: byte 0 in the step that issues URECVBUF or URECVSTR (the
model's reading of R240, log 17), byte `k` in a later step. -/
def Obligations.MemoryWriters : Prop :=
  ∀ (s t : State) (a : Nat), step s = .next t → Memory.read t.mem a ≠ Memory.read s.mem a →
    (∃ addr b, s.nextEvent = .hostWrite addr b ∧ addr.toNat = a) ∨
    (∃ n r size, r.toNat = a ∧
      (s.issuedCommand = some (.urecvbuf n r size) ∨ s.issuedCommand = some (.urecvstr n r))) ∨
    (∃ n r size k, (r + k).toNat = a ∧ s.nextEvent = .sequencer ∧
      ∃ cmd ∈ [Instr.urecvb n r, .urecvbuf n r size, .urecvstr n r], ∃ ph b, s.active.act = .inCmd cmd ph k b)

/-- R221, R223: a command that ends with a status other than Success has changed nothing but the delivery. -/
def Obligations.FailingStatusChangesNothing : Prop :=
  ∀ (i : Instr) (s t : State) (st : Status) (rv : Word),
    exec i s = .next t → t.active.act = .running → t.active.result = some { st := st, rv := rv } → st ≠ .success →
    t = s.deliver st 0

/-- R235, R40: a command, at issue or later, changes only its own frame: the tag of the active frame and every frame
beneath stay as they are. -/
def Obligations.CommandsLeaveOtherFramesAlone : Prop :=
  ∀ s t : State, (∀ i, exec i s = .next t → t.beneath = s.beneath ∧ t.active.ctx = s.active.ctx) ∧
    (perform .sequencer s = .next t → t.beneath = s.beneath ∧ t.active.ctx = s.active.ctx)

/-- R94, R60: frames. A timer command changes at most the timer and the active frame; a transceiver command that does
not receive changes at most its own instance and the active frame; every byte of memory reads as before. -/
def Obligations.NonReceivingCommandsFrame : Prop :=
  ∀ s t : State,
    (∀ i ∈ [Instr.telapsed, .tremain, .tdeinit], exec i s = .next t →
      t = { s with timer := t.timer, active := t.active } ∧ ∀ a, Memory.read t.mem a = Memory.read s.mem a) ∧
    (∀ (ms : Half) (fullClock : Bool) (h : Word), ∀ i ∈ [.tinit fullClock, .tsetcb h] ++ armingCommands ms,
      exec i s = .next t →
      t = { s with timer := t.timer, active := t.active } ∧ ∀ a, Memory.read t.mem a = Memory.read s.mem a) ∧
    (∀ (n b : Byte) (r size : Word),
      ∀ i ∈ [Instr.uconfig n r, .usetcb n r, .usendb n b, .usendbuf n r size, .usendstr n r], exec i s = .next t →
      t = { s with uarts := t.uarts, active := t.active } ∧ (∀ j, j ≠ n.toNat → t.uarts[j]? = s.uarts[j]?) ∧
      ∀ a, Memory.read t.mem a = Memory.read s.mem a)

/-- R24, R31, R32, R34, R26, R27: the named bits of each slot stand where the tables put them and every other bit
reads 0. R33, R60, R179: a read of the slot `UDR[i]` gives the receive cell in bits 7:0 and 0 above, and a write of it
takes bits 7:0 only. -/
def Obligations.SlotLayouts : Prop :=
  (∀ (c : Tctrl) (j : Nat), c.toWord.getLsbD j =
    if j = 0 then c.en else if j = 1 then c.tie else if j = 2 then c.clksrc else if j = 16 then c.cf else false) ∧
  (∀ (c : Ucr) (j : Nat), c.toWord.getLsbD j =
    if j = 2 then c.rxen else if j = 3 then c.txen else if j = 5 then c.rxie else if j = 9 then c.ptype
    else if j = 10 then c.pen else if j = 13 then c.uen else false) ∧
  (∀ (f : Usr) (j : Nat), f.toWord.getLsbD j = if j = 5 then f.rxne else if j = 6 then f.tc else false) ∧
  (∀ t : Timer, t.tloadSlot.toNat = t.tload.toNat ∧ t.tvalSlot.toNat = t.tval.toNat) ∧
  (∀ u : Uart, u.ubrrSlot.toNat = u.mantissa.toNat * 16 + u.fraction.toNat) ∧
  (∀ (u : Uart) (clears : Bool) (j : Nat),
    (u.readUdr clears).1.getLsbD j = if j < 8 then u.rdr.getLsbD j else false) ∧
  (∀ (u : Uart) (v : Word), u.writeUdr v = u.writeUdr (v &&& 0xFF))

/-- R62, R75: a byte written is read back and every other address reads as before, and a 4-byte read is the four bytes
at `addr` to `addr + 3` modulo 2^32, the lowest address least significant. -/
def Obligations.HostMemoryPrimitives : Prop :=
  ∀ (s : State) (addr : Word),
    (∀ (v : Byte) (s' : State), Memory.wf s.mem = true → s.writeByte addr v = .ok s' →
      s'.readByte addr = .ok v ∧ ∀ a, a ≠ addr → s'.readByte a = s.readByte a) ∧
    (∀ b0 b1 b2 b3 : Byte, s.readByte addr = .ok b0 → s.readByte (addr + 1) = .ok b1 → s.readByte (addr + 2) = .ok b2 →
      s.readByte (addr + 3) = .ok b3 → s.memRead addr 4 = .ok (b3 ++ b2 ++ b1 ++ b0 : Word).toNat)

/-- R242, R63, U17, U5: host code reads and writes backed memory and enables or disables a line; a slot of the
Register Surface is refused, whatever the active frame does. Where the platform does not back the address the access
has no step (fault `unbackedAddress`, log 12): so for the host, for UCONFIG at the first such byte of its six, for a
send command's byte and a receive command's store, of byte 0 at issue and of byte `k` in a later step. That a host
access is one byte is the model's choice (log 37); that URECVBUF and URECVSTR take their first poll, and so fault,
at issue is the model's reading of R240 (log 17). -/
def Obligations.HostAccesses : Prop :=
  (∀ (s : State) (addr : Word) (b : Byte),
    (∀ slot, perform (.hostSlot slot) s = .refused .directRegisterAccess) ∧
    (s.active.act = .running →
      (Params.backs s.params addr = true → perform (.hostRead addr) s = .next s ∧
        perform (.hostWrite addr b) s = .next { s with mem := Memory.write s.mem addr.toNat b }) ∧
      (Params.backs s.params addr = false → ∀ e ∈ [Event.hostRead addr, .hostWrite addr b],
        perform e s = .fault (.unbackedAddress addr)) ∧
      ∀ (src : Source) (on : Bool), ∃ off, perform (.setLine src on) s = .next { s with linesOff := off } ∧
        ∀ x, x ∈ off ↔ if x = src then on = false else x ∈ s.linesOff)) ∧
  ∀ (n : Byte) (r size : Word) (u : Uart) (s : State), s.uarts[n.toNat]? = some u →
    (∀ j < 6, r ≠ 0 → (∀ m < j, Params.backs s.params (r + BitVec.ofNat 32 m) = true) →
      Params.backs s.params (r + BitVec.ofNat 32 j) = false →
      exec (.uconfig n r) s = .fault (.unbackedAddress (r + BitVec.ofNat 32 j))) ∧
    (r ≠ 0 → size ≠ 0 → u.configured = true → Params.backs s.params r = false →
      (s.sendBeneath n = false → ∀ i ∈ [Instr.usendbuf n r size, .usendstr n r],
        exec i s = .fault (.unbackedAddress r)) ∧
      (u.usr.rxne = true → ∀ i ∈ [Instr.urecvbuf n r size, .urecvstr n r],
        exec i s = .fault (.unbackedAddress r))) ∧
    ∀ (k : Word) (b : Byte), Params.backs s.params (r + k) = false →
      (∀ i ∈ [Instr.usendbuf n r size, .usendstr n r], s.active.act = .inCmd i .start k b →
        perform .sequencer s = .fault (.unbackedAddress (r + k))) ∧
      (u.usr.rxne = true → ∀ i ∈ [Instr.urecvb n r, .urecvbuf n r size, .urecvstr n r], ∀ ph,
        s.active.act = .inCmd i ph k b → perform .sequencer s = .fault (.unbackedAddress (r + k)))
end

