-- ==== Sys2Proof/Laws/Encoding.lean ====
section
/-!
SUPPORT. The fields of a packed command word (30_encoding.md R91): packing and taking apart undo each other.
-/

namespace Sys2Proof

@[simp] theorem cwOpc_pack (opc inst : Byte) (imm : Half) : cwOpc (packCw opc inst imm) = opc := by
  unfold cwOpc packCw
  rw [BitVec.extractLsb'_append_eq_of_le (by omega)]
  exact BitVec.extractLsb'_append_eq_left

@[simp] theorem cwInst_pack (opc inst : Byte) (imm : Half) : cwInst (packCw opc inst imm) = inst := by
  unfold cwInst packCw
  rw [BitVec.extractLsb'_append_eq_of_le (by omega)]
  exact BitVec.extractLsb'_append_eq_right

@[simp] theorem cwImm_pack (opc inst : Byte) (imm : Half) : cwImm (packCw opc inst imm) = imm := by
  unfold cwImm packCw
  exact BitVec.extractLsb'_append_eq_right

/-- A word is its two halves. -/
theorem append_halves {w v : Nat} (x : BitVec (w + v)) : x.extractLsb' v w ++ x.extractLsb' 0 v = x := by
  ext j hj
  simp only [BitVec.getElem_append, BitVec.getElem_extractLsb']
  split
  · simp [BitVec.getLsbD_eq_getElem hj]
  · rw [← BitVec.getLsbD_eq_getElem]
    congr 1
    omega

/-- A command word is its three fields. -/
theorem pack_fields (cw : Word) : packCw (cwOpc cw) (cwInst cw) (cwImm cw) = cw := by
  unfold packCw cwOpc cwInst cwImm
  ext j hj
  simp only [BitVec.getElem_append, BitVec.getElem_extractLsb']
  split
  · simp [BitVec.getLsbD_eq_getElem hj]
  · split <;> (rw [← BitVec.getLsbD_eq_getElem]; congr 1; omega)

/-- Masking works field by field. -/
theorem pack_and (a b c d : Byte) (x y : Half) :
    packCw a b x &&& packCw c d y = packCw (a &&& c) (b &&& d) (x &&& y) := by
  unfold packCw
  rw [BitVec.and_append, BitVec.and_append]

/-- Two packed words are equal iff their fields are. -/
theorem pack_inj {a b c d : Byte} {x y : Half} : packCw a b x = packCw c d y ↔ a = c ∧ b = d ∧ x = y := by
  constructor
  · intro h
    exact ⟨by simpa using congrArg cwOpc h, by simpa using congrArg cwInst h, by simpa using congrArg cwImm h⟩
  · rintro ⟨rfl, rfl, rfl⟩
    rfl

end Sys2Proof
end

