-- ==== Sys2Proof/Laws/State.lean ====
section
/-!
SUPPORT. One lemma per field per named update of State, so that no proof unfolds a record update, and the values of
the Timer Engine's and the instance's shared updates.
-/

namespace Sys2Proof.Machine

variable (s : State)

@[simp] theorem State.withTimer_params (t : Timer) : (s.withTimer t).params = s.params := rfl
@[simp] theorem State.withTimer_timer (t : Timer) : (s.withTimer t).timer = t := rfl
@[simp] theorem State.withTimer_uarts (t : Timer) : (s.withTimer t).uarts = s.uarts := rfl
@[simp] theorem State.withTimer_active (t : Timer) : (s.withTimer t).active = s.active := rfl
@[simp] theorem State.withTimer_beneath (t : Timer) : (s.withTimer t).beneath = s.beneath := rfl
@[simp] theorem State.withTimer_mem (t : Timer) : (s.withTimer t).mem = s.mem := rfl
@[simp] theorem State.withTimer_linesOff (t : Timer) : (s.withTimer t).linesOff = s.linesOff := rfl
@[simp] theorem State.withTimer_trace (t : Timer) : (s.withTimer t).trace = s.trace := rfl
@[simp] theorem State.withTimer_inbox (t : Timer) : (s.withTimer t).inbox = s.inbox := rfl
@[simp] theorem State.withTimer_free (t : Timer) : (s.withTimer t).free = s.free := rfl

@[simp] theorem State.withUart_params (i : Nat) (u : Uart) : (s.withUart i u).params = s.params := rfl
@[simp] theorem State.withUart_timer (i : Nat) (u : Uart) : (s.withUart i u).timer = s.timer := rfl
@[simp] theorem State.withUart_uarts (i : Nat) (u : Uart) : (s.withUart i u).uarts = s.uarts.set i u := rfl
@[simp] theorem State.withUart_active (i : Nat) (u : Uart) : (s.withUart i u).active = s.active := rfl
@[simp] theorem State.withUart_beneath (i : Nat) (u : Uart) : (s.withUart i u).beneath = s.beneath := rfl
@[simp] theorem State.withUart_mem (i : Nat) (u : Uart) : (s.withUart i u).mem = s.mem := rfl
@[simp] theorem State.withUart_linesOff (i : Nat) (u : Uart) : (s.withUart i u).linesOff = s.linesOff := rfl
@[simp] theorem State.withUart_trace (i : Nat) (u : Uart) : (s.withUart i u).trace = s.trace := rfl
@[simp] theorem State.withUart_inbox (i : Nat) (u : Uart) : (s.withUart i u).inbox = s.inbox := rfl
@[simp] theorem State.withUart_free (i : Nat) (u : Uart) : (s.withUart i u).free = s.free := rfl

@[simp] theorem State.withAct_params (a : Activity) : (s.withAct a).params = s.params := rfl
@[simp] theorem State.withAct_timer (a : Activity) : (s.withAct a).timer = s.timer := rfl
@[simp] theorem State.withAct_uarts (a : Activity) : (s.withAct a).uarts = s.uarts := rfl
@[simp] theorem State.withAct_active (a : Activity) : (s.withAct a).active = { s.active with act := a } := rfl
@[simp] theorem State.withAct_beneath (a : Activity) : (s.withAct a).beneath = s.beneath := rfl
@[simp] theorem State.withAct_mem (a : Activity) : (s.withAct a).mem = s.mem := rfl
@[simp] theorem State.withAct_linesOff (a : Activity) : (s.withAct a).linesOff = s.linesOff := rfl
@[simp] theorem State.withAct_trace (a : Activity) : (s.withAct a).trace = s.trace := rfl
@[simp] theorem State.withAct_inbox (a : Activity) : (s.withAct a).inbox = s.inbox := rfl
@[simp] theorem State.withAct_free (a : Activity) : (s.withAct a).free = s.free := rfl

@[simp] theorem State.spin_params (cmd : Instr) (k : Word) (b : Byte) : (s.spin cmd k b).params = s.params := rfl
@[simp] theorem State.spin_timer (cmd : Instr) (k : Word) (b : Byte) : (s.spin cmd k b).timer = s.timer := rfl
@[simp] theorem State.spin_uarts (cmd : Instr) (k : Word) (b : Byte) : (s.spin cmd k b).uarts = s.uarts := rfl
@[simp] theorem State.spin_active (cmd : Instr) (k : Word) (b : Byte) :
    (s.spin cmd k b).active = { s.active with act := .inCmd cmd .spin k b } := rfl
@[simp] theorem State.spin_beneath (cmd : Instr) (k : Word) (b : Byte) : (s.spin cmd k b).beneath = s.beneath := rfl
@[simp] theorem State.spin_mem (cmd : Instr) (k : Word) (b : Byte) : (s.spin cmd k b).mem = s.mem := rfl
@[simp] theorem State.spin_linesOff (cmd : Instr) (k : Word) (b : Byte) :
    (s.spin cmd k b).linesOff = s.linesOff := rfl
@[simp] theorem State.spin_trace (cmd : Instr) (k : Word) (b : Byte) : (s.spin cmd k b).trace = s.trace := rfl
@[simp] theorem State.spin_inbox (cmd : Instr) (k : Word) (b : Byte) : (s.spin cmd k b).inbox = s.inbox := rfl
@[simp] theorem State.spin_free (cmd : Instr) (k : Word) (b : Byte) : (s.spin cmd k b).free = s.free := rfl

@[simp] theorem State.startByte_params (cmd : Instr) (k : Word) : (s.startByte cmd k).params = s.params := rfl
@[simp] theorem State.startByte_timer (cmd : Instr) (k : Word) : (s.startByte cmd k).timer = s.timer := rfl
@[simp] theorem State.startByte_uarts (cmd : Instr) (k : Word) : (s.startByte cmd k).uarts = s.uarts := rfl
@[simp] theorem State.startByte_active (cmd : Instr) (k : Word) :
    (s.startByte cmd k).active = { s.active with act := .inCmd cmd .start k 0 } := rfl
@[simp] theorem State.startByte_beneath (cmd : Instr) (k : Word) : (s.startByte cmd k).beneath = s.beneath := rfl
@[simp] theorem State.startByte_mem (cmd : Instr) (k : Word) : (s.startByte cmd k).mem = s.mem := rfl
@[simp] theorem State.startByte_linesOff (cmd : Instr) (k : Word) : (s.startByte cmd k).linesOff = s.linesOff := rfl
@[simp] theorem State.startByte_trace (cmd : Instr) (k : Word) : (s.startByte cmd k).trace = s.trace := rfl
@[simp] theorem State.startByte_inbox (cmd : Instr) (k : Word) : (s.startByte cmd k).inbox = s.inbox := rfl
@[simp] theorem State.startByte_free (cmd : Instr) (k : Word) : (s.startByte cmd k).free = s.free := rfl

@[simp] theorem State.deliver_params (st : Status) (rv : Word) : (s.deliver st rv).params = s.params := rfl
@[simp] theorem State.deliver_timer (st : Status) (rv : Word) : (s.deliver st rv).timer = s.timer := rfl
@[simp] theorem State.deliver_uarts (st : Status) (rv : Word) : (s.deliver st rv).uarts = s.uarts := rfl
@[simp] theorem State.deliver_active (st : Status) (rv : Word) :
    (s.deliver st rv).active = { s.active with act := .running, result := some { st := st, rv := rv } } := rfl
@[simp] theorem State.deliver_beneath (st : Status) (rv : Word) : (s.deliver st rv).beneath = s.beneath := rfl
@[simp] theorem State.deliver_mem (st : Status) (rv : Word) : (s.deliver st rv).mem = s.mem := rfl
@[simp] theorem State.deliver_linesOff (st : Status) (rv : Word) : (s.deliver st rv).linesOff = s.linesOff := rfl
@[simp] theorem State.deliver_trace (st : Status) (rv : Word) : (s.deliver st rv).trace = s.trace := rfl
@[simp] theorem State.deliver_inbox (st : Status) (rv : Word) : (s.deliver st rv).inbox = s.inbox := rfl
@[simp] theorem State.deliver_free (st : Status) (rv : Word) : (s.deliver st rv).free = s.free := rfl

@[simp] theorem State.emit_params (e : Emission) : (s.emit e).params = s.params := rfl
@[simp] theorem State.emit_timer (e : Emission) : (s.emit e).timer = s.timer := rfl
@[simp] theorem State.emit_uarts (e : Emission) : (s.emit e).uarts = s.uarts := rfl
@[simp] theorem State.emit_active (e : Emission) : (s.emit e).active = s.active := rfl
@[simp] theorem State.emit_beneath (e : Emission) : (s.emit e).beneath = s.beneath := rfl
@[simp] theorem State.emit_mem (e : Emission) : (s.emit e).mem = s.mem := rfl
@[simp] theorem State.emit_linesOff (e : Emission) : (s.emit e).linesOff = s.linesOff := rfl
@[simp] theorem State.emit_trace (e : Emission) : (s.emit e).trace = e :: s.trace := rfl
@[simp] theorem State.emit_inbox (e : Emission) : (s.emit e).inbox = s.inbox := rfl
@[simp] theorem State.emit_free (e : Emission) : (s.emit e).free = s.free := rfl

@[simp] theorem State.deinitTimer_params : s.deinitTimer.params = s.params := rfl
@[simp] theorem State.deinitTimer_timer : s.deinitTimer.timer = s.timer.deinit := rfl
@[simp] theorem State.deinitTimer_uarts : s.deinitTimer.uarts = s.uarts := rfl
@[simp] theorem State.deinitTimer_active : s.deinitTimer.active = s.active := rfl
@[simp] theorem State.deinitTimer_beneath : s.deinitTimer.beneath = s.beneath := rfl
@[simp] theorem State.deinitTimer_mem : s.deinitTimer.mem = s.mem := rfl
@[simp] theorem State.deinitTimer_linesOff : s.deinitTimer.linesOff = s.linesOff := rfl
@[simp] theorem State.deinitTimer_trace : s.deinitTimer.trace = s.trace := rfl
@[simp] theorem State.deinitTimer_inbox : s.deinitTimer.inbox = s.inbox := rfl
@[simp] theorem State.deinitTimer_free : s.deinitTimer.free = s.free := rfl

@[simp] theorem State.enterHandler_params (src : Source) (h : Word) (arg : Option Byte) :
    (s.enterHandler src h arg).params = s.params := rfl
@[simp] theorem State.enterHandler_timer (src : Source) (h : Word) (arg : Option Byte) :
    (s.enterHandler src h arg).timer = s.timer := rfl
@[simp] theorem State.enterHandler_uarts (src : Source) (h : Word) (arg : Option Byte) :
    (s.enterHandler src h arg).uarts = s.uarts := rfl
@[simp] theorem State.enterHandler_active (src : Source) (h : Word) (arg : Option Byte) :
    (s.enterHandler src h arg).active = { ctx := .handler src, act := .running, result := none } := rfl
@[simp] theorem State.enterHandler_beneath (src : Source) (h : Word) (arg : Option Byte) :
    (s.enterHandler src h arg).beneath = s.active :: s.beneath := rfl
@[simp] theorem State.enterHandler_mem (src : Source) (h : Word) (arg : Option Byte) :
    (s.enterHandler src h arg).mem = s.mem := rfl
@[simp] theorem State.enterHandler_linesOff (src : Source) (h : Word) (arg : Option Byte) :
    (s.enterHandler src h arg).linesOff = s.linesOff := rfl
@[simp] theorem State.enterHandler_trace (src : Source) (h : Word) (arg : Option Byte) :
    (s.enterHandler src h arg).trace = .invoke h arg :: s.trace := rfl
@[simp] theorem State.enterHandler_inbox (src : Source) (h : Word) (arg : Option Byte) :
    (s.enterHandler src h arg).inbox = s.inbox := rfl
@[simp] theorem State.enterHandler_free (src : Source) (h : Word) (arg : Option Byte) :
    (s.enterHandler src h arg).free = s.free := rfl

/-- The deinit actions, field by field (R129). -/
theorem Timer.deinit_eq (t : Timer) :
    t.deinit = { t with
      mode := .idle, tload := 0, tval := 0
      tctrl := { t.tctrl with en := false, tie := false, cf := false } } := rfl

/-- The deinit actions are idempotent (R129). -/
theorem Timer.deinit_deinit (t : Timer) : t.deinit.deinit = t.deinit := rfl

/-- Arming, field by field (R122). -/
theorem Timer.arm_eq (n : Nat) (mode : TimerMode) (t : Timer) :
    t.arm n mode = { t with
      mode := mode, tload := BitVec.ofNat 24 (n - 1), tval := BitVec.ofNat 24 (n - 1)
      tctrl := { t.tctrl with en := true, cf := false } } := rfl

/-- Arming with the tick interrupt, field by field (R123, R124). -/
theorem Timer.armWithIrq_eq (n : Nat) (mode : TimerMode) (t : Timer) :
    t.armWithIrq n mode = { t with
      mode := mode, tload := BitVec.ofNat 24 (n - 1), tval := BitVec.ofNat 24 (n - 1)
      tctrl := { t.tctrl with en := true, tie := true, cf := false } } := rfl

/-- The exit action of the timer handler (R229). -/
theorem State.timerExit_eq :
    s.timerExit = s.withTimer (if s.timer.mode = .oneShot then s.timer.deinit else s.timer) := by
  unfold State.timerExit
  split <;> rfl

/-- A state is its own update by the timer it has. -/
@[simp] theorem State.withTimer_self : s.withTimer s.timer = s := rfl

/-- Reading an instance after writing one. -/
theorem State.getElem?_withUart (i j : Nat) (u : Uart) :
    (s.withUart i u).uarts[j]? = if i = j then (if j < s.uarts.length then some u else none) else s.uarts[j]? := by
  by_cases h : i = j
  · subst h; simp [List.getElem?_set]
  · simp [h]

/-- The instance just written is the one read. -/
theorem State.getElem?_withUart_self (i : Nat) (u u0 : Uart) (h : s.uarts[i]? = some u0) :
    (s.withUart i u).uarts[i]? = some u := by
  obtain ⟨hlt, -⟩ := List.getElem?_eq_some_iff.mp h
  simp [hlt]

/-- Every other instance is as it was (R30). -/
theorem State.getElem?_withUart_ne (i j : Nat) (u : Uart) (h : i ≠ j) :
    (s.withUart i u).uarts[j]? = s.uarts[j]? := by
  simp [h]

end Sys2Proof.Machine
end

