-- ==== Sys2Proof/Laws/Memory.lean ====
section
/-!
SUPPORT. The laws of host memory (20_memory.md R62): a byte written is read back, every other byte reads as
before, and a write keeps the canonical form.
-/

namespace Sys2Proof.Machine

@[simp] theorem Memory.read_nil (addr : Nat) : Memory.read [] addr = unlistedByte := rfl

theorem Memory.read_cons (a : Nat) (b : Byte) (m : Memory) (addr : Nat) :
    Memory.read ((a, b) :: m) addr = if a = addr then b else Memory.read m addr := rfl

theorem Memory.wfFrom_cons (lo a : Nat) (b : Byte) (m : Memory) :
    Memory.wfFrom lo ((a, b) :: m) = true ↔
      lo ≤ a ∧ a < 4294967296 ∧ b ≠ unlistedByte ∧ Memory.wfFrom (a + 1) m = true := by
  simp [Memory.wfFrom, and_assoc]

/-- A lower bound may be lowered. -/
theorem Memory.wfFrom_mono {lo lo' : Nat} (h : lo' ≤ lo) :
    ∀ {m : Memory}, Memory.wfFrom lo m = true → Memory.wfFrom lo' m = true
  | [], _ => rfl
  | (a, b) :: m, hm => by
    rw [Memory.wfFrom_cons] at hm ⊢
    exact ⟨h.trans hm.1, hm.2⟩

/-- Nothing below the bound is listed. -/
theorem Memory.read_of_lt : ∀ {m : Memory} {lo addr : Nat}, Memory.wfFrom lo m = true → addr < lo →
    Memory.read m addr = unlistedByte
  | [], _, _, _, _ => rfl
  | (a, b) :: m, lo, addr, hm, h => by
    rw [Memory.wfFrom_cons] at hm
    rw [Memory.read_cons, if_neg (by omega)]
    exact Memory.read_of_lt hm.2.2.2 (by omega)

/-- A write keeps the canonical form above any bound not above its address. -/
theorem Memory.wfFrom_write {addr : Nat} {v : Byte} (ha : addr < 4294967296) :
    ∀ {m : Memory} {lo : Nat}, Memory.wfFrom lo m = true → lo ≤ addr → Memory.wfFrom lo (Memory.write m addr v) = true
  | [], lo, _, hlo => by
    unfold Memory.write
    split
    · rfl
    · rename_i hv; rw [Memory.wfFrom_cons]; exact ⟨hlo, ha, hv, rfl⟩
  | (a, b) :: m, lo, hm, hlo => by
    have hm' := (Memory.wfFrom_cons lo a b m).mp hm
    unfold Memory.write
    split
    · split
      · exact hm
      · rename_i hlt hv
        rw [Memory.wfFrom_cons]
        exact ⟨hlo, ha, hv, (Memory.wfFrom_cons _ a b m).mpr ⟨hlt, hm'.2⟩⟩
    · split
      · rename_i hne heq
        split
        · exact Memory.wfFrom_mono (by omega) hm'.2.2.2
        · rename_i hv
          rw [Memory.wfFrom_cons]
          exact ⟨hlo, ha, hv, heq ▸ hm'.2.2.2⟩
      · rename_i hnlt hne
        rw [Memory.wfFrom_cons]
        exact ⟨hm'.1, hm'.2.1, hm'.2.2.1, Memory.wfFrom_write ha hm'.2.2.2 (by omega)⟩

/-- A write keeps the canonical form. -/
theorem Memory.wf_write {m : Memory} {addr : Nat} {v : Byte} (ha : addr < 4294967296) (hm : Memory.wf m = true) :
    Memory.wf (Memory.write m addr v) = true :=
  Memory.wfFrom_write ha hm (Nat.zero_le _)

/-- Every other byte reads as before, in any memory. -/
theorem Memory.read_write_ne {addr x : Nat} {v : Byte} (h : x ≠ addr) :
    ∀ m : Memory, Memory.read (Memory.write m addr v) x = Memory.read m x
  | [] => by
    unfold Memory.write
    split
    · rfl
    · rw [Memory.read_cons, if_neg (Ne.symm h)]
  | (a, b) :: m => by
    unfold Memory.write
    split
    · split
      · rfl
      · rw [Memory.read_cons, if_neg (Ne.symm h)]
    · split
      · rename_i _ heq
        subst heq
        split
        · rw [Memory.read_cons, if_neg (Ne.symm h)]
        · simp only [Memory.read_cons, if_neg (Ne.symm h)]
      · simp only [Memory.read_cons, Memory.read_write_ne h m]

/-- The byte written is read back, in any memory in canonical form above a bound. -/
theorem Memory.read_write_self_from {addr : Nat} {v : Byte} :
    ∀ {m : Memory} {lo : Nat}, Memory.wfFrom lo m = true → Memory.read (Memory.write m addr v) addr = v
  | [], _, _ => by
    unfold Memory.write
    split
    · rename_i hv; exact hv.symm
    · rw [Memory.read_cons, if_pos rfl]
  | (a, b) :: m, lo, hm => by
    rw [Memory.wfFrom_cons] at hm
    unfold Memory.write
    split
    · split
      · rename_i hlt hv
        rw [Memory.read_cons, if_neg (by omega), Memory.read_of_lt hm.2.2.2 (by omega), hv]
      · rw [Memory.read_cons, if_pos rfl]
    · split
      · rename_i _ heq
        split
        · rename_i hv
          rw [Memory.read_of_lt hm.2.2.2 (by omega), hv]
        · rw [Memory.read_cons, if_pos rfl]
      · rename_i _ hne
        rw [Memory.read_cons, if_neg (by omega)]
        exact Memory.read_write_self_from hm.2.2.2

/-- The byte written is read back. -/
theorem Memory.read_write_self {m : Memory} {addr : Nat} {v : Byte} (hm : Memory.wf m = true) :
    Memory.read (Memory.write m addr v) addr = v :=
  Memory.read_write_self_from hm

end Sys2Proof.Machine
end

