-- ==== Sys2Proof/Laws/Ops.lean ====
section
/-!
SUPPORT. One lemma per shared operation that says once what it can do: if a check, a send step, a poll or an agent's
step answers a next state, then one of the listed cases holds.
-/

namespace Sys2Proof.Machine

/-- A command ends in exactly one way. -/
@[simp] theorem finish_eq_next {st : Status} {s t : State} : finish st s = .next t ↔ t = s.deliver st 0 := by
  unfold finish
  exact ⟨fun h => by cases h; rfl, fun h => by rw [h]⟩

@[simp] theorem illegalCommand_eq_next {s t : State} : illegalCommand s = .next t ↔ t = s.deliver .illegalCommand 0 :=
  finish_eq_next

@[simp] theorem next_inj {s t : State} : (Host.Outcome.next s : Answer) = .next t ↔ t = s :=
  ⟨fun h => by cases h; rfl, fun h => by rw [h]⟩

@[simp] theorem refused_ne_next {r : Refusal} {t : State} : ((.refused r : Answer) = .next t) = False :=
  eq_false (fun h => by cases h)

@[simp] theorem fault_ne_next {f : Fault} {t : State} : ((.fault f : Answer) = .next t) = False :=
  eq_false (fun h => by cases h)

/-! Checks. -/

theorem guardRearm_eq_next {s t : State} {go : Answer} :
    guardRearm s go = .next t ↔ s.busyWaitBeneath = false ∧ go = .next t := by
  unfold guardRearm
  split <;> simp_all

theorem guardNestedSend_eq_next {n : Byte} {s t : State} {go : Answer} :
    guardNestedSend n s go = .next t ↔ s.sendBeneath n = false ∧ go = .next t := by
  unfold guardNestedSend
  split <;> simp_all

theorem needConfigured_eq_next {u : Uart} {t : State} {go : Answer} :
    needConfigured u go = .next t ↔ u.configured = true ∧ go = .next t := by
  unfold needConfigured
  split <;> simp_all

/-- The null check passes or ends the command. -/
theorem nullCheck_eq_next {r : Word} {s t : State} {go : Answer} :
    nullCheck r s go = .next t ↔ (r = 0 ∧ t = s.deliver .nullPointerError 0) ∨ (r ≠ 0 ∧ go = .next t) := by
  unfold nullCheck
  split <;> simp_all

/-- The instance check passes or ends the command. -/
theorem instCheck_eq_next {n : Byte} {s t : State} {go : Uart → Answer} :
    instCheck n s go = .next t ↔
      (s.uarts[n.toNat]? = none ∧ t = s.deliver .indexError 0) ∨ (∃ u, s.uarts[n.toNat]? = some u ∧ go u = .next t) := by
  unfold instCheck
  split <;> rename_i h <;> simp [h]

/-- The arming check ends the command or yields `N` ticks (R120). -/
theorem armCheck_eq_next {ms : Half} {s t : State} {go : Nat → Answer} :
    armCheck ms s go = .next t ↔
      (s.timer.mode ≠ .idle ∧ t = s.deliver .busyError 0) ∨
      (s.timer.mode = .idle ∧ ∃ f, s.timer.tickFrequency = some f ∧
        ((intervalTooLong ms f = true ∧ t = s.deliver .overflowError 0) ∨
         (intervalTooLong ms f = false ∧ go (tickCount ms f) = .next t))) := by
  unfold armCheck
  split
  · rename_i h; simp [h]
  · rename_i h
    have h' : s.timer.mode = .idle := by simpa using h
    split
    · rename_i hf; simp [h', hf]
    · rename_i f hf
      split <;> rename_i ho <;> simp [h', hf, ho]

/-- An accepted interval fits the counter (R132). -/
theorem tickCount_le {ms : Half} {f : Nat} (h : intervalTooLong ms f = false) : tickCount ms f ≤ Config.maxTicks := by
  have h' : ¬ Config.maxTicks * 1000 < ms.toNat * f := of_decide_eq_false h
  unfold tickCount
  generalize Config.maxTicks = m at h' ⊢
  exact Nat.div_le_of_le_mul (by rw [Nat.mul_comm 1000]; exact Nat.not_lt.mp h')

/-! Memory. -/

theorem readByte_eq_ok {s : State} {a : Word} {b : Byte} :
    s.readByte a = .ok b ↔ Params.backs s.params a = true ∧ b = Memory.read s.mem a.toNat := by
  unfold State.readByte
  split <;> rename_i h <;> simp [h, eq_comm]

theorem writeByte_eq_ok {s s' : State} {a : Word} {v : Byte} :
    s.writeByte a v = .ok s' ↔
      Params.backs s.params a = true ∧ s' = { s with mem := Memory.write s.mem a.toNat v } := by
  unfold State.writeByte
  split <;> rename_i h <;> simp [h, eq_comm]

/-! Sending and receiving. -/

/-- A byte put into the slot `UDR[i]` is the byte taken from it. -/
@[simp] theorem byteOfUdr_udrOfByte (b : Byte) : byteOfUdr (udrOfByte b) = b := by
  unfold byteOfUdr udrOfByte
  ext j hj
  simp [BitVec.getLsbD_eq_getElem, hj]
  omega

/-- A data-slot write that is not refused (R179). -/
theorem writeUdr_eq_ok {v : Word} {u u' : Uart} :
    u.writeUdr v = .ok u' ↔
      ((u.ucr.uen && u.ucr.txen) = true ∧ u.tx = [] ∧
        u' = { u with tdr := byteOfUdr v, tx := serialFrame (byteOfUdr v) u.ucr.pen u.ucr.ptype }) ∨
      ((u.ucr.uen && u.ucr.txen) = false ∧ u' = { u with tdr := byteOfUdr v }) := by
  unfold Uart.writeUdr
  split
  · rename_i h
    split <;> rename_i ht <;> simp [h, ht, eq_comm]
  · rename_i h
    simp [h, eq_comm]

/-- A data-slot write of a byte (R179). -/
theorem writeUdr_byte_eq_ok {b : Byte} {u u' : Uart} :
    u.writeUdr (udrOfByte b) = .ok u' ↔
      ((u.ucr.uen && u.ucr.txen) = true ∧ u.tx = [] ∧
        u' = { u with tdr := b, tx := serialFrame b u.ucr.pen u.ucr.ptype }) ∨
      ((u.ucr.uen && u.ucr.txen) = false ∧ u' = { u with tdr := b }) := by
  rw [writeUdr_eq_ok, byteOfUdr_udrOfByte]

theorem sendByte_eq_next {cmd : Instr} {n : Byte} {u : Uart} {k : Word} {b : Byte} {s t : State} :
    sendByte cmd n u k b s = .next t ↔
      ∃ u', u.writeUdr (udrOfByte b) = .ok u' ∧ t = (s.withUart n.toNat u').spin cmd k b := by
  unfold sendByte
  split <;> rename_i h <;> simp [h, eq_comm]

theorem sendFrom_eq_next {cmd : Instr} {n : Byte} {u : Uart} {base k : Word} {s t : State} :
    sendFrom cmd n u base k s = .next t ↔
      ∃ b, s.readByte (byteAddr base k) = .ok b ∧ sendByte cmd n u k b s = .next t := by
  unfold sendFrom
  split <;> rename_i h <;> simp [h]

theorem sendPoll_eq_next {cmd : Instr} {n : Byte} {u : Uart} {k : Word} {last : Bool} {s t : State} :
    sendPoll cmd n u k last s = .next t ↔
      (u.usr.tc = false ∧ t = s) ∨
      (u.usr.tc = true ∧ last = true ∧ t = (s.withUart n.toNat u.clearTc).deliver .success 0) ∨
      (u.usr.tc = true ∧ last = false ∧ t = (s.withUart n.toNat u.clearTc).startByte cmd (k + 1)) := by
  unfold sendPoll
  split <;> rename_i h
  · cases last
    · rw [if_neg (by decide), next_inj]; simp [h]
    · rw [if_pos rfl, finish_eq_next]; simp [h]
  · rw [next_inj]; simp [h]

/-- The byte that `read(UDR[i])` gives is the receive cell's. -/
@[simp] theorem readUdr_byte (c : Bool) (u : Uart) : byteOfUdr (u.readUdr c).1 = u.rdr := byteOfUdr_udrOfByte _

theorem recvAfter_eq_next {cmd : Instr} {k : Word} {last : Bool} {s t : State} :
    recvAfter cmd k last s = .next t ↔
      (last = true ∧ t = s.deliver .success 0) ∨ (last = false ∧ t = s.spin cmd (k + 1) 0) := by
  unfold recvAfter
  cases last
  · rw [if_neg (by decide), next_inj]; simp
  · rw [if_pos rfl, finish_eq_next]; simp

theorem recvPoll_eq_next {cmd : Instr} {n : Byte} {u : Uart} {base k : Word} {last : Byte → Bool} {s t : State} :
    recvPoll cmd n u base k last s = .next t ↔
      (u.usr.rxne = false ∧ t = s.spin cmd k 0) ∨
      (u.usr.rxne = true ∧ ∃ s1, s.writeByte (byteAddr base k) u.rdr = .ok s1 ∧
        recvAfter cmd k (last u.rdr) (s1.withUart n.toNat (u.readUdr s.params.rxneClearedByRead).2) = .next t) := by
  unfold recvPoll
  split <;> rename_i h
  · simp only [readUdr_byte]
    split <;> rename_i hw <;> simp [h, hw]
  · rw [next_inj]; simp [h]

/-! Agents. -/

/-- Bit 16 of the `TCTRL` slot is `CF` (R24). -/
theorem Tctrl.toWord_bit16 (c : Tctrl) : c.toWord.getLsbD 16 = c.cf := by
  rcases c with ⟨a, b, c, d⟩
  cases a <;> cases b <;> cases c <;> cases d <;> decide

/-- The sequencer's poll of TBUSY (R135). -/
theorem busyPoll_eq_next {s t : State} :
    busyPoll s = .next t ↔
      (s.timer.tctrl.cf = true ∧ t = ((s.withTimer s.timer.readTctrl.2).deinitTimer).deliver .success 0) ∨
      (s.timer.tctrl.cf = false ∧ t = s) := by
  have h1 : s.timer.readTctrl.1.getLsbD 16 = s.timer.tctrl.cf := Tctrl.toWord_bit16 _
  unfold busyPoll
  simp only [h1]
  split <;> rename_i h
  · simp [h]
  · have h' : s.timer.tctrl.cf = false := by simpa using h
    have h2 : s.timer.readTctrl.2 = s.timer := by
      unfold Timer.readTctrl
      simp only [← h']
    rw [h2, h', State.withTimer_self, next_inj]
    simp

theorem whenRunning_eq_next {s t : State} {go : Answer} :
    whenRunning s go = .next t ↔
      (s.active.act.isRunning = true ∧ go = .next t) ∨ (s.active.act.isRunning = false ∧ t = s) := by
  unfold whenRunning
  split <;> rename_i h <;> simp [h, eq_comm]

/-- A step is taken only under legal parameters, and is the step of the agent the event names. -/
theorem step_eq_next {s t : State} :
    step s = .next t ↔ s.paramsOk = true ∧ perform s.nextEvent s.takeEvent = .next t := by
  unfold step
  split <;> rename_i h <;> simp [h]

/-- Taking the event changes only the inbox and the free-value counter. -/
theorem takeEvent_eq (s : State) :
    s.takeEvent = { s with inbox := s.takeEvent.inbox, free := s.takeEvent.free } := by
  unfold State.takeEvent
  split <;> rfl

@[simp] theorem takeEvent_params (s : State) : s.takeEvent.params = s.params := by rw [takeEvent_eq]
@[simp] theorem takeEvent_timer (s : State) : s.takeEvent.timer = s.timer := by rw [takeEvent_eq]
@[simp] theorem takeEvent_uarts (s : State) : s.takeEvent.uarts = s.uarts := by rw [takeEvent_eq]
@[simp] theorem takeEvent_active (s : State) : s.takeEvent.active = s.active := by rw [takeEvent_eq]
@[simp] theorem takeEvent_beneath (s : State) : s.takeEvent.beneath = s.beneath := by rw [takeEvent_eq]
@[simp] theorem takeEvent_mem (s : State) : s.takeEvent.mem = s.mem := by rw [takeEvent_eq]
@[simp] theorem takeEvent_linesOff (s : State) : s.takeEvent.linesOff = s.linesOff := by rw [takeEvent_eq]
@[simp] theorem takeEvent_trace (s : State) : s.takeEvent.trace = s.trace := by rw [takeEvent_eq]

end Sys2Proof.Machine
end

