-- ==== Sys2Proof/Laws/Exec.lean ====
section
/-!
SUPPORT. One inversion lemma per command: the next states its meaning answers, case by case, over the shared
operations. The last section says the same of the sequencer's later steps.
-/

namespace Sys2Proof.Machine

theorem exec_tinit_eq_next {c : Bool} {s t : State} :
    exec (.tinit c) s = .next t ↔
      t = (s.withTimer { s.timer with
        tctrl := { s.timer.tctrl with clksrc := c }
        tickFrequency := some (selectedFrequency s.params c) }).deliver .success 0 := finish_eq_next

theorem exec_tbusy_eq_next {ms : Half} {s t : State} :
    exec (.tbusy ms) s = .next t ↔ s.busyWaitBeneath = false ∧
      ((s.timer.mode ≠ .idle ∧ t = s.deliver .busyError 0) ∨
       (s.timer.mode = .idle ∧ ∃ f, s.timer.tickFrequency = some f ∧
        ((intervalTooLong ms f = true ∧ t = s.deliver .overflowError 0) ∨
         (intervalTooLong ms f = false ∧
          ((tickCount ms f = 0 ∧ t = s.deinitTimer.deliver .success 0) ∨
           (tickCount ms f ≠ 0 ∧
            t = (s.withTimer (s.timer.arm (tickCount ms f) .busyWait)).spin (.tbusy ms) 0 0)))))) := by
  simp only [exec, execTbusy, guardRearm_eq_next, armCheck_eq_next]
  refine and_congr_right fun _ => or_congr_right (and_congr_right fun _ => exists_congr fun f =>
    and_congr_right fun _ => or_congr_right (and_congr_right fun _ => ?_))
  split <;> rename_i h
  · rw [finish_eq_next]; simp [h]
  · rw [next_inj]; simp [h]

/-- TSINGLE and TPERIOD differ only in the mode (R123, R124). -/
theorem armIrq_eq_next {ms : Half} {mode : TimerMode} {s t : State} :
    (guardRearm s <| armCheck ms s fun n =>
      if n = 0 then .refused .zeroTickInterval
      else finish .success (s.withTimer (s.timer.armWithIrq n mode))) = .next t ↔ s.busyWaitBeneath = false ∧
      ((s.timer.mode ≠ .idle ∧ t = s.deliver .busyError 0) ∨
       (s.timer.mode = .idle ∧ ∃ f, s.timer.tickFrequency = some f ∧
        ((intervalTooLong ms f = true ∧ t = s.deliver .overflowError 0) ∨
         (intervalTooLong ms f = false ∧ tickCount ms f ≠ 0 ∧
            t = (s.withTimer (s.timer.armWithIrq (tickCount ms f) mode)).deliver .success 0)))) := by
  simp only [guardRearm_eq_next, armCheck_eq_next]
  refine and_congr_right fun _ => or_congr_right (and_congr_right fun _ => exists_congr fun f =>
    and_congr_right fun _ => or_congr_right (and_congr_right fun _ => ?_))
  split <;> rename_i h <;> simp [h]

theorem exec_tsingle_eq_next {ms : Half} {s t : State} :
    exec (.tsingle ms) s = .next t ↔ s.busyWaitBeneath = false ∧
      ((s.timer.mode ≠ .idle ∧ t = s.deliver .busyError 0) ∨
       (s.timer.mode = .idle ∧ ∃ f, s.timer.tickFrequency = some f ∧
        ((intervalTooLong ms f = true ∧ t = s.deliver .overflowError 0) ∨
         (intervalTooLong ms f = false ∧ tickCount ms f ≠ 0 ∧
            t = (s.withTimer (s.timer.armWithIrq (tickCount ms f) .oneShot)).deliver .success 0)))) :=
  armIrq_eq_next

theorem exec_tperiod_eq_next {ms : Half} {s t : State} :
    exec (.tperiod ms) s = .next t ↔ s.busyWaitBeneath = false ∧
      ((s.timer.mode ≠ .idle ∧ t = s.deliver .busyError 0) ∨
       (s.timer.mode = .idle ∧ ∃ f, s.timer.tickFrequency = some f ∧
        ((intervalTooLong ms f = true ∧ t = s.deliver .overflowError 0) ∨
         (intervalTooLong ms f = false ∧ tickCount ms f ≠ 0 ∧
            t = (s.withTimer (s.timer.armWithIrq (tickCount ms f) .periodic)).deliver .success 0)))) :=
  armIrq_eq_next

theorem exec_tsetcb_eq_next {h : Word} {s t : State} :
    exec (.tsetcb h) s = .next t ↔
      (h = 0 ∧ t = s.deliver .nullPointerError 0) ∨
      (h ≠ 0 ∧ t = (s.withTimer { s.timer with callback := some h }).deliver .success 0) := by
  simp only [exec, execTsetcb, nullCheck_eq_next, finish_eq_next]

theorem exec_telapsed_eq_next {s t : State} :
    exec .telapsed s = .next t ↔ t = s.deliver .success ((s.timer.tload - s.timer.tval).setWidth 32) := next_inj

theorem exec_tremain_eq_next {s t : State} :
    exec .tremain s = .next t ↔ t = s.deliver .success (s.timer.tval.setWidth 32) := next_inj

theorem exec_tdeinit_eq_next {s t : State} :
    exec .tdeinit s = .next t ↔ t = s.deinitTimer.deliver .success 0 := finish_eq_next

/-- The range checks never answer Success (R171). -/
theorem firstError_ne_success {r : ConfigRecord} {st : Status} (h : r.firstError = some st) : st ≠ .success := by
  unfold ConfigRecord.firstError at h
  (repeat' split at h) <;> cases h <;> decide

theorem exec_uconfig_eq_next {n : Byte} {p : Word} {s t : State} :
    exec (.uconfig n p) s = .next t ↔
      (s.uarts[n.toNat]? = none ∧ t = s.deliver .indexError 0) ∨
      (∃ u, s.uarts[n.toNat]? = some u ∧
        ((p = 0 ∧ t = s.deliver .nullPointerError 0) ∨
         (p ≠ 0 ∧ ∃ r, s.readRecord p = .ok r ∧
          ((∃ st, r.firstError = some st ∧ t = s.deliver st 0) ∨
           (r.firstError = none ∧ t = (s.withUart n.toNat (u.configure s.params r)).deliver .success 0))))) := by
  simp only [exec, execUconfig, instCheck_eq_next, nullCheck_eq_next]
  refine or_congr_right (exists_congr fun u => and_congr_right fun _ => or_congr_right (and_congr_right fun _ => ?_))
  split <;> rename_i h
  · simp [h]
  · split <;> rename_i he <;> simp [h, he]

theorem exec_usendb_eq_next {n b : Byte} {s t : State} :
    exec (.usendb n b) s = .next t ↔
      (s.uarts[n.toNat]? = none ∧ t = s.deliver .indexError 0) ∨
      (∃ u, s.uarts[n.toNat]? = some u ∧ s.sendBeneath n = false ∧ u.configured = true ∧
        ∃ u', u.writeUdr (udrOfByte b) = .ok u' ∧ t = (s.withUart n.toNat u').spin (.usendb n b) 0 b) := by
  simp only [exec, execUsendb, instCheck_eq_next, guardNestedSend_eq_next, needConfigured_eq_next, sendByte_eq_next]

theorem exec_urecvb_eq_next {n : Byte} {p : Word} {s t : State} :
    exec (.urecvb n p) s = .next t ↔
      (s.uarts[n.toNat]? = none ∧ t = s.deliver .indexError 0) ∨
      (∃ u, s.uarts[n.toNat]? = some u ∧
        ((p = 0 ∧ t = s.deliver .nullPointerError 0) ∨
         (p ≠ 0 ∧ u.configured = true ∧ t = s.spin (.urecvb n p) 0 0))) := by
  simp only [exec, execUrecvb, instCheck_eq_next, nullCheck_eq_next, needConfigured_eq_next, next_inj]

theorem exec_usendbuf_eq_next {n : Byte} {p size : Word} {s t : State} :
    exec (.usendbuf n p size) s = .next t ↔
      (s.uarts[n.toNat]? = none ∧ t = s.deliver .indexError 0) ∨
      (∃ u, s.uarts[n.toNat]? = some u ∧ s.sendBeneath n = false ∧
        ((p = 0 ∧ t = s.deliver .nullPointerError 0) ∨
         (p ≠ 0 ∧ u.configured = true ∧
          ((size = 0 ∧ t = s.deliver .success 0) ∨
           (size ≠ 0 ∧ sendFrom (.usendbuf n p size) n u p 0 s = .next t))))) := by
  simp only [exec, execUsendbuf, instCheck_eq_next, guardNestedSend_eq_next, nullCheck_eq_next, needConfigured_eq_next]
  refine or_congr_right (exists_congr fun u => and_congr_right fun _ => and_congr_right fun _ => or_congr_right
    (and_congr_right fun _ => and_congr_right fun _ => ?_))
  by_cases h : size = 0
  · simp [h]
  · rw [if_neg h]
    exact ⟨fun hg => .inr ⟨h, hg⟩, fun hg => hg.elim (fun h0 => absurd h0.1 h) fun h1 => h1.2⟩

theorem exec_urecvbuf_eq_next {n : Byte} {p size : Word} {s t : State} :
    exec (.urecvbuf n p size) s = .next t ↔
      (s.uarts[n.toNat]? = none ∧ t = s.deliver .indexError 0) ∨
      (∃ u, s.uarts[n.toNat]? = some u ∧
        ((p = 0 ∧ t = s.deliver .nullPointerError 0) ∨
         (p ≠ 0 ∧ u.configured = true ∧
          ((size = 0 ∧ t = s.deliver .success 0) ∨
           (size ≠ 0 ∧ recvPoll (.urecvbuf n p size) n u p 0 (fun _ => lastOfSize 0 size) s = .next t))))) := by
  simp only [exec, execUrecvbuf, instCheck_eq_next, nullCheck_eq_next, needConfigured_eq_next]
  refine or_congr_right (exists_congr fun u => and_congr_right fun _ => or_congr_right
    (and_congr_right fun _ => and_congr_right fun _ => ?_))
  by_cases h : size = 0
  · simp [h]
  · rw [if_neg h]
    exact ⟨fun hg => .inr ⟨h, hg⟩, fun hg => hg.elim (fun h0 => absurd h0.1 h) fun h1 => h1.2⟩

theorem exec_usendstr_eq_next {n : Byte} {p : Word} {s t : State} :
    exec (.usendstr n p) s = .next t ↔
      (s.uarts[n.toNat]? = none ∧ t = s.deliver .indexError 0) ∨
      (∃ u, s.uarts[n.toNat]? = some u ∧ s.sendBeneath n = false ∧
        ((p = 0 ∧ t = s.deliver .nullPointerError 0) ∨
         (p ≠ 0 ∧ u.configured = true ∧ sendFrom (.usendstr n p) n u p 0 s = .next t))) := by
  simp only [exec, execUsendstr, instCheck_eq_next, guardNestedSend_eq_next, nullCheck_eq_next, needConfigured_eq_next]

theorem exec_urecvstr_eq_next {n : Byte} {p : Word} {s t : State} :
    exec (.urecvstr n p) s = .next t ↔
      (s.uarts[n.toNat]? = none ∧ t = s.deliver .indexError 0) ∨
      (∃ u, s.uarts[n.toNat]? = some u ∧
        ((p = 0 ∧ t = s.deliver .nullPointerError 0) ∨
         (p ≠ 0 ∧ u.configured = true ∧
          recvPoll (.urecvstr n p) n u p 0 (fun v => decide (v = Config.terminator)) s = .next t))) := by
  simp only [exec, execUrecvstr, instCheck_eq_next, nullCheck_eq_next, needConfigured_eq_next]

theorem exec_usetcb_eq_next {n : Byte} {h : Word} {s t : State} :
    exec (.usetcb n h) s = .next t ↔
      (s.params.rxIrqBuild = false ∧ t = s.deliver .illegalCommand 0) ∨
      (s.params.rxIrqBuild = true ∧
        ((s.uarts[n.toNat]? = none ∧ t = s.deliver .indexError 0) ∨
         (∃ u, s.uarts[n.toNat]? = some u ∧
          ((h = 0 ∧ t = s.deliver .nullPointerError 0) ∨
           (h ≠ 0 ∧ t = (s.withUart n.toNat { u with callback := some h }).deliver .success 0))))) := by
  simp only [exec, execUsetcb, Instr.wellFormed]
  cases s.params.rxIrqBuild <;> simp [instCheck_eq_next, nullCheck_eq_next]

/-! What a command changes of the state, at issue. -/

/-- The next states of a command's step at issue, over all sixteen: it ends with nothing written; or it writes the
timer; or it configures its instance or stores a handler; or it writes the data slot; or it sets up a receive, which
URECVB's first poll only follows; or it polls to receive. -/
inductive IssueShape (i : Instr) (s t : State) : Prop where
  | ended (st : Status) (rv : Word) (h : t = s.deliver st rv)
  | timer (tm : Timer) (hi : Instr.uartInst i = none) (h : t = (s.withTimer tm).deliver .success 0)
  | busy (ms : Half) (tm : Timer) (hi : i = .tbusy ms) (h : t = (s.withTimer tm).spin i 0 0)
  | config (n : Byte) (p : Word) (u : Uart) (r : ConfigRecord) (hi : i = .uconfig n p)
      (hu : s.uarts[n.toNat]? = some u) (hr : r.firstError = none)
      (h : t = (s.withUart n.toNat (u.configure s.params r)).deliver .success 0)
  | callback (n : Byte) (a : Word) (u : Uart) (hi : i = .usetcb n a) (hu : s.uarts[n.toNat]? = some u) (ha : a ≠ 0)
      (h : t = (s.withUart n.toNat { u with callback := some a }).deliver .success 0)
  | send (n : Byte) (u u' : Uart) (b : Byte) (hi : Instr.sendInst i = some n) (hu : s.uarts[n.toNat]? = some u)
      (hc : u.configured = true) (hw : u.writeUdr (udrOfByte b) = .ok u') (h : t = (s.withUart n.toNat u').spin i 0 b)
  | setup (n : Byte) (u : Uart) (base : Word) (hi : i = .urecvb n base) (hu : s.uarts[n.toNat]? = some u)
      (hc : u.configured = true) (h : t = s.spin i 0 0)
  | recv (n : Byte) (u : Uart) (base : Word) (last : Byte → Bool) (hi : Instr.blockingOn i = some (some n))
      (hu : s.uarts[n.toNat]? = some u) (hc : u.configured = true)
      (hr : (∃ size, i = .urecvbuf n base size) ∨ i = .urecvstr n base)
      (h : recvPoll i n u base 0 last s = .next t)

/-- Every next state of `exec` has one of the shapes. -/
theorem exec_shape {i : Instr} {s t : State} (h : exec i s = .next t) : IssueShape i s t := by
  cases i with
  | tinit c => exact .timer _ rfl (exec_tinit_eq_next.mp h)
  | tbusy ms =>
    rcases exec_tbusy_eq_next.mp h with ⟨-, ⟨-, h⟩ | ⟨-, f, -, ⟨-, h⟩ | ⟨-, ⟨-, h⟩ | ⟨-, h⟩⟩⟩⟩
    · exact .ended _ _ h
    · exact .ended _ _ h
    · exact .timer _ rfl h
    · exact .busy ms _ rfl h
  | tsingle ms =>
    rcases exec_tsingle_eq_next.mp h with ⟨-, ⟨-, h⟩ | ⟨-, f, -, ⟨-, h⟩ | ⟨-, -, h⟩⟩⟩
    · exact .ended _ _ h
    · exact .ended _ _ h
    · exact .timer _ rfl h
  | tperiod ms =>
    rcases exec_tperiod_eq_next.mp h with ⟨-, ⟨-, h⟩ | ⟨-, f, -, ⟨-, h⟩ | ⟨-, -, h⟩⟩⟩
    · exact .ended _ _ h
    · exact .ended _ _ h
    · exact .timer _ rfl h
  | tsetcb a =>
    rcases exec_tsetcb_eq_next.mp h with ⟨-, h⟩ | ⟨-, h⟩
    · exact .ended _ _ h
    · exact .timer _ rfl h
  | telapsed => exact .ended _ _ (exec_telapsed_eq_next.mp h)
  | tremain => exact .ended _ _ (exec_tremain_eq_next.mp h)
  | tdeinit => exact .timer _ rfl (exec_tdeinit_eq_next.mp h)
  | uconfig n p =>
    rcases exec_uconfig_eq_next.mp h with ⟨-, h⟩ | ⟨u, hu, ⟨-, h⟩ | ⟨-, r, -, ⟨st, -, h⟩ | ⟨hr, h⟩⟩⟩
    · exact .ended _ _ h
    · exact .ended _ _ h
    · exact .ended _ _ h
    · exact .config n p u r rfl hu hr h
  | usendb n b =>
    rcases exec_usendb_eq_next.mp h with ⟨-, h⟩ | ⟨u, hu, -, hc, u', hw, h⟩
    · exact .ended _ _ h
    · exact .send n u u' b rfl hu hc hw h
  | urecvb n p =>
    rcases exec_urecvb_eq_next.mp h with ⟨-, h⟩ | ⟨u, hu, ⟨-, h⟩ | ⟨-, hc, h⟩⟩
    · exact .ended _ _ h
    · exact .ended _ _ h
    · exact .setup n u p rfl hu hc h
  | usendbuf n p size =>
    rcases exec_usendbuf_eq_next.mp h with ⟨-, h⟩ | ⟨u, hu, -, ⟨-, h⟩ | ⟨-, hc, ⟨-, h⟩ | ⟨-, h⟩⟩⟩
    · exact .ended _ _ h
    · exact .ended _ _ h
    · exact .ended _ _ h
    · obtain ⟨b, -, h⟩ := sendFrom_eq_next.mp h
      obtain ⟨u', hw, h⟩ := sendByte_eq_next.mp h
      exact .send n u u' b rfl hu hc hw h
  | urecvbuf n p size =>
    rcases exec_urecvbuf_eq_next.mp h with ⟨-, h⟩ | ⟨u, hu, ⟨-, h⟩ | ⟨-, hc, ⟨-, h⟩ | ⟨-, h⟩⟩⟩
    · exact .ended _ _ h
    · exact .ended _ _ h
    · exact .ended _ _ h
    · exact .recv n u p _ rfl hu hc (.inl ⟨size, rfl⟩) h
  | usendstr n p =>
    rcases exec_usendstr_eq_next.mp h with ⟨-, h⟩ | ⟨u, hu, -, ⟨-, h⟩ | ⟨-, hc, h⟩⟩
    · exact .ended _ _ h
    · exact .ended _ _ h
    · obtain ⟨b, -, h⟩ := sendFrom_eq_next.mp h
      obtain ⟨u', hw, h⟩ := sendByte_eq_next.mp h
      exact .send n u u' b rfl hu hc hw h
  | urecvstr n p =>
    rcases exec_urecvstr_eq_next.mp h with ⟨-, h⟩ | ⟨u, hu, ⟨-, h⟩ | ⟨-, hc, h⟩⟩
    · exact .ended _ _ h
    · exact .ended _ _ h
    · exact .recv n u p _ rfl hu hc (.inr rfl) h
  | usetcb n a =>
    rcases exec_usetcb_eq_next.mp h with ⟨-, h⟩ | ⟨-, ⟨-, h⟩ | ⟨u, hu, ⟨-, h⟩ | ⟨ha, h⟩⟩⟩
    · exact .ended _ _ h
    · exact .ended _ _ h
    · exact .ended _ _ h
    · exact .callback n a u rfl hu ha h

/-! The sequencer's later steps. -/

/-- The next states of a later step of a command in progress. -/
inductive ResumeShape (cmd : Instr) (ph : Phase) (k : Word) (s t : State) : Prop where
  | same (h : t = s)
  | busy (ms : Half) (hi : cmd = .tbusy ms) (hcf : s.timer.tctrl.cf = true)
      (h : t = ((s.withTimer s.timer.readTctrl.2).deinitTimer).deliver .success 0)
  | noInstance (n : Byte) (hi : Instr.blockingOn cmd = some (some n)) (hu : s.uarts[n.toNat]? = none)
      (h : t = s.deliver .indexError 0)
  | send (n : Byte) (u u' : Uart) (b : Byte) (hi : Instr.sendInst cmd = some n) (hu : s.uarts[n.toNat]? = some u)
      (hw : u.writeUdr (udrOfByte b) = .ok u') (h : t = (s.withUart n.toNat u').spin cmd k b)
  | sent (n : Byte) (u : Uart) (hph : ph = .spin) (hi : Instr.sendInst cmd = some n) (hu : s.uarts[n.toNat]? = some u)
      (htc : u.usr.tc = true)
      (h : t = (s.withUart n.toNat u.clearTc).deliver .success 0 ∨
        t = (s.withUart n.toNat u.clearTc).startByte cmd (k + 1))
  | recv (n : Byte) (u : Uart) (base : Word) (last : Byte → Bool) (hi : Instr.blockingOn cmd = some (some n))
      (hu : s.uarts[n.toNat]? = some u)
      (hr : (∃ size, cmd = .urecvbuf n base size) ∨ cmd = .urecvb n base ∨ cmd = .urecvstr n base)
      (h : recvPoll cmd n u base k last s = .next t)

/-- A poll of a send command has one of the shapes. -/
theorem sendPoll_shape {cmd : Instr} {n : Byte} {u : Uart} {k : Word} {last : Bool} {s t : State}
    (hi : Instr.sendInst cmd = some n) (hu : s.uarts[n.toNat]? = some u)
    (h : sendPoll cmd n u k last s = .next t) : ResumeShape cmd .spin k s t := by
  rcases sendPoll_eq_next.mp h with ⟨-, h⟩ | ⟨htc, -, h⟩ | ⟨htc, -, h⟩
  · exact .same h
  · exact .sent n u rfl hi hu htc (.inl h)
  · exact .sent n u rfl hi hu htc (.inr h)

/-- Every next state of `resume` has one of the shapes. -/
theorem resume_shape {cmd : Instr} {ph : Phase} {k : Word} {b : Byte} {s t : State}
    (h : resume cmd ph k b s = .next t) : ResumeShape cmd ph k s t := by
  cases cmd with
  | tinit _ => exact .same (next_inj.mp h)
  | tbusy ms =>
    rcases busyPoll_eq_next.mp h with ⟨hcf, h⟩ | ⟨-, h⟩
    · exact .busy ms rfl hcf h
    · exact .same h
  | tsingle _ => exact .same (next_inj.mp h)
  | tperiod _ => exact .same (next_inj.mp h)
  | tsetcb _ => exact .same (next_inj.mp h)
  | telapsed => exact .same (next_inj.mp h)
  | tremain => exact .same (next_inj.mp h)
  | tdeinit => exact .same (next_inj.mp h)
  | uconfig _ _ => exact .same (next_inj.mp h)
  | usendb n byte =>
    rcases instCheck_eq_next.mp h with ⟨hu, h⟩ | ⟨u, hu, h⟩
    · exact .noInstance n rfl hu h
    · cases ph with
      | start =>
        obtain ⟨u', hw, h⟩ := sendByte_eq_next.mp h
        exact .send n u u' _ rfl hu hw h
      | spin => exact sendPoll_shape rfl hu h
  | urecvb n p =>
    rcases instCheck_eq_next.mp h with ⟨hu, h⟩ | ⟨u, hu, h⟩
    · exact .noInstance n rfl hu h
    · exact .recv n u p _ rfl hu (.inr (.inl rfl)) h
  | usendbuf n p size =>
    rcases instCheck_eq_next.mp h with ⟨hu, h⟩ | ⟨u, hu, h⟩
    · exact .noInstance n rfl hu h
    · cases ph with
      | start =>
        obtain ⟨v, -, h⟩ := sendFrom_eq_next.mp h
        obtain ⟨u', hw, h⟩ := sendByte_eq_next.mp h
        exact .send n u u' _ rfl hu hw h
      | spin => exact sendPoll_shape rfl hu h
  | urecvbuf n p size =>
    rcases instCheck_eq_next.mp h with ⟨hu, h⟩ | ⟨u, hu, h⟩
    · exact .noInstance n rfl hu h
    · exact .recv n u p _ rfl hu (.inl ⟨size, rfl⟩) h
  | usendstr n p =>
    rcases instCheck_eq_next.mp h with ⟨hu, h⟩ | ⟨u, hu, h⟩
    · exact .noInstance n rfl hu h
    · cases ph with
      | start =>
        obtain ⟨v, -, h⟩ := sendFrom_eq_next.mp h
        obtain ⟨u', hw, h⟩ := sendByte_eq_next.mp h
        exact .send n u u' _ rfl hu hw h
      | spin => exact sendPoll_shape rfl hu h
  | urecvstr n p =>
    rcases instCheck_eq_next.mp h with ⟨hu, h⟩ | ⟨u, hu, h⟩
    · exact .noInstance n rfl hu h
    · exact .recv n u p _ rfl hu (.inr (.inr rfl)) h
  | usetcb _ _ => exact .same (next_inj.mp h)

end Sys2Proof.Machine
end

