-- ==== Sys2Proof/Laws/PerInstr.lean ====
section
/-!
SUPPORT. The family EncodedFields: the word of an encoded command carries the command's opcode, instance and immediate
in the fields of 30_encoding.md R91.
-/

namespace Sys2Proof.Laws

/-- The three fields of the encoded word are the command's (R91, R92, R94). -/
def EncodedFields.Statement (i : Instr) : Prop :=
  cwOpc (encode i).cw = i.opcode ∧ cwInst (encode i).cw = i.instField ∧ cwImm (encode i).cw = i.immField

/-- Every word is packed from its fields. -/
theorem EncodedFields.all (i : Instr) : EncodedFields.Statement i :=
  ⟨cwOpc_pack _ _ _, cwInst_pack _ _ _, cwImm_pack _ _ _⟩

theorem EncodedFields.tinit (c : Bool) : EncodedFields.Statement (.tinit c) := EncodedFields.all _
theorem EncodedFields.tbusy (ms : Half) : EncodedFields.Statement (.tbusy ms) := EncodedFields.all _
theorem EncodedFields.tsingle (ms : Half) : EncodedFields.Statement (.tsingle ms) := EncodedFields.all _
theorem EncodedFields.tperiod (ms : Half) : EncodedFields.Statement (.tperiod ms) := EncodedFields.all _
theorem EncodedFields.tsetcb (h : Word) : EncodedFields.Statement (.tsetcb h) := EncodedFields.all _
theorem EncodedFields.telapsed : EncodedFields.Statement .telapsed := EncodedFields.all _
theorem EncodedFields.tremain : EncodedFields.Statement .tremain := EncodedFields.all _
theorem EncodedFields.tdeinit : EncodedFields.Statement .tdeinit := EncodedFields.all _
theorem EncodedFields.uconfig (n : Byte) (p : Word) : EncodedFields.Statement (.uconfig n p) := EncodedFields.all _
theorem EncodedFields.usendb (n : Byte) (b : Byte) : EncodedFields.Statement (.usendb n b) := EncodedFields.all _
theorem EncodedFields.urecvb (n : Byte) (p : Word) : EncodedFields.Statement (.urecvb n p) := EncodedFields.all _
theorem EncodedFields.usendbuf (n : Byte) (p : Word) (k : Word) : EncodedFields.Statement (.usendbuf n p k) := EncodedFields.all _
theorem EncodedFields.urecvbuf (n : Byte) (p : Word) (k : Word) : EncodedFields.Statement (.urecvbuf n p k) := EncodedFields.all _
theorem EncodedFields.usendstr (n : Byte) (p : Word) : EncodedFields.Statement (.usendstr n p) := EncodedFields.all _
theorem EncodedFields.urecvstr (n : Byte) (p : Word) : EncodedFields.Statement (.urecvstr n p) := EncodedFields.all _
theorem EncodedFields.usetcb (n : Byte) (h : Word) : EncodedFields.Statement (.usetcb n h) := EncodedFields.all _

end Sys2Proof.Laws
end

