-- ==== Sys2Proof/Laws/Step.lean ====
section
/-!
SUPPORT. One lemma that says once what a step of each agent can do, case by case over the events, and what taking an
event leaves alone.
-/

namespace Sys2Proof.Machine

/-- The next states of the step an event names: `t` is `s` when the agent is not enabled, reads, or keeps polling. -/
inductive EventShape (e : Event) (s t : State) : Prop where
  | same (h : t = s)
  | illegal (c : Command) (x : Illegal) (he : e = .issue c) (hr : s.active.act.isRunning = true)
      (hd : decode c = .error x) (h : t = s.deliver .illegalCommand 0)
  | command (c : Command) (i : Instr) (he : e = .issue c) (hr : s.active.act.isRunning = true) (hd : decode c = .ok i)
      (h : exec i s = .next t)
  | poll (cmd : Instr) (ph : Phase) (k : Word) (b : Byte) (he : e = .sequencer)
      (ha : s.active.act = .inCmd cmd ph k b) (h : resume cmd ph k b s = .next t)
  | ret (src : Source) (f : Frame) (rest : List Frame) (he : e = .handlerReturn) (hc : s.active.ctx = .handler src)
      (ha : s.active.act = .running) (hb : s.beneath = f :: rest)
      (h : t = State.exitAction { s with active := f, beneath := rest } src)
  | write (addr : Word) (b : Byte) (he : e = .hostWrite addr b)
      (h : t = { s with mem := Memory.write s.mem addr.toNat b })
  | line (src : Source) (on : Bool) (he : e = .setLine src on) (h : t = s.setLine src on)
  | tick (he : e = .tick) (hen : s.timer.tctrl.en = true) (h : t = s.withTimer s.timer.tick)
  | shift (i : Nat) (u : Uart) (b : Bool) (rest : List Bool) (he : e = .txShift i) (hu : s.uarts[i]? = some u)
      (ht : u.tx = b :: rest) (h : t = (s.withUart i u.shift).emit (.txBit i b))
  | frame (i : Nat) (d : Byte) (u u' : Uart) (n : Nat) (he : e = .rxFrame i d) (hu : s.uarts[i]? = some u)
      (hw : u' = u ∨ u' = u.takeByte d) (h : t = { s.withUart i u' with free := n })
  | timerIrq (he : e = .dispatch .timer) (hm : s.mayDispatch .timer = true) (h : t = s.dispatchTimer)
  | uartIrq (i : Nat) (u : Uart) (he : e = .dispatch (.uartRx i)) (hm : s.mayDispatch (.uartRx i) = true)
      (hu : s.uarts[i]? = some u) (h : t = s.dispatchUart i u)

/-- An instance put back as it is changes nothing. -/
theorem State.withUart_self {s : State} {i : Nat} {u : Uart} (hu : s.uarts[i]? = some u) : s.withUart i u = s := by
  obtain ⟨hi, rfl⟩ := List.getElem?_eq_some_iff.mp hu
  unfold State.withUart
  rw [List.set_getElem_self]

theorem returnFromHandler_shape (s : State) : EventShape .handlerReturn s s.returnFromHandler := by
  unfold State.returnFromHandler
  split
  · rename_i src f rest hc ha hb
    exact .ret src f rest rfl hc ha hb rfl
  · exact .same rfl

theorem txShift_shape (i : Nat) (s : State) : EventShape (.txShift i) s (s.txShift i) := by
  unfold State.txShift
  split
  · exact .same rfl
  · rename_i u hu
    split
    · exact .same rfl
    · rename_i b rest ht
      exact .shift i u b rest rfl hu ht rfl

/-- A receiver keeps its byte or takes the frame's. -/
theorem receive_cases (takeNew : Bool) (d : Byte) (u : Uart) : u.receive takeNew d = u ∨ u.receive takeNew d = u.takeByte d := by
  unfold Uart.receive
  split
  · split
    · exact .inr rfl
    · exact .inl rfl
  · exact .inr rfl

theorem rxFrame_shape (i : Nat) (d : Byte) (s : State) : EventShape (.rxFrame i d) s (s.rxFrame i d) := by
  unfold State.rxFrame
  split
  · exact .same rfl
  · rename_i u hu
    have keep : s = s.withUart i u := (State.withUart_self hu).symm
    simp only
    split
    · split
      · split
        · exact .frame i d u _ _ rfl hu (receive_cases _ d u) rfl
        · exact .frame i d u _ s.free rfl hu (receive_cases true d u) rfl
      · exact .same rfl
    · split
      · exact .frame i d u _ _ rfl hu (receive_cases _ d u) rfl
      · exact .frame i d u u (s.free + 2) rfl hu (.inl rfl) (by rw [← keep])

theorem takeInterrupt_shape (src : Source) (s : State) : EventShape (.dispatch src) s (s.takeInterrupt src) := by
  unfold State.takeInterrupt
  split
  · rename_i hm
    cases src with
    | timer => exact .timerIrq rfl hm rfl
    | uartRx i =>
      simp only
      split
      · exact .same rfl
      · rename_i u hu
        exact .uartIrq i u rfl hm hu rfl
  · exact .same rfl

/-- Every next state of an agent's step has one of the shapes. -/
theorem perform_shape {e : Event} {s t : State} (h : perform e s = .next t) : EventShape e s t := by
  cases e with
  | issue c =>
    rcases whenRunning_eq_next.mp h with ⟨hr, h⟩ | ⟨-, h⟩
    · unfold issueCommand at h
      split at h
      · rename_i x hd
        exact .illegal c x rfl hr hd (illegalCommand_eq_next.mp h)
      · rename_i i hd
        exact .command c i rfl hr hd h
    · exact .same h
  | handlerReturn => cases h; exact returnFromHandler_shape s
  | hostRead addr =>
    rcases whenRunning_eq_next.mp h with ⟨-, h⟩ | ⟨-, h⟩
    · unfold hostReadStep at h
      split at h
      · exact absurd h (by simp)
      · exact .same (next_inj.mp h)
    · exact .same h
  | hostWrite addr b =>
    rcases whenRunning_eq_next.mp h with ⟨-, h⟩ | ⟨-, h⟩
    · unfold hostWriteStep at h
      split at h
      · exact absurd h (by simp)
      · rename_i s' hs
        exact .write addr b rfl ((next_inj.mp h).trans (writeByte_eq_ok.mp hs).2)
    · exact .same h
  | hostSlot slot => exact absurd h (by simp [perform])
  | setLine src on =>
    rcases whenRunning_eq_next.mp h with ⟨-, h⟩ | ⟨-, h⟩
    · exact .line src on rfl (next_inj.mp h)
    · exact .same h
  | sequencer =>
    simp only [perform, sequencerStep] at h
    split at h
    · exact .same (next_inj.mp h)
    · rename_i cmd ph k b ha
      exact .poll cmd ph k b rfl ha h
  | tick =>
    have h' := next_inj.mp h
    cases hen : s.timer.tctrl.en
    · refine .same (h'.trans ?_)
      unfold Timer.tick
      rw [hen]
      rfl
    · exact .tick rfl hen h'
  | txShift i => cases h; exact txShift_shape i s
  | rxFrame i d => cases h; exact rxFrame_shape i d s
  | dispatch src => cases h; exact takeInterrupt_shape src s

/-- Every step is the step of the agent its event names. -/
theorem step_shape {s t : State} (h : step s = .next t) : EventShape s.nextEvent s.takeEvent t :=
  perform_shape (step_eq_next.mp h).2

end Sys2Proof.Machine
end

