-- ==== Sys2Proof/Tests/Slice0.lean ====
section
/-!
SUPPORT. The model's own tests: words written out from the spec's encodings, the smoke test of WellFormed, one-step
tests against 95_test_vectors.md, and for every statement of Obligations.lean with hypotheses a state and operands
that meet all of them. Expected results come from the tables of 95_test_vectors.md.
-/

namespace Sys2Proof.Tests

open Sys2Proof Sys2Proof.Machine

/-! Small states. -/

/-- The next state, if the step has one. -/
def after : Answer → Option State
  | .next s => some s
  | .fault _ => none
  | .refused _ => none

/-- Why a step was refused, if it was. -/
def refusal : Answer → Option Refusal
  | .next _ => none
  | .fault _ => none
  | .refused r => some r

/-- A field of the next state. -/
def field {α : Type} (f : State → α) (a : Answer) : Option α := (after a).map f

/-- Reset, with the timer in Idle at a frequency. -/
def idleAt (f : Nat) : State := State.reset.withTimer { Timer.reset with tickFrequency := some f }

/-- Reset, with the timer armed with 16000 ticks in a mode. -/
def armed (m : TimerMode) (tie cf : Bool) (tval : Ticks) : State :=
  State.reset.withTimer
    { Timer.reset with
      mode := m
      tickFrequency := some 16000000
      tctrl := { en := true, tie := tie, clksrc := true, cf := cf }
      tload := 15999
      tval := tval }

/-- An instance after V-UC12 (95_test_vectors.md 2.6). -/
def uart12 : Uart :=
  { Uart.reset Config.defaultParams 0 with
    configured := true
    ucr := { rxen := true, txen := true, rxie := true, ptype := false, pen := false, uen := true }
    ubrr := 0x0683 }

/-- Reset, with all three instances as given. -/
def uartsAre (u : Uart) : State := { State.reset with uarts := [u, u, u] }

/-- All three instances configured as V-UC12. -/
def conf : State := uartsAre uart12

/-- The same with a byte waiting. -/
def waiting (b : Byte) : Uart := { uart12 with rdr := b, usr := { uart12.usr with rxne := true } }

/-- Memory from an address on. -/
def bytesAt (a : Nat) : List Byte → Memory
  | [] => []
  | b :: rest => if b = 0 then bytesAt (a + 1) rest else (a, b) :: bytesAt (a + 1) rest

/-- A state with memory. -/
def withMem (m : Memory) (s : State) : State := { s with mem := m }

/-- A state whose active frame is in a command. -/
def inCmd (i : Instr) (ph : Phase) (k : Word) (b : Byte) (s : State) : State := s.withAct (.inCmd i ph k b)

/-- A state in a callback of a source, over a main frame that does something. -/
def inCallback (src : Source) (a : Activity) (s : State) : State :=
  { s with
    active := { ctx := .handler src, act := .running, result := none }
    beneath := [{ ctx := .main, act := a, result := none }] }

/-- A state whose next event is given. -/
def nextIs (e : Event) (s : State) : State := { s with inbox := [e] }

/-! Decoding: CW bit by bit, OPC then INST then IMM16 (30_encoding.md R91, R94, R106; 95_test_vectors.md 2.1). -/

theorem test_decode_tinit : decodeTableWord 32 0b00010000000000000000000000000001 = some (.tinit true) := by decide
theorem test_decode_tbusy : decodeTableWord 32 0b00010001000000000000000011111010 = some (.tbusy 250) := by decide
theorem test_decode_tsingle : decodeTableWord 32 0b00010010000000000000001111101000 = some (.tsingle 1000) := by decide
theorem test_decode_tperiod : decodeTableWord 32 0b00010011000000000000000000000000 = some (.tperiod 0) := by decide
theorem test_decode_tsetcb :
    decode { cw := 0b00010100000000000000000000000000, a1 := 0x08000101, a2 := 0 } = .ok (.tsetcb 0x08000101) := by decide
theorem test_decode_telapsed : decodeTableWord 32 0b00010101000000000000000000000000 = some .telapsed := by decide
theorem test_decode_tremain : decodeTableWord 32 0b00010110000000000000000000000000 = some .tremain := by decide
theorem test_decode_tdeinit : decodeTableWord 32 0b00010111000000000000000000000000 = some .tdeinit := by decide
theorem test_decode_uconfig :
    decode { cw := 0b00100000000000010000000000000000, a1 := 0x20000000, a2 := 0 } = .ok (.uconfig 1 0x20000000) := by
  decide
theorem test_decode_usendb : decodeTableWord 32 0b00100001000000010000000001000001 = some (.usendb 1 0x41) := by decide
theorem test_decode_urecvb :
    decode { cw := 0b00100010000000000000000000000000, a1 := 0x20000100, a2 := 0 } = .ok (.urecvb 0 0x20000100) := by
  decide
theorem test_decode_usendbuf :
    decode { cw := 0b00100011000000100000000000000000, a1 := 0x20000010, a2 := 3 } =
      .ok (.usendbuf 2 0x20000010 3) := by decide
theorem test_decode_urecvbuf :
    decode { cw := 0b00100100000000100000000000000000, a1 := 0x20000200, a2 := 2 } =
      .ok (.urecvbuf 2 0x20000200 2) := by decide
theorem test_decode_usendstr :
    decode { cw := 0b00100101000000010000000000000000, a1 := 0x20000010, a2 := 0 } = .ok (.usendstr 1 0x20000010) := by
  decide
theorem test_decode_urecvstr :
    decode { cw := 0b00100110000000010000000000000000, a1 := 0x20000300, a2 := 0 } = .ok (.urecvstr 1 0x20000300) := by
  decide
theorem test_decode_usetcb :
    decode { cw := 0b00100111000000100000000000000000, a1 := 0x08000201, a2 := 0 } = .ok (.usetcb 2 0x08000201) := by
  decide

/-- Reserved opcodes of 2.1, and the ends of R95's ranges. -/
theorem test_decode_reserved :
    [0x00000000, 0x0F000000, 0x18000000, 0x1F000000, 0x28000000, 0xFF000000].map (decodeTableWord 32) =
      [none, none, none, none, none, none] := by decide

/-- Words of 2.1 whose must-be-zero fields are not 0. -/
theorem test_decode_must_be_zero :
    [0x10000002, 0x10010001, 0x11010000, 0x14000001, 0x20010001, 0x21010141].map (decodeTableWord 32) =
      [none, none, none, none, none, none] := by decide

/-- The encoder gives 2.1's words. -/
theorem test_encode_words :
    (encode (.tbusy 250)).cw = 0x110000FA ∧ (encode (.tinit true)).cw = 0x10000001 ∧
    encode (.usendbuf 2 0x20000010 3) = { cw := 0x23020000, a1 := 0x20000010, a2 := 3 } ∧
    (encode (.usendb 255 0xFF)).cw = 0x21FF00FF := by decide

/-- Smoke test of WellFormed: USETCB is ill formed in a build without the receive interrupt, and only there (R95 b). -/
theorem test_wellFormed_refuses_usetcb :
    (Instr.usetcb 2 0x08000201).wellFormed false = false ∧ (Instr.usetcb 2 0x08000201).wellFormed true = true ∧
    (Instr.uconfig 2 0x08000201).wellFormed false = true := by decide

/-! The timer (95_test_vectors.md 2.3 to 2.5, P1 to P3). -/

theorem test_tinit_divides : field (fun t => (t.timer.tickFrequency, t.timer.tctrl.toWord)) (exec (.tinit false) State.reset) =
    some (some 2000000, 0) := by decide

theorem test_tinit_full_clock :
    field (fun t => (t.timer.tickFrequency, t.timer.tctrl.toWord)) (exec (.tinit true) State.reset) =
      some (some 16000000, 4) := by decide

/-- P3 step 4. -/
theorem test_tbusy_arms :
    field (fun t => (t.timer.tload, t.timer.tval, t.timer.tctrl.toWord)) (exec (.tbusy 1) (idleAt 16000000)) =
      some (15999, 15999, 1) := by decide

/-- 2.5: BusyError comes before OverflowError. -/
theorem test_tbusy_busy_first :
    field (fun t => t.active.result) (exec (.tbusy 65535) (armed .oneShot true false 5)) =
      some (some { st := .busyError, rv := 0 }) := by decide

theorem test_tsingle_overflow_bound :
    field (fun t => t.active.result) (exec (.tsingle 1049) (idleAt 16000000)) =
      some (some { st := .overflowError, rv := 0 }) ∧
    field (fun t => t.timer.tload) (exec (.tsingle 1048) (idleAt 16000000)) = some 16767999 := by decide

theorem test_tsingle_zero_refused : refusal (exec (.tsingle 0) (idleAt 16000000)) = some .zeroTickInterval := by decide

theorem test_tperiod_arms :
    field (fun t => (t.timer.tload, t.timer.mode, t.timer.tctrl.toWord)) (exec (.tperiod 10) (idleAt 2000000)) =
      some (19999, .periodic, 3) := by decide

/-- 2.3, the row that shows C1: truncation, not rounding. -/
theorem test_tperiod_truncates :
    field (fun t => t.timer.tload) (exec (.tperiod 1) (idleAt 2000500)) = some 1999 := by decide

theorem test_tsetcb_null :
    field (fun t => (t.timer.callback, t.active.result)) (exec (.tsetcb 0) State.reset) =
      some (none, some { st := .nullPointerError, rv := 0 }) := by decide

/-- P1 step 6. -/
theorem test_telapsed : field (fun t => t.active.result) (exec .telapsed (armed .oneShot true false 15899)) =
    some (some { st := .success, rv := 100 }) := by decide

theorem test_tremain : field (fun t => t.active.result) (exec .tremain (armed .oneShot true false 15899)) =
    some (some { st := .success, rv := 15899 }) := by decide

/-- 2.5: `CLKSRC` survives TDEINIT. -/
theorem test_tdeinit :
    field (fun t => (t.timer.tctrl.toWord, t.timer.tload, t.timer.tval)) (exec .tdeinit (armed .periodic true true 7)) =
      some (4, 0, 0) := by decide

/-- P1 step 7: the expiry. -/
theorem test_tick_expiry :
    field (fun t => (t.timer.tval, t.timer.tctrl.toWord, t.timer.irqPending)) (perform .tick (armed .oneShot true false 0)) =
      some (15999, 0x00010007, true) := by decide

/-- P3 steps 6 and 7: the expiry raises no request, and the poll ends the command. -/
theorem test_tbusy_poll_completes :
    field (fun t => (t.timer.tctrl.toWord, t.timer.mode, t.active.act.isRunning))
        (perform .sequencer (inCmd (.tbusy 1) .spin 0 0 (armed .busyWait false true 15999))) =
      some (4, .idle, true) := by decide

/-! The transceiver (95_test_vectors.md 2.2, 2.6 to 2.9). -/

/-- 2.2: round down, carry, tie, round up, tie to 15 without carry, mantissa 0. -/
theorem test_brsynth_table :
    [1200, 1224, 2048, 7300, 9600, 10240, 115200, 256000, 653062, 1280000, 3000000].map (brsynth 16000000) =
      [0x3415, 0x3310, 0x1E85, 0x0890, 0x0683, 0x061B, 0x008B, 0x003F, 0x0018, 0x000D, 0x0005] := by decide

/-- V-UC14: 115200, FullDuplex, Odd. -/
theorem test_uconfig_writes :
    field (fun t => t.uarts.map fun u => (u.ucr.toWord, u.ubrrSlot))
        (exec (.uconfig 2 0x20000000) (withMem (bytesAt 0x20000000 [0x00, 0xC2, 0x01, 0x00, 0x03, 0x03]) State.reset)) =
      some [(0, 0), (0, 0), (0x0000262C, 0x0000008B)] := by decide

/-- V-UC3: a record bad in every field is a BaudRateError. -/
theorem test_uconfig_first_error :
    field (fun t => t.active.result)
        (exec (.uconfig 0 0x20000000) (withMem (bytesAt 0x20000000 [0xF4, 0x01, 0x00, 0x00, 0x09, 0x09]) State.reset)) =
      some (some { st := .baudRateError, rv := 0 }) := by decide

/-- 2.7, the rows of 0x41 and 0x7F. -/
theorem test_frames :
    serialFrame 0x41 false false = [false, true, false, false, false, false, false, true, false, true] ∧
    serialFrame 0x7F true false = [false, true, true, true, true, true, true, true, false, true, true] ∧
    serialFrame 0x7F true true = [false, true, true, true, true, true, true, true, false, false, true] := by decide

/-- 2.8, first row: the frame is loaded and the command spins. -/
theorem test_usendb_loads_frame :
    field (fun t => t.uarts.map fun u => u.tx) (exec (.usendb 1 0x41) conf) =
      some [[], [false, true, false, false, false, false, false, true, false, true], []] := by decide

theorem test_usendb_unconfigured : refusal (exec (.usendb 0 0x41) State.reset) = some .uartUnconfigured := by decide

/-- R67: the set-up step takes no byte, even one that is waiting. -/
theorem test_urecvb_sets_up :
    field (fun t => (t.mem, t.active.act)) (exec (.urecvb 0 0x20000100) (uartsAre (waiting 0x5A))) =
      some ([], .inCmd (.urecvb 0 0x20000100) .spin 0 0) := by decide

/-- R173's example: the first poll takes the byte waiting. -/
theorem test_urecvb_takes_waiting_byte :
    field (fun t => (t.mem, t.active.result))
        (perform .sequencer (inCmd (.urecvb 0 0x20000100) .spin 0 0 (uartsAre (waiting 0x5A)))) =
      some ([(0x20000100, 0x5A)], some { st := .success, rv := 0 }) := by decide

theorem test_usendbuf_size_zero :
    field (fun t => (t.uarts, t.active.result)) (exec (.usendbuf 1 0x20000010 0) conf) =
      some (conf.uarts, some { st := .success, rv := 0 }) := by decide

/-- 2.8: the second byte of `48 69 0A`. -/
theorem test_usendbuf_second_byte :
    field (fun t => t.uarts.map fun u => u.tdr)
        (perform .sequencer (inCmd (.usendbuf 1 0x20000010 3) .start 1 0
          (withMem (bytesAt 0x20000010 [0x48, 0x69, 0x0A]) conf))) = some [0, 0x69, 0] := by decide

theorem test_urecvbuf_first_of_two :
    field (fun t => (t.mem, t.active.act)) (exec (.urecvbuf 1 0x20000200 2) (uartsAre (waiting 0x01))) =
      some ([(0x20000200, 0x01)], .inCmd (.urecvbuf 1 0x20000200 2) .spin 1 0) := by decide

/-- 2.8: the terminator is sent, and the poll after it ends the command. -/
theorem test_usendstr_ends_after_terminator :
    field (fun t => t.active.result)
        (perform .sequencer (inCmd (.usendstr 1 0x20000010) .spin 2 0
          (uartsAre { uart12 with usr := { tc := true, rxne := false } }))) =
      some (some { st := .success, rv := 0 }) := by decide

/-- 2.8: the address wraps from 0xFFFFFFFF to 0 (R75), and the terminator is written. -/
theorem test_urecvstr_wraps :
    field (fun t => t.mem) (perform .sequencer (inCmd (.urecvstr 1 0xFFFFFFFF) .spin 1 0
      (withMem [(0, 0x77), (0xFFFFFFFF, 0x41)] (uartsAre (waiting 0))))) = some [(0xFFFFFFFF, 0x41)] := by decide

theorem test_usetcb_other_build :
    field (fun t => t.active.result)
        (exec (.usetcb 1 0x08000201) (State.resetWith { Config.defaultParams with rxIrqBuild := false } 3)) =
      some (some { st := .illegalCommand, rv := 0 }) := by decide

/-- 2.9: dispatch reads the byte, pushes the frame and invokes the callback. -/
theorem test_receive_dispatch :
    field (fun t => (t.trace, t.beneath.length, t.uarts.map fun u => u.usr.toWord))
        (perform (.dispatch (.uartRx 0)) (uartsAre { waiting 0x5A with callback := some 0x08000301 })) =
      some ([.invoke 0x08000301 (some 0x5A)], 1, [0, 0x20, 0x20]) := by decide

/-- The first step after reset that runs a placed command delivers its status. -/
theorem test_step_runs_placed_word :
    field (fun t => (t.timer.tickFrequency, t.active.result)) (step (State.reset.withFetchWord 32 0x10000001)) =
      some (some 16000000, some { st := .success, rv := 0 }) := by decide

/-! Witnesses: for each statement of Obligations.lean with hypotheses, a state and operands that meet them, one for each
clause, at the ends of its ranges and where clauses meet. -/

/-- A step whose next state has a property has a next state. -/
theorem next_with {a : Answer} (p : State → Bool) (h : field p a = some true) : ∃ t, a = .next t ∧ p t = true := by
  unfold field at h
  cases a with
  | next t => exact ⟨t, rfl, by simpa [after] using h⟩
  | fault f => simp [after] at h
  | refused r => simp [after] at h

/-- A step has a next state. -/
theorem has_next {a : Answer} (h : (after a).isSome = true) : ∃ t, a = .next t := by
  cases a with
  | next t => exact ⟨t, rfl⟩
  | fault f => simp [after] at h
  | refused r => simp [after] at h

/-- `TELAPSED` on the command port. -/
def askElapsed : Command := { cw := 0x15000000, a1 := 0, a2 := 0 }

/-- A build without the receive interrupt. -/
def otherBuild : State := State.resetWith { Config.defaultParams with rxIrqBuild := false } 3

/-- The main frame spinning in TBUSY. -/
def spinning : Activity := .inCmd (.tbusy 1) .spin 0 0

/-- Nothing is backed. -/
def unbacked (s : State) : State := { s with params := { s.params with regions := [] } }

theorem witness_EncodeOfDecode : decode { cw := 0x21FF00FF, a1 := 0, a2 := 0 } = .ok (.usendb 255 0xFF) := by decide

theorem witness_StepRunsDecodedInstruction :
    ((nextIs (.issue askElapsed) State.reset).paramsOk = true ∧
      (nextIs (.issue askElapsed) State.reset).inbox = .issue askElapsed :: [] ∧
      (nextIs (.issue askElapsed) State.reset).active.act = .running ∧ decode askElapsed = .ok .telapsed) ∧
    (State.reset.paramsOk = true ∧ decodeTableWord 32 0x15000000 = some .telapsed) := by decide

theorem witness_IllegalWordDeliversIllegalCommand :
    (decode { cw := 0x18000000, a1 := 0, a2 := 0 } = .error .reservedOpcode ∧ State.reset.paramsOk = true ∧
      State.reset.active.act = .running) ∧
    (decode { cw := 0x27020000, a1 := 0x08000201, a2 := 0 } = .ok (.usetcb 2 0x08000201) ∧ otherBuild.paramsOk = true ∧
      (Instr.usetcb 2 0x08000201).wellFormed otherBuild.params.rxIrqBuild = false ∧
      otherBuild.active.act = .running) := by decide

/-- Legal at both ends of the range of `F_REF`, with two ordered sources. -/
theorem witness_BadParametersRefused_legal : ∀ fRef ∈ [1500000, 78642599],
    let p : Params := { Config.defaultParams with fRef := fRef, preempts := [(.timer, .uartRx 0)] }
    0 < p.fCore ∧ 8 ∣ p.fCore ∧ p.fRef < 78642600 ∧ 1500000 ≤ p.fRef ∧ (∀ a, (a, a) ∉ p.preempts) ∧
    ∀ a b c, (a, b) ∈ p.preempts → (b, c) ∈ p.preempts → (a, c) ∈ p.preempts := by
  intro fRef h p
  refine ⟨Nat.lt_of_lt_of_le (by decide : 0 < 16000000) (Nat.le_refl _), ⟨2000000, rfl⟩, ?_, ?_, ?_, ?_⟩
  · simp only [List.mem_cons, List.not_mem_nil, or_false] at h
    rcases h with rfl | rfl <;> decide
  · simp only [List.mem_cons, List.not_mem_nil, or_false] at h
    rcases h with rfl | rfl <;> decide
  · intro a h
    simp [p] at h
    exact absurd (h.1.symm.trans h.2) (by decide)
  · intro a b c h1 h2
    simp [p] at h1 h2
    exact absurd (h1.2.symm.trans h2.1) (by decide)

/-- Illegal just outside each range, by an odd `F_CORE`, by a source that preempts itself, and by a missing pair. -/
theorem witness_BadParametersRefused_illegal :
    ¬ (78642600 < 78642600) ∧ ¬ (1500000 ≤ 1499999) ∧ ¬ (8 ∣ 9) ∧ 0 < 9 ∧
    ¬ (∀ a, (a, a) ∉ [(Source.timer, Source.timer)]) ∧
    ¬ (∀ a b c, (a, b) ∈ [(Source.timer, Source.uartRx 0), (.uartRx 0, .uartRx 1)] →
      (b, c) ∈ [(Source.timer, Source.uartRx 0), (.uartRx 0, .uartRx 1)] →
      (a, c) ∈ [(Source.timer, Source.uartRx 0), (.uartRx 0, .uartRx 1)]) := by
  refine ⟨by decide, by decide, by decide, by decide, fun h => h .timer (by decide), fun h => ?_⟩
  exact absurd (h .timer (.uartRx 0) (.uartRx 1) (by decide) (by decide)) (by decide)

theorem witness_DisabledAgentsTakeNoStep :
    State.reset.timer.tctrl.en = false ∧ State.reset.active.act = .running ∧ conf.uarts[2]? = some uart12 ∧
    uart12.tx = [] ∧ State.reset.mayDispatch .timer = false ∧ State.reset.active.ctx = .main ∧
    (State.reset.withAct spinning).active.act ≠ .running := by decide

/-- `ms * f` at both ends: 1000 and 16777215000. -/
theorem witness_TbusyArms : ∀ x ∈ [((1 : Half), 1000), (1000, 16777215)],
    (idleAt x.2).busyWaitBeneath = false ∧ (idleAt x.2).timer.mode = .idle ∧
    (idleAt x.2).timer.tickFrequency = some x.2 ∧ 1000 ≤ x.1.toNat * x.2 ∧ x.1.toNat * x.2 ≤ 16777215000 := by decide

/-- The hypotheses are those of TbusyArms; here inside a callback, with nothing spinning beneath. -/
theorem witness_TsingleTperiodArm :
    (inCallback .timer .running (idleAt 1000)).busyWaitBeneath = false ∧
    (inCallback .timer .running (idleAt 1000)).timer.mode = .idle ∧
    (inCallback .timer .running (idleAt 1000)).timer.tickFrequency = some 1000 ∧
    1000 ≤ (1 : Half).toNat * 1000 ∧ (1 : Half).toNat * 1000 ≤ 16777215000 := by decide

/-- `ms * f` at both ends: 0 and 999. -/
theorem witness_ZeroTickInterval : ∀ x ∈ [((0 : Half), 16000000), (1, 999)],
    (idleAt x.2).busyWaitBeneath = false ∧ (idleAt x.2).timer.mode = .idle ∧
    (idleAt x.2).timer.tickFrequency = some x.2 ∧ x.1.toNat * x.2 < 1000 := by decide

theorem witness_ArmingCheckFailures :
    ((armed .periodic true false 0).busyWaitBeneath = false ∧ (armed .periodic true false 0).timer.mode ≠ .idle) ∧
    (State.reset.busyWaitBeneath = false ∧ State.reset.timer.mode = .idle ∧ State.reset.timer.tickFrequency = none) ∧
    ((idleAt 16777215001).busyWaitBeneath = false ∧ (idleAt 16777215001).timer.mode = .idle ∧
      (idleAt 16777215001).timer.tickFrequency = some 16777215001 ∧ 16777215000 < (1 : Half).toNat * 16777215001) := by
  decide

theorem witness_RearmDuringBusyWaitRefused :
    ∃ f ∈ (inCallback (.uartRx 0) spinning conf).beneath,
      (inCallback (.uartRx 0) spinning conf).active.ctx = .handler (.uartRx 0) ∧ f.act = .inCmd (.tbusy 1) .spin 0 0 := by
  decide

theorem witness_TbusyPoll :
    (inCmd (.tbusy 1) .spin 0 0 (armed .busyWait false false 7)).active.act = .inCmd (.tbusy 1) .spin 0 0 ∧
    (inCmd (.tbusy 1) .spin 0 0 (armed .busyWait false false 7)).timer.tctrl.cf = false ∧
    (inCmd (.tbusy 1) .spin 0 0 (armed .busyWait false true 7)).timer.tctrl.cf = true := by decide

theorem witness_HandlerCommandsStore :
    (0x08000101 : Word) ≠ 0 ∧ otherBuild.params.rxIrqBuild = false ∧
    (conf.params.rxIrqBuild = true ∧ conf.uarts.length ≤ (3 : Byte).toNat) ∧
    (conf.params.rxIrqBuild = true ∧ conf.uarts[(2 : Byte).toNat]? = some uart12) := by decide

/-- `TVAL` equal to `TLOAD`, the upper end. -/
theorem witness_TickReads :
    (armed .oneShot true false 15999).timer.tval.toNat ≤ (armed .oneShot true false 15999).timer.tload.toNat ∧
    State.reset.timer.mode = .idle ∧ TimerInv State.reset.timer := by decide

theorem witness_CounterTick :
    ((armed .oneShot true false 1).timer.tctrl.en = true ∧ (armed .oneShot true false 1).timer.tval ≠ 0) ∧
    ((armed .oneShot true false 0).timer.tctrl.en = true ∧ (armed .oneShot true false 0).timer.tval = 0) := by decide

/-- Armed with 16000 ticks, and with 1. -/
theorem witness_CountingLaw :
    (1 ≤ 16000 ∧ (armed .periodic true false 15999).timer.tctrl.en = true ∧
      (armed .periodic true false 15999).timer.tload.toNat = 16000 - 1 ∧
      (armed .periodic true false 15999).timer.tval = (armed .periodic true false 15999).timer.tload ∧
      (armed .periodic true false 15999).timer.tctrl.cf = false) ∧
    (1 ≤ 1 ∧ ({ Timer.reset with tctrl := { en := true, tie := true, clksrc := false, cf := false } } : Timer).tload.toNat =
      1 - 1) := by decide

theorem witness_BrsynthClosedForm :
    (0 < 9600 ∧ (2 * 16000000 + 9600) / (2 * 9600) < 65536) ∧ (0 < 1200 ∧ (2 * 78642599 + 1200) / (2 * 1200) = 65535) := by
  decide

theorem witness_BrsynthStaysInField : ∀ x ∈ [(1500000, 3000000), (78642599, 1200)],
    1500000 ≤ x.1 ∧ x.1 < 78642600 ∧ 1200 ≤ x.2 ∧ x.2 ≤ 3000000 := by decide

theorem witness_InstanceCheckFirst :
    conf.uarts.length ≤ (3 : Byte).toNat ∧
    ∀ i ∈ uartCommands 3 0x41 0x20000000 1, i.wellFormed conf.params.rxIrqBuild = true := by decide

/-- In the main context, and in a callback over a send on the same instance. -/
theorem witness_NullReferenceRejected :
    conf.uarts[(2 : Byte).toNat]? = some uart12 ∧ conf.sendBeneath 2 = false ∧
    (inCallback .timer (.inCmd (.usendb 2 0x41) .spin 0 0x41) conf).uarts[(2 : Byte).toNat]? = some uart12 ∧
    (∀ i ∈ [Instr.uconfig 2 0, .urecvb 2 0, .urecvbuf 2 0 1, .urecvstr 2 0, .usetcb 2 0],
      i.wellFormed conf.params.rxIrqBuild = true) := by decide

/-- The record's fields at both ends of the rate, and just outside. -/
theorem witness_UconfigValidatesThenWrites :
    conf.uarts.length ≤ (3 : Byte).toNat ∧ conf.uarts[(2 : Byte).toNat]? = some uart12 ∧ (0xFFFFFFFE : Word) ≠ 0 ∧
    (∀ x ∈ [([0xB0, 0x04, 0x00, 0x00], 1200), ([0xC0, 0xC6, 0x2D, 0x00], 3000000), ([0xAF, 0x04, 0x00, 0x00], 1199),
        ([0xC1, 0xC6, 0x2D, 0x00], 3000001)],
      (withMem (bytesAt 0x20000000 (x.1 ++ [0x01, 0x03])) conf).memRead 0x20000000 4 = .ok x.2 ∧
      (withMem (bytesAt 0x20000000 (x.1 ++ [0x01, 0x03])) conf).memRead (0x20000000 + 4) 1 = .ok 1 ∧
      (withMem (bytesAt 0x20000000 (x.1 ++ [0x01, 0x03])) conf).memRead (0x20000000 + 5) 1 = .ok 3) := by decide

theorem witness_UnconfiguredTransferRefused :
    ∃ u, State.reset.uarts[(0 : Byte).toNat]? = some u ∧ u.configured = false ∧ (0x20000000 : Word) ≠ 0 ∧
      State.reset.sendBeneath 0 = false ∧ Instr.sendInst (.urecvb 0 0x20000000) = none := ⟨Uart.reset Config.defaultParams 0, by decide⟩

/-- Idle shifter, busy shifter, transmitter off; by USENDB, and by a buffer whose byte is in memory. -/
theorem witness_SendWritesDataSlot :
    (∀ u ∈ [uart12, { uart12 with tx := [true] }, { uart12 with ucr := { uart12.ucr with txen := false } }],
      (uartsAre u).uarts[(1 : Byte).toNat]? = some u ∧ u.configured = true ∧ (uartsAre u).sendBeneath 1 = false) ∧
    (withMem [(0x20000010, 0x48)] conf).readByte 0x20000010 = .ok 0x48 ∧ (0x20000010 : Word) ≠ 0 ∧ (1 : Word) ≠ 0 ∧
    (uart12.ucr.uen = true ∧ uart12.ucr.txen = true ∧ uart12.tx = []) := by decide

theorem witness_ZeroSizeBufferCompletes :
    conf.uarts[(1 : Byte).toNat]? = some uart12 ∧ uart12.configured = true ∧ conf.sendBeneath 1 = false ∧
    (0x20000010 : Word) ≠ 0 := by decide

/-- Byte 1 of 3 is not the last and byte 2 is; a byte other than 0 is not the terminator and 0 is. -/
theorem witness_SendPoll :
    (∀ tc ∈ [false, true], (uartsAre { uart12 with usr := { tc := tc, rxne := false } }).uarts[(1 : Byte).toNat]? =
      some { uart12 with usr := { tc := tc, rxne := false } }) ∧
    (inCmd (.usendb 1 0x41) .spin 0 0x41 conf).active.act = .inCmd (.usendb 1 0x41) .spin 0 0x41 ∧
    (decide ((3 : Word).toNat ≤ (1 : Word).toNat + 1) = false ∧ decide ((3 : Word).toNat ≤ (2 : Word).toNat + 1) = true) ∧
    (decide ((0x69 : Byte) = 0) = false ∧ decide ((0 : Byte) = 0) = true) := by decide

/-- At the wrap: byte 1 of a buffer at 0xFFFFFFFF is at address 0. -/
theorem witness_SendNextByte :
    (withMem [(0, 0x69)] conf).uarts[(1 : Byte).toNat]? = some uart12 ∧
    (withMem [(0, 0x69)] conf).readByte (0xFFFFFFFF + 1) = .ok 0x69 ∧
    (inCmd (.usendstr 1 0xFFFFFFFF) .start 1 0 (withMem [(0, 0x69)] conf)).active.act =
      .inCmd (.usendstr 1 0xFFFFFFFF) .start 1 0 ∧
    uart12.ucr.uen = true ∧ uart12.ucr.txen = true ∧ uart12.tx = [] := by decide

/-- A send on the same instance beneath, nothing beneath, and a receive beneath. -/
theorem witness_NestedSendRefused :
    (∃ f ∈ (inCallback .timer (.inCmd (.usendb 1 0x41) .spin 0 0x41) conf).beneath,
      f.act = .inCmd (.usendb 1 0x41) .spin 0 0x41 ∧ Instr.sendInst (.usendb 1 0x41) = some 1 ∧
      (inCallback .timer (.inCmd (.usendb 1 0x41) .spin 0 0x41) conf).active.ctx = .handler .timer) ∧
    conf.active.ctx = .main ∧ Instr.sendInst (.urecvb 1 4) ≠ some 1 ∧ Instr.sendInst (.usendb 2 0x41) ≠ some 1 := by decide

/-- No byte waiting; a byte waiting and the pointer at the top of memory. -/
theorem witness_ReceiveCommands :
    Memory.wf (uartsAre (waiting 0)).mem = true ∧ conf.uarts[(1 : Byte).toNat]? = some uart12 ∧
    uart12.usr.rxne = false ∧ (uartsAre (waiting 0)).uarts[(1 : Byte).toNat]? = some (waiting 0) ∧
    (waiting 0).configured = true ∧ (0xFFFFFFFF : Word) ≠ 0 ∧ (2 : Word) ≠ 0 ∧ (waiting 0).usr.rxne = true ∧
    Params.backs (uartsAre (waiting 0)).params 0xFFFFFFFF = true := by decide

theorem witness_ReceivePoll :
    Memory.wf (withMem [(0xFFFFFFFF, 0x41)] (uartsAre (waiting 0))).mem = true ∧
    (inCmd (.urecvstr 1 0xFFFFFFFF) .spin 1 0 (uartsAre (waiting 0))).active.act =
      .inCmd (.urecvstr 1 0xFFFFFFFF) .spin 1 0 ∧
    Params.backs conf.params (0xFFFFFFFF + 1) = true ∧ (waiting 0).usr.rxne = true ∧ uart12.usr.rxne = false := by decide

/-- The last bit, and a bit before it. -/
theorem witness_FrameShiftsOut : ∀ bits ∈ [[true], [false, true]],
    (uartsAre { uart12 with tx := bits }).uarts[1]? = some { uart12 with tx := bits } ∧ bits ≠ [] := by decide

/-- Configured with the receiver off; on with nothing waiting; on with a byte waiting; never configured. -/
theorem witness_FrameArrival :
    (∃ u, (uartsAre u).uarts[0]? = some u ∧ u.configured = true ∧ (u.ucr.uen && u.ucr.rxen) = false) ∧
    (∃ u, (uartsAre u).uarts[0]? = some u ∧ u.configured = true ∧ u.ucr.uen = true ∧ u.ucr.rxen = true ∧
      u.usr.rxne = false) ∧
    (∃ u, (uartsAre u).uarts[0]? = some u ∧ u.configured = true ∧ u.ucr.uen = true ∧ u.ucr.rxen = true ∧
      u.usr.rxne = true) ∧
    (∃ u, (uartsAre u).uarts[0]? = some u ∧ u.configured = false) :=
  ⟨⟨{ uart12 with ucr := { uart12.ucr with rxen := false } }, by decide⟩, ⟨uart12, by decide⟩, ⟨waiting 1, by decide⟩,
    ⟨{ uart12 with configured := false }, by decide⟩⟩

/-- A pending request with and without a callback, in OneShot and in Periodic; and the return of the callback. -/
theorem witness_TimerHandler :
    (∀ x ∈ [(TimerMode.oneShot, some (0x08000101 : Word)), (.oneShot, none), (.periodic, none)],
      let s := State.reset.withTimer { (armed x.1 true true 5).timer with irqPending := true, callback := x.2 }
      s.timer.irqPending = true ∧ Source.timer ∉ s.linesOff ∧ s.stackAdmits .timer = true ∧ s.timer.callback = x.2 ∧
      s.timer.mode = x.1) ∧
    ((inCallback .timer spinning State.reset).active.ctx = .handler .timer ∧
      (inCallback .timer spinning State.reset).active.act = .running ∧
      (inCallback .timer spinning State.reset).beneath = { ctx := .main, act := spinning, result := none } :: []) := by
  decide

theorem witness_ReceiveHandler :
    (∀ u ∈ [waiting 0x5A, { waiting 0x5A with callback := some 0x08000301 }],
      (uartsAre u).uarts[0]? = some u ∧ (uartsAre u).params.rxIrqBuild = true ∧ u.configured = true ∧
      u.usr.rxne = true ∧ u.ucr.rxie = true ∧ Source.uartRx 0 ∉ (uartsAre u).linesOff ∧
      (uartsAre u).stackAdmits (.uartRx 0) = true) ∧
    ((inCallback (.uartRx 0) spinning conf).active.ctx = .handler (.uartRx 0) ∧
      (inCallback (.uartRx 0) spinning conf).active.act = .running) := by decide

/-- No byte, no request, line off, and a callback the source does not preempt. -/
theorem witness_DispatchNeedsRequestLineAndPriority :
    (conf.uarts[0]? = some uart12 ∧ uart12.usr.rxne = false) ∧ State.reset.timer.irqPending = false ∧
    Source.timer ∈ (State.reset.setLine .timer false).linesOff ∧
    ((inCallback .timer .running State.reset).handlerSources = Source.timer :: [] ∧
      (Source.timer, Source.timer) ∉ State.reset.params.preempts) := by decide

/-- An expiry; a dispatch in OneShot mode. -/
theorem witness_StepKeepsTimerInv :
    TimerInv (nextIs .tick (armed .periodic true false 0)).timer ∧
    ∃ t, step (nextIs .tick (armed .periodic true false 0)) = .next t := ⟨by decide, has_next (by decide)⟩

/-- The dispatch of a source that preempts the callback it interrupts. -/
def nested : State :=
  nextIs (.dispatch (.uartRx 0)) (inCallback .timer spinning
    { uartsAre { waiting 0x5A with callback := some 0x08000301 } with
      params := { Config.defaultParams with preempts := [(.uartRx 0, .timer)] } })

theorem witness_StepKeepsStackInv :
    StackInv nested ∧ ∃ t, step nested = .next t ∧ decide (t.handlerSources = [.uartRx 0, .timer]) = true :=
  ⟨by decide, next_with _ (by decide)⟩

theorem witness_NoSourceTwiceOnStack :
    let s := inCallback (.uartRx 0) .running { nested with beneath := [] }
    StackInv s ∧ s.paramsOk = true := by decide

theorem witness_StepKeepsCommandInv :
    CommandInv (nextIs .sequencer (inCmd (.usendb 1 0x41) .spin 0 0x41 conf)) ∧
    ∃ t, step (nextIs .sequencer (inCmd (.usendb 1 0x41) .spin 0 0x41 conf)) = .next t := ⟨by decide, has_next (by decide)⟩

/-- A TBUSY beneath a callback that ran TDEINIT: the timer is in Idle. -/
theorem busyWaitInv_spinning {m : TimerMode} {s : State} (hm : m = .busyWait ∨ m = .idle) (ht : s.timer.mode = m)
    (hs : ∀ f ∈ s.active :: s.beneath, f.act = .running ∨ f.act = spinning) : BusyWaitInv s := by
  intro f hf ms ph k b h
  rcases hs f hf with h' | h' <;> rw [h'] at h
  · cases h
  · cases h
    exact ⟨rfl, ht ▸ hm⟩

theorem witness_StepKeepsBusyWaitInv :
    let s := nextIs (.issue { cw := 0x17000000, a1 := 0, a2 := 0 })
      (inCallback (.uartRx 0) spinning (armed .busyWait false false 7))
    StackInv s ∧ BusyWaitInv s ∧ ∃ t, step s = .next t :=
  ⟨by decide, busyWaitInv_spinning (.inl rfl) rfl (by decide), has_next (by decide)⟩

/-- One change for each clause: an arming command, a poll that sees `CF`, a dispatch in OneShot, TDEINIT. -/
theorem witness_ModeTransitions : ∀ s ∈
    [nextIs (.issue { cw := 0x11000001, a1 := 0, a2 := 0 }) (idleAt 16000000),
      nextIs .sequencer ((armed .busyWait false true 7).withAct spinning),
      nextIs (.dispatch .timer) (State.reset.withTimer { (armed .oneShot true true 5).timer with irqPending := true }),
      nextIs (.issue { cw := 0x17000000, a1 := 0, a2 := 0 }) (armed .periodic true true 5)],
    (∀ f ∈ s.active :: s.beneath, f.act = .running ∨ (f.act = spinning ∧ s.timer.mode = .busyWait)) ∧
    field (fun t => decide (t.timer.mode ≠ s.timer.mode)) (step s) = some true := by decide

/-- A frame in flight with its stop bit still to come; the last bit going out. -/
theorem witness_StepKeepsLineInv :
    (∀ u ∈ (nextIs (.txShift 0) (uartsAre { uart12 with tx := [false, true], txd := false })).uarts, LineInv u) ∧
    ∃ t, step (nextIs (.txShift 0) (uartsAre { uart12 with tx := [false, true], txd := false })) = .next t :=
  ⟨by decide, has_next (by decide)⟩

theorem witness_StepKeepsCallbacks :
    let s := nextIs .tick (State.reset.withTimer { (armed .oneShot true true 5).timer with callback := some 4 })
    CallbackInv s ∧ s.timer.callback ≠ none ∧ (∃ t, step s = .next t) ∧
    (uartsAre { uart12 with callback := some 4 }).uarts[1]? = some { uart12 with callback := some 4 } :=
  ⟨by decide, by decide, has_next (by decide), by decide⟩

theorem witness_StepKeepsMemoryForm :
    Memory.wf (nextIs (.hostWrite 5 0) (withMem [(5, 1)] State.reset)).mem = true ∧
    ∃ t, step (nextIs (.hostWrite 5 0) (withMem [(5, 1)] State.reset)) = .next t ∧ decide (t.mem = []) = true :=
  ⟨by decide, next_with _ (by decide)⟩

theorem witness_CountFlagClearers :
    let s := nextIs .sequencer ((armed .busyWait false true 7).withAct spinning)
    s.timer.tctrl.cf = true ∧ ∃ t, step s = .next t ∧ decide (t.timer.tctrl.cf = false) = true :=
  ⟨by decide, next_with _ (by decide)⟩

/-- A rise and a fall. -/
theorem witness_TimerRequestChangers :
    (∃ t, step (nextIs .tick (armed .oneShot true false 0)) = .next t ∧ t.timer.irqPending = true) ∧
    ∃ t, step (nextIs (.dispatch .timer)
      (State.reset.withTimer { (armed .oneShot true true 5).timer with irqPending := true })) = .next t ∧
      (!t.timer.irqPending) = true := ⟨next_with _ (by decide), next_with _ (by decide)⟩

theorem witness_TransmissionCompleteChangers :
    (∃ t, step (nextIs (.txShift 1) (uartsAre { uart12 with tx := [true] })) = .next t ∧
      decide (t.uarts[1]? = some { uart12 with usr := { tc := true, rxne := false } }) = true) ∧
    ∃ t, step (nextIs .sequencer (inCmd (.usendb 1 0x41) .spin 0 0x41
        (uartsAre { uart12 with usr := { tc := true, rxne := false } }))) = .next t ∧
      decide (t.uarts[1]? = some uart12) = true := ⟨next_with _ (by decide), next_with _ (by decide)⟩

theorem witness_InstancesAreIndependent :
    ¬ (nextIs (.rxFrame 0 0x5A) conf).touchesUart 1 ∧ ∃ t, step (nextIs (.rxFrame 0 0x5A) conf) = .next t :=
  ⟨by simp [State.touchesUart, State.actingCommand, State.issuedCommand, State.steppedCommand, State.nextEvent, nextIs],
    has_next (by decide)⟩

/-- By the host, and by a receive command's store in a poll and at issue. -/
theorem witness_MemoryWriters :
    (∃ t, step (nextIs (.hostWrite 5 1) State.reset) = .next t ∧
      decide (Memory.read t.mem 5 ≠ Memory.read State.reset.mem 5) = true) ∧
    (∃ t, step (nextIs .sequencer (inCmd (.urecvb 1 5) .spin 0 0 (uartsAre (waiting 1)))) = .next t ∧
      decide (Memory.read t.mem 5 ≠ Memory.read State.reset.mem 5) = true) ∧
    ∃ t, step (nextIs (.issue { cw := 0x26010000, a1 := 5, a2 := 0 }) (uartsAre (waiting 1))) = .next t ∧
      decide (Memory.read t.mem 5 ≠ Memory.read State.reset.mem 5) = true :=
  ⟨next_with _ (by decide), next_with _ (by decide), next_with _ (by decide)⟩

theorem witness_FailingStatusChangesNothing :
    ∃ t, exec (.usendbuf 1 0 3) conf = .next t ∧
      decide (t.active.act = .running ∧ t.active.result = some { st := .nullPointerError, rv := 0 }) = true :=
  next_with _ (by decide)

theorem witness_CommandsLeaveOtherFramesAlone :
    (∃ t, exec .tdeinit (inCallback .timer spinning State.reset) = .next t) ∧
    ∃ t, perform .sequencer (State.reset.withAct spinning) = .next t := ⟨has_next (by decide), has_next (by decide)⟩

theorem witness_NonReceivingCommandsFrame :
    (∃ t, exec .telapsed State.reset = .next t) ∧ (∃ t, exec (.tbusy 1) (idleAt 1000) = .next t) ∧
    ∃ t, exec (.usendb 1 0x41) conf = .next t := ⟨has_next (by decide), has_next (by decide), has_next (by decide)⟩

theorem witness_HostMemoryPrimitives :
    (Memory.wf State.reset.mem = true ∧
      State.reset.writeByte 0xFFFFFFFF 1 = .ok (withMem [(0xFFFFFFFF, 1)] State.reset)) ∧
    (State.reset.readByte 0xFFFFFFFF = .ok 0 ∧ State.reset.readByte (0xFFFFFFFF + 1) = .ok 0 ∧
      State.reset.readByte (0xFFFFFFFF + 2) = .ok 0 ∧ State.reset.readByte (0xFFFFFFFF + 3) = .ok 0) := by decide

/-- A platform that backs only the first `n` bytes from address 4 on. -/
def backsFrom4 (n : Nat) (s : State) : State := { s with params := { s.params with regions := [{ base := 4, size := n }] } }

/-- Backed and not; the first and the last of UCONFIG's six bytes not backed; byte 0 and byte 1 of a transfer. -/
theorem witness_HostAccesses :
    (State.reset.active.act = .running ∧ Params.backs State.reset.params 0xFFFFFFFF = true) ∧
    ((unbacked State.reset).active.act = .running ∧ Params.backs (unbacked State.reset).params 4 = false) ∧
    (∀ j ∈ [0, 5], (backsFrom4 j conf).uarts[(1 : Byte).toNat]? = some uart12 ∧
      (∀ m < j, Params.backs (backsFrom4 j conf).params (4 + BitVec.ofNat 32 m) = true) ∧
      Params.backs (backsFrom4 j conf).params (4 + BitVec.ofNat 32 j) = false) ∧
    ((unbacked (uartsAre (waiting 1))).uarts[(1 : Byte).toNat]? = some (waiting 1) ∧ (4 : Word) ≠ 0 ∧ (1 : Word) ≠ 0 ∧
      Params.backs (unbacked (uartsAre (waiting 1))).params 4 = false ∧ (waiting 1).configured = true ∧
      (unbacked (uartsAre (waiting 1))).sendBeneath 1 = false ∧ (waiting 1).usr.rxne = true) ∧
    ((inCmd (.usendstr 1 4) .start 1 0 (backsFrom4 1 conf)).active.act = .inCmd (.usendstr 1 4) .start 1 0 ∧
      (inCmd (.urecvstr 1 4) .spin 1 0 (backsFrom4 1 conf)).active.act = .inCmd (.urecvstr 1 4) .spin 1 0 ∧
      Params.backs (backsFrom4 1 conf).params (4 + 1) = false) := by decide

end Sys2Proof.Tests
end

section
/-!
PROOFS. The parameter constraints (00_scope.md R5, R6): what each executable check says, and the two outcomes of a step.
-/

namespace Sys2Proof.Machine

/-- R6 (a), with `F_CORE` positive (R5); the divider `Config.clkDiv` is 8 by definition. -/
theorem Params.fCoreOk_iff (p : Params) : Params.fCoreOk p = true ↔ 0 < p.fCore ∧ 8 ∣ p.fCore := by
  simp only [Params.fCoreOk, Bool.and_eq_true, decide_eq_true_eq, Nat.dvd_iff_mod_eq_zero]
  exact Iff.rfl

/-- R6 (b), (c): the divisor of R160 lies in 1 to 65535 at the slowest and the fastest rate just for these `F_REF`. -/
theorem Params.fRefOk_iff (p : Params) : Params.fRefOk p = true ↔ p.fRef < 78642600 ∧ 1500000 ≤ p.fRef := by
  simp only [Params.fRefOk, Bool.and_eq_true, decide_eq_true_eq]
  simp only [Config.baudMin, Config.baudMax]
  omega

/-- R6 (d): the check over pairs of the list is irreflexivity and transitivity of the relation it holds. -/
theorem Params.preemptsOk_iff (p : Params) :
    Params.preemptsOk p = true ↔
      (∀ a, (a, a) ∉ p.preempts) ∧
        ∀ a b c, (a, b) ∈ p.preempts → (b, c) ∈ p.preempts → (a, c) ∈ p.preempts := by
  simp only [Params.preemptsOk, Params.preemptsRel, List.all_eq_true, Bool.and_eq_true, Bool.or_eq_true,
    Bool.not_eq_true', decide_eq_true_eq, decide_eq_false_iff_not]
  constructor
  · intro check
    refine ⟨fun a haa => (check _ haa).1 rfl, fun a b c hab hbc => ?_⟩
    exact ((check _ hab).2 _ hbc).resolve_left (fun hne => hne rfl)
  · rintro ⟨irrefl, trans⟩ ⟨a, b⟩ hab
    refine ⟨fun (hEq : a = b) => irrefl b (hEq ▸ hab), ?_⟩
    rintro ⟨b', c⟩ hbc
    by_cases hEq : b = b'
    · subst hEq
      exact .inr (trans a b c hab hbc)
    · exact .inl hEq

/-- With `F_CORE` and `N_UART` positive (R5), the step's test of the parameters is R6 (a) to (d). -/
theorem State.paramsOk_iff {s : State} (hcore : 0 < s.params.fCore) (huart : 0 < s.uarts.length) :
    s.paramsOk = true ↔
      8 ∣ s.params.fCore ∧ s.params.fRef < 78642600 ∧ 1500000 ≤ s.params.fRef ∧
        (∀ a, (a, a) ∉ s.params.preempts) ∧
        ∀ a b c, (a, b) ∈ s.params.preempts → (b, c) ∈ s.params.preempts → (a, c) ∈ s.params.preempts := by
  simp only [State.paramsOk, State.nUart, Bool.and_eq_true, decide_eq_true_eq, Params.fCoreOk_iff,
    Params.fRefOk_iff, Params.preemptsOk_iff, hcore, huart, true_and, and_assoc]

/-- Under accepted parameters a step is the step of the agent the event names (R10). -/
theorem step_of_paramsOk {s : State} (h : s.paramsOk = true) : step s = perform s.nextEvent s.takeEvent :=
  if_pos h

/-- Under any other parameters there is no step (R6). -/
theorem step_of_not_paramsOk {s : State} (h : ¬ s.paramsOk = true) : step s = .refused .badParameters :=
  if_neg h

/-- Settles O7: the step's executable test of the parameters is R6 (a) to (d), and the step branches on that test. -/
theorem badParametersRefused : Obligations.BadParametersRefused := by
  intro s hcore huart
  rw [← State.paramsOk_iff hcore huart]
  exact ⟨step_of_paramsOk, step_of_not_paramsOk⟩

end Sys2Proof.Machine
end

section
/-!
PROOFS. What one step does to each part of the state, said once over the shapes of Laws/Exec and Laws/Step: to the
parameters and the context stack, to the timer, and to the UART instances.
-/

namespace Sys2Proof.Machine

/-! Commands: what a step of a command, at issue or later, leaves alone (R235). -/

/-- The parameters, the tag of the active frame and every frame beneath are the same. -/
structure State.SameContext (s t : State) : Prop where
  params : t.params = s.params
  ctx : t.active.ctx = s.active.ctx
  beneath : t.beneath = s.beneath

/-- What a write may do to one instance: each is one of the model's own updates of an instance. -/
inductive UartChange (u : Uart) : Uart → Prop where
  | keep : UartChange u u
  | configure (p : Params) (r : ConfigRecord) : UartChange u (u.configure p r)
  | callback (a : Word) (ha : a ≠ 0) : UartChange u { u with callback := some a }
  | write (v : Word) (u' : Uart) (h : u.writeUdr v = .ok u') : UartChange u u'
  | clearTc : UartChange u u.clearTc
  | read (clears : Bool) : UartChange u (u.readUdr clears).2
  | shift : UartChange u u.shift
  | take (d : Byte) : UartChange u (u.takeByte d)

/-- Instance `j` of `us`, and no other, is changed. -/
def UartWritten (j : Nat) (us us' : List Uart) : Prop :=
  ∃ u u', us[j]? = some u ∧ UartChange u u' ∧ us' = us.set j u'

/-- What a poll of `RECV1` leaves alone, and what it does to the instances (R185). -/
theorem recvPoll_frame {cmd : Instr} {n : Byte} {u : Uart} {base k : Word} {last : Byte → Bool} {s t : State}
    (hu : s.uarts[n.toNat]? = some u) (h : recvPoll cmd n u base k last s = .next t) :
    s.SameContext t ∧ t.timer = s.timer ∧ (t.uarts = s.uarts ∨ UartWritten n.toNat s.uarts t.uarts) := by
  rcases recvPoll_eq_next.mp h with ⟨-, rfl⟩ | ⟨-, s1, hw, h⟩
  · exact ⟨⟨rfl, rfl, rfl⟩, rfl, .inl rfl⟩
  · obtain ⟨-, rfl⟩ := writeByte_eq_ok.mp hw
    rcases recvAfter_eq_next.mp h with ⟨-, rfl⟩ | ⟨-, rfl⟩ <;>
      exact ⟨⟨rfl, rfl, rfl⟩, rfl, .inr ⟨u, _, hu, .read _, rfl⟩⟩

theorem uartInst_of_blockingOn {i : Instr} {n : Byte} (h : Instr.blockingOn i = some (some n)) :
    Instr.uartInst i = some n := by
  cases i <;> simp_all [Instr.blockingOn, Instr.uartInst]

theorem uartInst_of_sendInst {i : Instr} {n : Byte} (h : Instr.sendInst i = some n) :
    Instr.uartInst i = some n := by
  cases i <;> simp_all [Instr.sendInst, Instr.uartInst]

/-- A command's step at issue changes no parameter and no other frame. -/
theorem exec_sameContext {i : Instr} {s t : State} (h : exec i s = .next t) : s.SameContext t := by
  cases exec_shape h with
  | ended _ _ h => subst h; exact ⟨rfl, rfl, rfl⟩
  | timer _ _ h => subst h; exact ⟨rfl, rfl, rfl⟩
  | busy _ _ _ h => subst h; exact ⟨rfl, rfl, rfl⟩
  | config _ _ _ _ _ _ _ h => subst h; exact ⟨rfl, rfl, rfl⟩
  | callback _ _ _ _ _ _ h => subst h; exact ⟨rfl, rfl, rfl⟩
  | send _ _ _ _ _ _ _ _ h => subst h; exact ⟨rfl, rfl, rfl⟩
  | setup _ _ _ _ _ _ h => subst h; exact ⟨rfl, rfl, rfl⟩
  | recv _ _ _ _ _ hu _ _ h => exact (recvPoll_frame hu h).1

/-- A command's step at issue changes at most the instance the command names. -/
theorem exec_uarts {i : Instr} {s t : State} (h : exec i s = .next t) :
    t.uarts = s.uarts ∨ ∃ n, Instr.uartInst i = some n ∧ UartWritten n.toNat s.uarts t.uarts := by
  cases exec_shape h with
  | ended _ _ h => subst h; exact .inl rfl
  | timer _ _ h => subst h; exact .inl rfl
  | busy _ _ _ h => subst h; exact .inl rfl
  | config n p u r hi hu _ ht =>
    subst hi ht
    exact .inr ⟨n, rfl, u, _, hu, .configure _ r, rfl⟩
  | callback n a u hi hu ha ht =>
    subst hi ht
    exact .inr ⟨n, rfl, u, _, hu, .callback a ha, rfl⟩
  | send n u u' b hi hu _ hw h =>
    subst h
    exact .inr ⟨n, uartInst_of_sendInst hi, u, u', hu, .write _ u' hw, rfl⟩
  | setup _ _ _ _ _ _ h => subst h; exact .inl rfl
  | recv n u _ _ hi hu _ _ h =>
    exact (recvPoll_frame hu h).2.2.imp_right fun hw => ⟨n, uartInst_of_blockingOn hi, hw⟩

/-- A transceiver command's step at issue leaves the timer alone. -/
theorem exec_timer_of_uartInst {i : Instr} {n : Byte} {s t : State} (hi : Instr.uartInst i = some n)
    (h : exec i s = .next t) : t.timer = s.timer := by
  cases exec_shape h with
  | ended _ _ h => subst h; rfl
  | timer _ hi' _ => rw [hi'] at hi; cases hi
  | busy _ _ hi' _ => subst hi'; cases hi
  | config _ _ _ _ _ _ _ h => subst h; rfl
  | callback _ _ _ _ _ _ h => subst h; rfl
  | send _ _ _ _ _ _ _ _ h => subst h; rfl
  | setup _ _ _ _ _ _ h => subst h; rfl
  | recv _ _ _ _ _ hu _ _ h => exact (recvPoll_frame hu h).2.1

/-! Commands: what they do to the timer (R120 to R128, R135). -/

/-- What a command may do to the timer. -/
inductive CommandTimer (i : Instr) (a b : Timer) : Prop where
  | keep (h : b = a)
  | clock (c : Bool) (f : Nat) (hi : i = .tinit c)
      (h : b = { a with tctrl := { a.tctrl with clksrc := c }, tickFrequency := some f })
  | callback (r : Word) (hi : i = .tsetcb r) (hr : r ≠ 0) (h : b = { a with callback := some r })
  | arm (ms : Half) (n : Nat) (hi : i = .tbusy ms) (hm : a.mode = .idle) (hn : n ≤ Config.maxTicks)
      (h : b = a.arm n .busyWait)
  | armIrq (ms : Half) (n : Nat) (mode : TimerMode)
      (hi : (i = .tsingle ms ∧ mode = .oneShot) ∨ (i = .tperiod ms ∧ mode = .periodic))
      (hm : a.mode = .idle) (hn : n ≤ Config.maxTicks) (h : b = a.armWithIrq n mode)
  | deinit (hi : (∃ ms, i = .tbusy ms) ∨ i = .tdeinit) (h : b = a.deinit)

theorem exec_timer {i : Instr} {s t : State} (h : exec i s = .next t) : CommandTimer i s.timer t.timer := by
  cases i with
  | tinit c => exact .clock c _ rfl (congrArg State.timer (exec_tinit_eq_next.mp h))
  | tbusy ms =>
    rcases exec_tbusy_eq_next.mp h with ⟨-, ⟨-, rfl⟩ | ⟨hm, f, -, ⟨-, rfl⟩ | ⟨ho, ⟨-, rfl⟩ | ⟨-, rfl⟩⟩⟩⟩
    · exact .keep rfl
    · exact .keep rfl
    · exact .deinit (.inl ⟨ms, rfl⟩) rfl
    · exact .arm ms _ rfl hm (tickCount_le ho) rfl
  | tsingle ms =>
    rcases exec_tsingle_eq_next.mp h with ⟨-, ⟨-, rfl⟩ | ⟨hm, f, -, ⟨-, rfl⟩ | ⟨ho, -, rfl⟩⟩⟩
    · exact .keep rfl
    · exact .keep rfl
    · exact .armIrq ms _ _ (.inl ⟨rfl, rfl⟩) hm (tickCount_le ho) rfl
  | tperiod ms =>
    rcases exec_tperiod_eq_next.mp h with ⟨-, ⟨-, rfl⟩ | ⟨hm, f, -, ⟨-, rfl⟩ | ⟨ho, -, rfl⟩⟩⟩
    · exact .keep rfl
    · exact .keep rfl
    · exact .armIrq ms _ _ (.inr ⟨rfl, rfl⟩) hm (tickCount_le ho) rfl
  | tsetcb r =>
    rcases exec_tsetcb_eq_next.mp h with ⟨-, rfl⟩ | ⟨hr, rfl⟩
    · exact .keep rfl
    · exact .callback r rfl hr rfl
  | telapsed => cases exec_telapsed_eq_next.mp h; exact .keep rfl
  | tremain => cases exec_tremain_eq_next.mp h; exact .keep rfl
  | tdeinit => exact .deinit (.inr rfl) (congrArg State.timer (exec_tdeinit_eq_next.mp h))
  | uconfig _ _ => exact .keep (exec_timer_of_uartInst rfl h)
  | usendb _ _ => exact .keep (exec_timer_of_uartInst rfl h)
  | urecvb _ _ => exact .keep (exec_timer_of_uartInst rfl h)
  | usendbuf _ _ _ => exact .keep (exec_timer_of_uartInst rfl h)
  | urecvbuf _ _ _ => exact .keep (exec_timer_of_uartInst rfl h)
  | usendstr _ _ => exact .keep (exec_timer_of_uartInst rfl h)
  | urecvstr _ _ => exact .keep (exec_timer_of_uartInst rfl h)
  | usetcb _ _ => exact .keep (exec_timer_of_uartInst rfl h)

/-- What a later step of a command in progress does: to the context, to the timer and to the instances (R240). -/
theorem resume_frame {cmd : Instr} {ph : Phase} {k : Word} {b : Byte} {s t : State}
    (h : resume cmd ph k b s = .next t) :
    s.SameContext t ∧ CommandTimer cmd s.timer t.timer ∧
      (t.uarts = s.uarts ∨ ∃ n, Instr.uartInst cmd = some n ∧ UartWritten n.toNat s.uarts t.uarts) := by
  cases resume_shape h with
  | same h => subst h; exact ⟨⟨rfl, rfl, rfl⟩, .keep rfl, .inl rfl⟩
  | busy ms hi _ h => subst h; exact ⟨⟨rfl, rfl, rfl⟩, .deinit (.inl ⟨ms, hi⟩) rfl, .inl rfl⟩
  | noInstance _ _ _ h => subst h; exact ⟨⟨rfl, rfl, rfl⟩, .keep rfl, .inl rfl⟩
  | send n u u' _ hi hu hw h =>
    subst h
    exact ⟨⟨rfl, rfl, rfl⟩, .keep rfl, .inr ⟨n, uartInst_of_sendInst hi, u, u', hu, .write _ u' hw, rfl⟩⟩
  | sent n u _ hi hu _ h =>
    rcases h with rfl | rfl <;>
      exact ⟨⟨rfl, rfl, rfl⟩, .keep rfl, .inr ⟨n, uartInst_of_sendInst hi, u, _, hu, .clearTc, rfl⟩⟩
  | recv n u _ _ hi hu _ h =>
    obtain ⟨hc, ht, hw⟩ := recvPoll_frame hu h
    exact ⟨hc, .keep ht, hw.imp_right fun hw => ⟨n, uartInst_of_blockingOn hi, hw⟩⟩

/-! Handler exit and dispatch. -/

/-- The exit action writes the timer only, and only in OneShot mode after the timer's handler (R229, R231). -/
theorem exitAction_cases (s : State) (src : Source) :
    s.exitAction src = s ∨ (src = .timer ∧ s.timer.mode = .oneShot ∧ s.exitAction src = s.deinitTimer) := by
  cases src with
  | uartRx i => exact .inl rfl
  | timer =>
    by_cases hm : s.timer.mode = .oneShot
    · exact .inr ⟨rfl, hm, if_pos hm⟩
    · exact .inl (if_neg hm)

/-- The timer's dispatch enters its handler, or runs the exit action at once (R229). -/
theorem dispatchTimer_cases (s : State) :
    (∃ h, s.timer.callback = some h ∧
      s.dispatchTimer = (s.withTimer { s.timer with irqPending := false }).enterHandler .timer h none) ∨
    (s.timer.callback = none ∧
      s.dispatchTimer = (s.withTimer { s.timer with irqPending := false }).exitAction .timer) := by
  unfold State.dispatchTimer
  cases hc : s.timer.callback with
  | some h => exact .inl ⟨h, rfl, rfl⟩
  | none => exact .inr ⟨rfl, rfl⟩

/-- A receive dispatch reads the data slot, and enters the handler if there is one (R230). -/
theorem dispatchUart_cases (s : State) (i : Nat) (u : Uart) :
    (∃ h arg, s.dispatchUart i u =
      (s.withUart i (u.readUdr s.params.rxneClearedByRead).2).enterHandler (.uartRx i) h arg) ∨
    s.dispatchUart i u = s.withUart i (u.readUdr s.params.rxneClearedByRead).2 := by
  unfold State.dispatchUart
  cases u.callback with
  | some h => exact .inl ⟨h, _, rfl⟩
  | none => exact .inr rfl

/-! One step of the machine. -/

theorem actingCommand_of_issue {s : State} {c : Command} {i : Instr} (he : s.nextEvent = .issue c)
    (hr : s.active.act.isRunning = true) (hd : decode c = .ok i) : s.actingCommand = some i := by
  simp [State.actingCommand, State.issuedCommand, he, hr, hd, Except.toOption]

theorem actingCommand_of_poll {s : State} {cmd : Instr} {ph : Phase} {k : Word} {b : Byte}
    (he : s.nextEvent = .sequencer) (ha : s.active.act = .inCmd cmd ph k b) : s.actingCommand = some cmd := by
  simp [State.actingCommand, State.issuedCommand, State.steppedCommand, he, ha]

/-- What a step does to the context stack (R40, R228, R231). -/
inductive StackChange (s t : State) : Prop where
  | keep (hc : t.active.ctx = s.active.ctx) (hb : t.beneath = s.beneath)
  | enter (src : Source) (hm : s.mayDispatch src = true) (hc : t.active.ctx = .handler src)
      (hb : t.beneath = s.active :: s.beneath)
  | ret (src : Source) (hc : s.active.ctx = .handler src) (hb : s.beneath = t.active :: t.beneath)

/-- What a step does to the timer, and who does it. -/
inductive TimerChange (s t : State) : Prop where
  | keep (h : t.timer = s.timer)
  | command (i : Instr) (hi : s.actingCommand = some i) (h : CommandTimer i s.timer t.timer)
  | tick (he : s.nextEvent = .tick) (hen : s.timer.tctrl.en = true) (h : t.timer = s.timer.tick)
  | dispatch (he : s.nextEvent = .dispatch .timer) (h : t.timer = { s.timer with irqPending := false })
  | dispatchExit (he : s.nextEvent = .dispatch .timer) (hcb : s.timer.callback = none)
      (hm : s.timer.mode = .oneShot) (h : t.timer = { s.timer.deinit with irqPending := false })
  | handlerExit (he : s.nextEvent = .handlerReturn) (hc : s.active.ctx = .handler .timer)
      (hm : s.timer.mode = .oneShot) (h : t.timer = s.timer.deinit)

/-- What a step does to the instances: at most one is written, and the step works on it. -/
def UartsChange (s t : State) : Prop :=
  t.uarts = s.uarts ∨ ∃ j, s.touchesUart j ∧ UartWritten j s.uarts t.uarts

/-- What a step does to the parameters, the context stack, the timer and the instances. -/
structure StepChange (s t : State) : Prop where
  params : t.params = s.params
  stack : StackChange s t
  timer : TimerChange s t
  uarts : UartsChange s t

/-- A command's step, at issue or later, as a step of the machine. -/
theorem State.SameContext.stepChange {s t : State} {i : Instr} (hc : s.SameContext t) (hi : s.actingCommand = some i)
    (ht : CommandTimer i s.timer t.timer)
    (hu : t.uarts = s.uarts ∨ ∃ n, Instr.uartInst i = some n ∧ UartWritten n.toNat s.uarts t.uarts) :
    StepChange s t where
  params := hc.params
  stack := .keep hc.ctx hc.beneath
  timer := .command i hi ht
  uarts := hu.imp_right fun ⟨n, hn, hw⟩ => ⟨n.toNat, .inl ⟨i, n, hi, hn, rfl⟩, hw⟩

/-- Every step changes the state in one of the ways listed. -/
theorem step_change {s t : State} (hstep : step s = .next t) : StepChange s t := by
  obtain ⟨inbox, free, hs⟩ : ∃ inbox free, s.takeEvent = { s with inbox := inbox, free := free } :=
    ⟨_, _, takeEvent_eq s⟩
  have shape := step_shape hstep
  rw [hs] at shape
  cases shape with
  | same h => subst h; exact ⟨rfl, .keep rfl rfl, .keep rfl, .inl rfl⟩
  | illegal _ _ _ _ _ h => subst h; exact ⟨rfl, .keep rfl rfl, .keep rfl, .inl rfl⟩
  | command c i he hr hd h =>
    obtain ⟨hp, hc, hb⟩ := exec_sameContext h
    have ht := exec_timer h
    have hu := exec_uarts h
    exact State.SameContext.stepChange ⟨hp, hc, hb⟩ (actingCommand_of_issue he hr hd) ht hu
  | poll cmd ph k b he ha h =>
    obtain ⟨⟨hp, hc, hb⟩, ht, hu⟩ := resume_frame h
    exact State.SameContext.stepChange ⟨hp, hc, hb⟩ (actingCommand_of_poll he ha) ht hu
  | ret src f rest he hc _ hb h =>
    rcases exitAction_cases { s with inbox := inbox, free := free, active := f, beneath := rest } src with
      hx | ⟨rfl, hm, hx⟩
    · rw [hx] at h
      subst h
      exact ⟨rfl, .ret src hc hb, .keep rfl, .inl rfl⟩
    · rw [hx] at h
      subst h
      exact ⟨rfl, .ret .timer hc hb, .handlerExit he hc hm rfl, .inl rfl⟩
  | write _ _ _ h => subst h; exact ⟨rfl, .keep rfl rfl, .keep rfl, .inl rfl⟩
  | line _ _ _ h => subst h; exact ⟨rfl, .keep rfl rfl, .keep rfl, .inl rfl⟩
  | tick he hen h => subst h; exact ⟨rfl, .keep rfl rfl, .tick he hen rfl, .inl rfl⟩
  | shift i u _ _ he hu _ h =>
    subst h
    exact ⟨rfl, .keep rfl rfl, .keep rfl, .inr ⟨i, .inr (.inl he), u, _, hu, .shift, rfl⟩⟩
  | frame i d u u' _ he hu hw h =>
    have hch : UartChange u u' := by
      rcases hw with rfl | rfl
      · exact .keep
      · exact .take d
    subst h
    exact ⟨rfl, .keep rfl rfl, .keep rfl, .inr ⟨i, .inr (.inr (.inl ⟨d, he⟩)), u, u', hu, hch, rfl⟩⟩
  | timerIrq he hm h =>
    rcases dispatchTimer_cases { s with inbox := inbox, free := free } with ⟨a, _, hd⟩ | ⟨hcb, hd⟩
    · rw [hd] at h
      subst h
      exact ⟨rfl, .enter .timer hm rfl rfl, .dispatch he rfl, .inl rfl⟩
    · rcases exitAction_cases (State.withTimer { s with inbox := inbox, free := free }
        { s.timer with irqPending := false }) .timer with hx | ⟨-, hone, hx⟩
      · rw [hd, hx] at h
        subst h
        exact ⟨rfl, .keep rfl rfl, .dispatch he rfl, .inl rfl⟩
      · rw [hd, hx] at h
        subst h
        exact ⟨rfl, .keep rfl rfl, .dispatchExit he hcb hone rfl, .inl rfl⟩
  | uartIrq i u he hm hu h =>
    have touched : s.touchesUart i := .inr (.inr (.inr he))
    rcases dispatchUart_cases { s with inbox := inbox, free := free } i u with ⟨a, arg, hd⟩ | hd
    · rw [hd] at h
      subst h
      exact ⟨rfl, .enter (.uartRx i) hm rfl rfl, .keep rfl, .inr ⟨i, touched, u, _, hu, .read _, rfl⟩⟩
    · rw [hd] at h
      subst h
      exact ⟨rfl, .keep rfl rfl, .keep rfl, .inr ⟨i, touched, u, _, hu, .read _, rfl⟩⟩

/-- An instance after a step is the one before it, changed by at most one of the model's updates. -/
theorem step_uart {s t : State} {j : Nat} {u' : Uart} (h : step s = .next t) (hu' : t.uarts[j]? = some u') :
    ∃ u, s.uarts[j]? = some u ∧ UartChange u u' := by
  rcases (step_change h).uarts with heq | ⟨i, -, u, v, hu, hch, heq⟩
  · exact ⟨u', heq ▸ hu', .keep⟩
  · by_cases hij : i = j
    · subst hij
      obtain ⟨hlt, -⟩ := List.getElem?_eq_some_iff.mp hu
      rw [heq, List.getElem?_set_self hlt] at hu'
      exact ⟨u, hu, Option.some.inj hu' ▸ hch⟩
    · rw [heq, List.getElem?_set_ne hij] at hu'
      exact ⟨u', hu', .keep⟩

/-- What every update of an instance keeps, every step keeps of every instance. -/
theorem step_keeps_uarts {P : Uart → Prop} (hP : ∀ u u', UartChange u u' → P u → P u') {s t : State}
    (h : step s = .next t) (hs : ∀ u ∈ s.uarts, P u) : ∀ u ∈ t.uarts, P u := by
  intro u' hu'
  obtain ⟨j, hj⟩ := List.mem_iff_getElem?.mp hu'
  obtain ⟨u, hu, hch⟩ := step_uart h hj
  exact hP u u' hch (hs u (List.mem_of_getElem? hu))

end Sys2Proof.Machine
end

section
/-!
PROOFS. The timer: the invariants R29 and who may change the count flag and the request (10_state.md R25, R28, R29).
-/

namespace Sys2Proof.Machine

/-- A tick counts down, or is an expiry (R130). -/
theorem Timer.tick_cases {t : Timer} (hen : t.tctrl.en = true) :
    (t.tval ≠ 0 ∧ t.tick = { t with tval := t.tval - 1 }) ∨ (t.tval = 0 ∧ t.tick = t.expire) := by
  unfold Timer.tick
  rw [if_pos hen]
  by_cases hv : t.tval = 0
  · exact .inr ⟨hv, if_neg (not_not_intro hv)⟩
  · exact .inl ⟨hv, if_pos hv⟩

/-- The reload value of an accepted interval fits the counter, with one to spare (R29 e, R120). -/
theorem reload_le {n : Nat} (hn : n ≤ Config.maxTicks) :
    (BitVec.ofNat 24 (n - 1)).toNat ≤ Config.maxTicks - 1 := by
  have hmax : Config.maxTicks = 16777215 := rfl
  rw [hmax] at hn ⊢
  rw [BitVec.toNat_ofNat, Nat.mod_eq_of_lt (by omega)]
  omega

theorem timerInv_deinit (t : Timer) : TimerInv t.deinit := by
  simp [TimerInv, Timer.deinit_eq]

theorem timerInv_arm {t : Timer} {n : Nat} (hinv : TimerInv t) (hm : t.mode = .idle) (hn : n ≤ Config.maxTicks) :
    TimerInv (t.arm n .busyWait) := by
  obtain ⟨-, hidle, -⟩ := hinv
  obtain ⟨-, htie, -⟩ := hidle hm
  simpa [TimerInv, Timer.arm_eq, htie] using reload_le hn

theorem timerInv_armWithIrq {t : Timer} {n : Nat} {mode : TimerMode} (hmode : mode = .oneShot ∨ mode = .periodic)
    (hn : n ≤ Config.maxTicks) : TimerInv (t.armWithIrq n mode) := by
  rcases hmode with rfl | rfl <;> simpa [TimerInv, Timer.armWithIrq_eq] using reload_le hn

/-- A tick only happens in an armed mode, and keeps the counter at or below the reload value (R29, R130). -/
theorem timerInv_tick {t : Timer} (hinv : TimerInv t) (hen : t.tctrl.en = true) : TimerInv t.tick := by
  obtain ⟨harmed, hidle, hbusy, hirq, hval, hload⟩ := hinv
  have hne : t.mode ≠ .idle := fun hm => by simp [(hidle hm).1] at hen
  rcases Timer.tick_cases hen with ⟨hv, htick⟩ | ⟨-, htick⟩
  · have hdec : (t.tval - 1).toNat ≤ t.tload.toNat := by bv_omega
    rw [htick]
    exact ⟨harmed, fun hm => absurd hm hne, hbusy, hirq, hdec, hload⟩
  · rw [htick]
    exact ⟨harmed, fun hm => absurd hm hne, hbusy, hirq, Nat.le_refl _, hload⟩

theorem timerInv_command {i : Instr} {a b : Timer} (hinv : TimerInv a) (h : CommandTimer i a b) : TimerInv b := by
  cases h with
  | keep h => exact h ▸ hinv
  | clock c f _ h => subst h; exact hinv
  | callback r _ _ h => subst h; exact hinv
  | arm ms n _ hm hn h => exact h ▸ timerInv_arm hinv hm hn
  | armIrq ms n mode hi _ hn h => exact h ▸ timerInv_armWithIrq (hi.imp And.right And.right) hn
  | deinit _ h => exact h ▸ timerInv_deinit a

/-- Settles O41: the commands, the tick and the exit actions each keep the invariants. -/
theorem stepKeepsTimerInv : Obligations.StepKeepsTimerInv := by
  intro s t hinv hstep
  cases (step_change hstep).timer with
  | keep h => exact h ▸ hinv
  | command i _ h => exact timerInv_command hinv h
  | tick _ hen h => exact h ▸ timerInv_tick hinv hen
  | dispatch _ h => rw [h]; exact hinv
  | dispatchExit _ _ _ h => rw [h]; exact timerInv_deinit s.timer
  | handlerExit _ _ _ h => exact h ▸ timerInv_deinit s.timer

/-- Settles O50: every other change of the timer keeps `CF` or raises it. -/
theorem countFlagClearers : Obligations.CountFlagClearers := by
  intro s t hstep hcf hcf'
  cases (step_change hstep).timer with
  | keep h => simp [h, hcf] at hcf'
  | command i hi h =>
    cases h with
    | keep h => simp [h, hcf] at hcf'
    | clock _ _ _ h => simp [h, hcf] at hcf'
    | callback _ _ _ h => simp [h, hcf] at hcf'
    | arm ms _ hcmd => exact .inl ⟨ms, .inl (hcmd ▸ hi)⟩
    | armIrq ms _ _ hcmd =>
      rcases hcmd with ⟨hcmd, -⟩ | ⟨hcmd, -⟩
      · exact .inl ⟨ms, .inr (.inl (hcmd ▸ hi))⟩
      · exact .inl ⟨ms, .inr (.inr (hcmd ▸ hi))⟩
    | deinit hcmd =>
      rcases hcmd with ⟨ms, hcmd⟩ | hcmd
      · exact .inl ⟨ms, .inl (hcmd ▸ hi)⟩
      · exact .inr (.inl (hcmd ▸ hi))
  | tick _ hen h =>
    rcases Timer.tick_cases hen with ⟨-, htick⟩ | ⟨-, htick⟩ <;> rw [h, htick] at hcf'
    · exact absurd hcf (Bool.eq_false_iff.mp hcf')
    · cases hcf'
  | dispatch _ h => simp [h, hcf] at hcf'
  | dispatchExit he hcb hm _ => exact .inr (.inr ⟨hm, .inl ⟨he, hcb⟩⟩)
  | handlerExit he hc hm _ => exact .inr (.inr ⟨hm, .inr ⟨he, hc⟩⟩)

/-- No command touches the request (R28). -/
theorem CommandTimer.irqPending {i : Instr} {a b : Timer} (h : CommandTimer i a b) : b.irqPending = a.irqPending := by
  cases h with
  | keep h => rw [h]
  | clock _ _ _ h => rw [h]
  | callback _ _ _ h => rw [h]
  | arm _ _ _ _ _ h => rw [h, Timer.arm_eq]
  | armIrq _ _ _ _ _ _ h => rw [h, Timer.armWithIrq_eq]
  | deinit _ h => rw [h, Timer.deinit_eq]

/-- A tick raises the request exactly at an expiry with `TIE` = 1 (R130). -/
theorem Timer.tick_irqPending {t : Timer} (hen : t.tctrl.en = true) :
    t.tick.irqPending = (t.irqPending || (decide (t.tval = 0) && t.tctrl.tie)) := by
  rcases Timer.tick_cases hen with ⟨hv, htick⟩ | ⟨hv, htick⟩
  · rw [htick, decide_eq_false hv, Bool.false_and, Bool.or_false]
  · rw [htick, decide_eq_true hv, Bool.true_and, Timer.expire]

/-- A step keeps the request, is a tick, or is the timer's dispatch, which lowers it (R225). -/
theorem TimerChange.irqPending_cases {s t : State} (h : TimerChange s t) :
    t.timer.irqPending = s.timer.irqPending ∨
    (s.nextEvent = .tick ∧ s.timer.tctrl.en = true ∧
      t.timer.irqPending = (s.timer.irqPending || (decide (s.timer.tval = 0) && s.timer.tctrl.tie))) ∨
    (s.nextEvent = .dispatch .timer ∧ t.timer.irqPending = false) := by
  cases h with
  | keep h => exact .inl (by rw [h])
  | command i _ h => exact .inl h.irqPending
  | tick he hen h => exact .inr (.inl ⟨he, hen, by rw [h, Timer.tick_irqPending hen]⟩)
  | dispatch he h => exact .inr (.inr ⟨he, by rw [h]⟩)
  | dispatchExit he _ _ h => exact .inr (.inr ⟨he, by rw [h]⟩)
  | handlerExit _ _ _ h => exact .inl (by rw [h, Timer.deinit_eq])

/-- Settles O51: a step moves the request only as a tick or as the timer's dispatch. -/
theorem timerRequestChangers : Obligations.TimerRequestChangers := by
  intro s t hstep
  rcases (step_change hstep).timer.irqPending_cases with heq | ⟨he, hen, heq⟩ | ⟨he, heq⟩ <;> rw [heq]
  · exact ⟨fun hlow hhigh => absurd hhigh (Bool.eq_false_iff.mp hlow),
      fun hhigh hlow => absurd hhigh (Bool.eq_false_iff.mp hlow)⟩
  · refine ⟨fun hlow hhigh => ?_, fun hhigh hlow => by simp [hhigh] at hlow⟩
    simp only [hlow, Bool.false_or, Bool.and_eq_true, decide_eq_true_eq] at hhigh
    exact ⟨he, hen, hhigh⟩
  · exact ⟨fun _ hhigh => Bool.noConfusion hhigh, fun _ _ => he⟩

end Sys2Proof.Machine
end

section
/-!
PROOFS. The context stack: its shape and the preemption chain (10_state.md R40, 60_exceptions.md R227, R232).
-/

namespace Sys2Proof.Machine

/-- A source that may be dispatched extends the chain (R227 c). -/
theorem preemptChain_of_mayDispatch {s : State} {src : Source} (hm : s.mayDispatch src = true)
    (hs : preemptChain s.params s.handlerSources = true) :
    preemptChain s.params (src :: s.handlerSources) = true := by
  have hadm : s.stackAdmits src = true := by
    simp only [State.mayDispatch, Bool.and_eq_true] at hm
    exact hm.2
  unfold State.stackAdmits at hadm
  cases hsrc : s.handlerSources with
  | nil => rfl
  | cons top rest =>
    rw [hsrc] at hadm hs
    simp only [preemptChain, Bool.and_eq_true]
    exact ⟨hadm, hs⟩

/-- The rest of a chain is a chain. -/
theorem preemptChain_tail {p : Params} {a : Source} {l : List Source} (h : preemptChain p (a :: l) = true) :
    preemptChain p l = true := by
  cases l with
  | nil => rfl
  | cons b rest =>
    simp only [preemptChain, Bool.and_eq_true] at h
    exact h.2

/-- The shape looks at the tags only. -/
theorem stackShape_congr {f g : Frame} (h : f.ctx = g.ctx) (l : List Frame) :
    stackShape (f :: l) = stackShape (g :: l) := by
  cases l <;> simp [stackShape, h]

/-- Settles O42: a step keeps the tags on the stack, pushes a handler that R227 admits, or pops one. -/
theorem stepKeepsStackInv : Obligations.StepKeepsStackInv := by
  rintro s t ⟨hshape, hchain⟩ hstep
  have change := step_change hstep
  unfold StackInv
  rw [change.params]
  cases change.stack with
  | keep hc hb =>
    have hsrc : t.handlerSources = s.handlerSources := by
      simp only [State.handlerSources, List.filterMap_cons, hc, hb]
    rw [hsrc, hb, stackShape_congr hc]
    exact ⟨hshape, hchain⟩
  | enter src hm hc hb =>
    have hsrc : t.handlerSources = src :: s.handlerSources := by
      simp [State.handlerSources, List.filterMap_cons, hc, hb, Context.source]
    rw [hsrc, hb]
    refine ⟨?_, preemptChain_of_mayDispatch hm hchain⟩
    simpa [stackShape, hc, Context.source] using hshape
  | ret src hc hb =>
    have hsrc : s.handlerSources = src :: t.handlerSources := by
      simp [State.handlerSources, List.filterMap_cons, hc, hb, Context.source]
    rw [hsrc] at hchain
    rw [hb] at hshape
    simp only [stackShape, Bool.and_eq_true] at hshape
    exact ⟨hshape.2, preemptChain_tail hchain⟩

end Sys2Proof.Machine
end

section
/-!
PROOFS. The UART instances and the callback slots: the line (10_state.md R36), the handler references (R23, R35) and
the independence of the instances (R30).
-/

namespace Sys2Proof.Machine

/-- A serial frame ends with its stop bit (R102). -/
theorem serialFrame_getLast? (d : Byte) (pen ptype : Bool) : (serialFrame d pen ptype).getLast? = some true :=
  List.getLast?_concat

/-- The last bit of a frame leaves the line at the stop bit (R36, R180). -/
theorem lineInv_shift {u : Uart} (hinv : LineInv u) : LineInv u.shift := by
  obtain ⟨hidle, hlast⟩ := hinv
  unfold Uart.shift
  match htx : u.tx with
  | [] => exact ⟨hidle, hlast⟩
  | [b] => simpa [LineInv, htx] using hlast
  | b :: c :: rest => simpa [LineInv, htx] using hlast

theorem lineInv_writeUdr {u u' : Uart} {v : Word} (hinv : LineInv u) (h : u.writeUdr v = .ok u') : LineInv u' := by
  rcases writeUdr_eq_ok.mp h with ⟨-, -, rfl⟩ | ⟨-, rfl⟩
  · exact ⟨fun hnil => by simp [serialFrame] at hnil, fun _ => serialFrame_getLast? _ _ _⟩
  · exact hinv

theorem lineInv_change (u u' : Uart) (h : UartChange u u') (hinv : LineInv u) : LineInv u' := by
  cases h with
  | keep => exact hinv
  | configure p r => exact hinv
  | callback a _ => exact hinv
  | write v _ h => exact lineInv_writeUdr hinv h
  | clearTc => exact hinv
  | read clears => exact hinv
  | shift => exact lineInv_shift hinv
  | take d => exact hinv

/-- Settles O47: every update of an instance keeps the line. -/
theorem stepKeepsLineInv : Obligations.StepKeepsLineInv :=
  fun _ _ hinv hstep => step_keeps_uarts lineInv_change hstep hinv

/-- A callback slot is kept, or given a reference that is not 0 (R93). -/
def CallbackKept (a b : Option Word) : Prop := b = a ∨ ∃ r, r ≠ 0 ∧ b = some r

theorem CallbackKept.ne_zero {a b : Option Word} (h : CallbackKept a b) (ha : a ≠ some 0) : b ≠ some 0 := by
  rcases h with rfl | ⟨r, hr, rfl⟩
  · exact ha
  · simpa using hr

theorem CallbackKept.ne_none {a b : Option Word} (h : CallbackKept a b) (ha : a ≠ none) : b ≠ none := by
  rcases h with rfl | ⟨r, -, rfl⟩
  · exact ha
  · exact Option.some_ne_none r

/-- A shift leaves the callback slot alone. -/
@[simp] theorem Uart.shift_callback (u : Uart) : u.shift.callback = u.callback := by
  unfold Uart.shift
  split <;> rfl

/-- Every update of an instance keeps its callback slot in this sense (R35). -/
theorem UartChange.callbackKept {u u' : Uart} (h : UartChange u u') : CallbackKept u.callback u'.callback := by
  cases h with
  | keep => exact .inl rfl
  | configure p r => exact .inl rfl
  | callback a ha => exact .inr ⟨a, ha, rfl⟩
  | write v _ h => rcases writeUdr_eq_ok.mp h with ⟨-, -, rfl⟩ | ⟨-, rfl⟩ <;> exact .inl rfl
  | clearTc => exact .inl rfl
  | read clears => exact .inl rfl
  | shift => exact .inl u.shift_callback
  | take d => exact .inl rfl

@[simp] theorem Timer.tick_callback (t : Timer) : t.tick.callback = t.callback := by
  unfold Timer.tick
  split
  · split <;> rfl
  · rfl

theorem CommandTimer.callbackKept {i : Instr} {a b : Timer} (h : CommandTimer i a b) :
    CallbackKept a.callback b.callback := by
  cases h with
  | keep h => exact .inl (congrArg _ h)
  | clock _ _ _ h => subst h; exact .inl rfl
  | callback r _ hr h => subst h; exact .inr ⟨r, hr, rfl⟩
  | arm _ _ _ _ _ h => subst h; exact .inl rfl
  | armIrq _ _ _ _ _ _ h => subst h; exact .inl rfl
  | deinit _ h => subst h; exact .inl rfl

/-- Every change of the timer keeps its callback slot in this sense (R23). -/
theorem TimerChange.callbackKept {s t : State} (h : TimerChange s t) :
    CallbackKept s.timer.callback t.timer.callback := by
  cases h with
  | keep h => exact .inl (congrArg _ h)
  | command i _ h => exact h.callbackKept
  | tick _ _ h => rw [h]; exact .inl s.timer.tick_callback
  | dispatch _ h => rw [h]; exact .inl rfl
  | dispatchExit _ _ _ h => rw [h]; exact .inl rfl
  | handlerExit _ _ _ h => rw [h]; exact .inl rfl

/-- Settles O48: a callback slot is kept or given a reference that has passed the null check. -/
theorem stepKeepsCallbacks : Obligations.StepKeepsCallbacks := by
  intro s t hstep
  have timerSlot := (step_change hstep).timer.callbackKept
  refine ⟨fun ⟨htimer, huarts⟩ => ⟨timerSlot.ne_zero htimer, ?_⟩, timerSlot.ne_none, ?_⟩
  · exact step_keeps_uarts (fun _ _ hch => hch.callbackKept.ne_zero) hstep huarts
  · intro i u u' hu hu'
    obtain ⟨v, hv, hch⟩ := step_uart hstep hu'
    cases hu.symm.trans hv
    exact hch.callbackKept.ne_none

/-- Settles O53: a step writes at most one instance, in place, and that is one it works on. -/
theorem instancesAreIndependent : Obligations.InstancesAreIndependent := by
  intro s t hstep
  have change := step_change hstep
  refine ⟨change.params, ?_⟩
  rcases change.uarts with heq | ⟨i, htouch, _, _, -, -, heq⟩
  · rw [heq]
    exact ⟨rfl, fun _ _ => rfl⟩
  · rw [heq]
    refine ⟨List.length_set, fun j hj => List.getElem?_set_ne ?_⟩
    rintro rfl
    exact hj htouch

end Sys2Proof.Machine
end

section
/-!
PROOFS. The layouts of the Register Surface slots (10_state.md R24, R26, R27, R31 to R34).
-/

namespace Sys2Proof.Machine

/-- A single named bit (R24). -/
theorem getLsbD_bitAt {n : Nat} (hn : n < 32) (b : Bool) (j : Nat) :
    (bitAt n b).getLsbD j = (decide (j = n) && b) := by
  unfold bitAt
  cases b
  · simp
  · simp [BitVec.getLsbD_twoPow, hn, eq_comm]

theorem Tctrl.getLsbD_toWord (c : Tctrl) (j : Nat) : c.toWord.getLsbD j =
    if j = 0 then c.en else if j = 1 then c.tie else if j = 2 then c.clksrc else if j = 16 then c.cf else false := by
  simp only [Tctrl.toWord, BitVec.getLsbD_or, getLsbD_bitAt (show 0 < 32 by decide),
    getLsbD_bitAt (show 1 < 32 by decide), getLsbD_bitAt (show 2 < 32 by decide), getLsbD_bitAt (show 16 < 32 by decide)]
  split_ifs <;> simp_all

theorem Ucr.getLsbD_toWord (c : Ucr) (j : Nat) : c.toWord.getLsbD j =
    if j = 2 then c.rxen else if j = 3 then c.txen else if j = 5 then c.rxie else if j = 9 then c.ptype
    else if j = 10 then c.pen else if j = 13 then c.uen else false := by
  simp only [Ucr.toWord, BitVec.getLsbD_or, getLsbD_bitAt (show 2 < 32 by decide),
    getLsbD_bitAt (show 3 < 32 by decide), getLsbD_bitAt (show 5 < 32 by decide), getLsbD_bitAt (show 9 < 32 by decide),
    getLsbD_bitAt (show 10 < 32 by decide), getLsbD_bitAt (show 13 < 32 by decide)]
  split_ifs <;> simp_all

theorem Usr.getLsbD_toWord (f : Usr) (j : Nat) :
    f.toWord.getLsbD j = if j = 5 then f.rxne else if j = 6 then f.tc else false := by
  simp only [Usr.toWord, BitVec.getLsbD_or, getLsbD_bitAt (show 5 < 32 by decide), getLsbD_bitAt (show 6 < 32 by decide)]
  split_ifs <;> simp_all

/-- `UBRR[i]` is its mantissa and fraction side by side (R32). -/
theorem Uart.ubrrSlot_toNat (u : Uart) : u.ubrrSlot.toNat = u.mantissa.toNat * 16 + u.fraction.toNat := by
  simp only [Uart.ubrrSlot, Uart.mantissa, Uart.fraction, BitVec.toNat_setWidth, BitVec.extractLsb'_toNat,
    Nat.shiftRight_eq_div_pow]
  have := u.ubrr.isLt
  omega

/-- `UDR[i]` reads as the receive cell, with 0 above it (R33, R60). -/
theorem Uart.getLsbD_readUdr (u : Uart) (clears : Bool) (j : Nat) :
    (u.readUdr clears).1.getLsbD j = if j < 8 then u.rdr.getLsbD j else false := by
  simp only [Uart.readUdr, udrOfByte, BitVec.getLsbD_setWidth]
  split_ifs with hj
  · simp [show j < 32 by omega]
  · simp [BitVec.getLsbD_of_ge u.rdr j (by omega)]

/-- A write of `UDR[i]` takes bits 7:0 (R179). -/
theorem byteOfUdr_and_mask (v : Word) : byteOfUdr (v &&& 0xFF) = byteOfUdr v := by
  unfold byteOfUdr
  ext j hj
  have hmask : (255#32).getLsbD j = true := by
    interval_cases j <;> rfl
  simp [hmask]

theorem Uart.writeUdr_congr {v w : Word} (h : byteOfUdr v = byteOfUdr w) (u : Uart) : u.writeUdr v = u.writeUdr w := by
  simp only [Uart.writeUdr, h]

/-- Settles O58: one lemma per slot. -/
theorem slotLayouts : Obligations.SlotLayouts :=
  ⟨Tctrl.getLsbD_toWord, Ucr.getLsbD_toWord, Usr.getLsbD_toWord,
    fun t => ⟨BitVec.toNat_setWidth_of_le (by decide), BitVec.toNat_setWidth_of_le (by decide)⟩,
    Uart.ubrrSlot_toNat, Uart.getLsbD_readUdr,
    fun u v => Uart.writeUdr_congr (byteOfUdr_and_mask v).symm u⟩

end Sys2Proof.Machine
end

section
/-!
PROOFS. Host memory (20_memory.md R60, R62, R70, R75): what a read gives after a write, the little-endian read of several
bytes, and who stores a byte in one step.
-/

namespace Sys2Proof.Machine

/-! Reading. -/

/-- A read looks at the regions and at the byte at its address only (R62). -/
theorem readByte_congr {s t : State} {a : Word} (hp : t.params = s.params)
    (hm : Memory.read t.mem a.toNat = Memory.read s.mem a.toNat) : t.readByte a = s.readByte a := by
  simp only [State.readByte, hp, hm]

/-- A backed read of one byte more puts the byte at the lowest address below the others (R62, R75). -/
theorem memRead_succ {s : State} {addr : Word} {n v : Nat} {b : Byte} (hb : s.readByte addr = .ok b)
    (hv : s.memRead (addr + 1) n = .ok v) : s.memRead addr (n + 1) = .ok (b.toNat + 256 * v) := by
  simp only [State.memRead, hb, hv]

/-- A byte appended below is the low digit in base 256. -/
theorem toNat_append_byte {w : Nat} (x : BitVec w) (b : Byte) : (x ++ b).toNat = b.toNat + 256 * x.toNat := by
  rw [BitVec.toNat_append, ← Nat.shiftLeft_add_eq_or_of_lt b.isLt, Nat.shiftLeft_eq]
  omega

/-- A byte written is read back, and every other address reads as before (R62). -/
theorem readByte_writeByte {s s' : State} {addr : Word} {v : Byte} (hwf : Memory.wf s.mem = true)
    (h : s.writeByte addr v = .ok s') : s'.readByte addr = .ok v ∧ ∀ a, a ≠ addr → s'.readByte a = s.readByte a := by
  obtain ⟨hbacked, rfl⟩ := writeByte_eq_ok.mp h
  refine ⟨readByte_eq_ok.mpr ⟨hbacked, (Memory.read_write_self hwf).symm⟩, fun a ha => readByte_congr rfl ?_⟩
  exact Memory.read_write_ne (fun heq => ha (BitVec.eq_of_toNat_eq heq)) s.mem

/-- A 4-byte read is its four bytes, the lowest address least significant (R62, R75). -/
theorem memRead_four {s : State} {addr : Word} {b0 b1 b2 b3 : Byte} (h0 : s.readByte addr = .ok b0)
    (h1 : s.readByte (addr + 1) = .ok b1) (h2 : s.readByte (addr + 2) = .ok b2) (h3 : s.readByte (addr + 3) = .ok b3) :
    s.memRead addr 4 = .ok (b3 ++ b2 ++ b1 ++ b0 : Word).toNat := by
  have from3 : s.memRead (addr + 3) 1 = .ok (b3.toNat + 256 * 0) := memRead_succ h3 rfl
  have from2 := memRead_succ h2 (show s.memRead (addr + 2 + 1) 1 = _ by rw [BitVec.add_assoc]; exact from3)
  have from1 := memRead_succ h1 (show s.memRead (addr + 1 + 1) 2 = _ by rw [BitVec.add_assoc]; exact from2)
  rw [memRead_succ h0 from1, toNat_append_byte, toNat_append_byte, toNat_append_byte, Nat.mul_zero, Nat.add_zero]

/-- Settles O59: the laws of one write and of the byte-wise read. -/
theorem hostMemoryPrimitives : Obligations.HostMemoryPrimitives :=
  fun _ _ => ⟨fun _ _ hwf h => readByte_writeByte hwf h, fun _ _ _ _ h0 h1 h2 h3 => memRead_four h0 h1 h2 h3⟩

/-! Storing. -/

/-- Memory is kept, or one byte is stored at an address that `P` admits. -/
def StoresOnly (P : Word → Prop) (m m' : Memory) : Prop :=
  m' = m ∨ ∃ a v, P a ∧ m' = Memory.write m a.toNat v

theorem StoresOnly.imp {P Q : Word → Prop} {m m' : Memory} (h : StoresOnly P m m') (hPQ : ∀ a, P a → Q a) :
    StoresOnly Q m m' :=
  h.imp_right fun ⟨a, v, ha, hw⟩ => ⟨a, v, hPQ a ha, hw⟩

/-- One store keeps the canonical form (log 11). -/
theorem StoresOnly.wf {P : Word → Prop} {m m' : Memory} (h : StoresOnly P m m') (hm : Memory.wf m = true) :
    Memory.wf m' = true := by
  rcases h with rfl | ⟨a, v, -, rfl⟩
  · exact hm
  · exact Memory.wf_write a.isLt hm

/-- A byte that reads otherwise than before is the one stored. -/
theorem StoresOnly.at_changed {P : Word → Prop} {m m' : Memory} {x : Nat} (h : StoresOnly P m m')
    (hx : Memory.read m' x ≠ Memory.read m x) : ∃ a, a.toNat = x ∧ P a := by
  rcases h with rfl | ⟨a, v, ha, rfl⟩
  · exact absurd rfl hx
  · by_cases heq : x = a.toNat
    · exact ⟨a, heq.symm, ha⟩
    · exact absurd (Memory.read_write_ne heq m) hx

/-- A poll of `RECV1` stores at the address of byte `k` (R185, R75). -/
theorem recvPoll_mem {cmd : Instr} {n : Byte} {u : Uart} {base k : Word} {last : Byte → Bool} {s t : State}
    (h : recvPoll cmd n u base k last s = .next t) : StoresOnly (· = base + k) s.mem t.mem := by
  rcases recvPoll_eq_next.mp h with ⟨-, rfl⟩ | ⟨-, s1, hw, h⟩
  · exact .inl rfl
  · obtain ⟨-, rfl⟩ := writeByte_eq_ok.mp hw
    rcases recvAfter_eq_next.mp h with ⟨-, rfl⟩ | ⟨-, rfl⟩ <;> exact .inr ⟨base + k, u.rdr, rfl, rfl⟩

/-- The command polls for its byte 0 at issue, and stores it at `r` (R240; log 17). -/
def ReceivesAtIssue (i : Instr) (r : Word) : Prop :=
  ∃ n size, i = .urecvbuf n r size ∨ i = .urecvstr n r

/-- The command receives to a buffer at `r`. -/
def ReceivesTo (cmd : Instr) (r : Word) : Prop :=
  ∃ n size, cmd ∈ [Instr.urecvb n r, .urecvbuf n r size, .urecvstr n r]

/-- A command's step at issue stores at most the byte of a first poll (R240). -/
theorem exec_mem {i : Instr} {s t : State} (h : exec i s = .next t) :
    StoresOnly (ReceivesAtIssue i) s.mem t.mem := by
  cases exec_shape h with
  | ended _ _ h => subst h; exact .inl rfl
  | timer _ _ h => subst h; exact .inl rfl
  | busy _ _ _ h => subst h; exact .inl rfl
  | config _ _ _ _ _ _ _ h => subst h; exact .inl rfl
  | callback _ _ _ _ _ _ h => subst h; exact .inl rfl
  | send _ _ _ _ _ _ _ _ h => subst h; exact .inl rfl
  | setup _ _ _ _ _ _ h => subst h; exact .inl rfl
  | recv n u base last _ _ _ hr h =>
    refine (recvPoll_mem h).imp fun a ha => ?_
    obtain rfl : a = base := ha.trans (BitVec.add_zero base)
    rcases hr with ⟨size, rfl⟩ | rfl
    · exact ⟨n, size, .inl rfl⟩
    · exact ⟨n, 0, .inr rfl⟩

/-- A later step of a command stores at most byte `k` of a receive (R185). -/
theorem resume_mem {cmd : Instr} {ph : Phase} {k : Word} {b : Byte} {s t : State}
    (h : resume cmd ph k b s = .next t) : StoresOnly (fun a => ∃ r, a = r + k ∧ ReceivesTo cmd r) s.mem t.mem := by
  cases resume_shape h with
  | same h => subst h; exact .inl rfl
  | busy _ _ _ h => subst h; exact .inl rfl
  | noInstance _ _ _ h => subst h; exact .inl rfl
  | send _ _ _ _ _ _ _ h => subst h; exact .inl rfl
  | sent _ _ _ _ _ _ h => rcases h with rfl | rfl <;> exact .inl rfl
  | recv n u base last _ _ hr h =>
    refine (recvPoll_mem h).imp fun a ha => ⟨base, ha, ?_⟩
    rcases hr with ⟨size, rfl⟩ | rfl | rfl
    · exact ⟨n, size, by simp⟩
    · exact ⟨n, 0, by simp⟩
    · exact ⟨n, 0, by simp⟩

@[simp] theorem State.exitAction_mem (s : State) (src : Source) : (s.exitAction src).mem = s.mem := by
  rcases exitAction_cases s src with h | ⟨-, -, h⟩ <;> rw [h]
  exact s.deinitTimer_mem

@[simp] theorem State.dispatchTimer_mem (s : State) : s.dispatchTimer.mem = s.mem := by
  rcases dispatchTimer_cases s with ⟨_, -, h⟩ | ⟨-, h⟩ <;> simp [h]

@[simp] theorem State.dispatchUart_mem (s : State) (i : Nat) (u : Uart) : (s.dispatchUart i u).mem = s.mem := by
  rcases dispatchUart_cases s i u with ⟨_, _, h⟩ | h <;> simp [h]

/-- Who may store a byte at an address in the next step (R60, R62, R70). -/
inductive StoreAllowed (s : State) (a : Word) : Prop where
  | host (b : Byte) (he : s.nextEvent = .hostWrite a b)
  | issue (i : Instr) (hi : s.issuedCommand = some i) (hr : ReceivesAtIssue i a)
  | poll (cmd : Instr) (ph : Phase) (k : Word) (b : Byte) (r : Word) (he : s.nextEvent = .sequencer)
      (hact : s.active.act = .inCmd cmd ph k b) (ha : a = r + k) (hr : ReceivesTo cmd r)

theorem issuedCommand_of_issue {s : State} {c : Command} {i : Instr} (he : s.nextEvent = .issue c)
    (hr : s.active.act.isRunning = true) (hd : decode c = .ok i) : s.issuedCommand = some i := by
  simp [State.issuedCommand, he, hr, hd, Except.toOption]

/-- A step stores at most one byte of memory. -/
theorem step_mem {s t : State} (hstep : step s = .next t) : StoresOnly (StoreAllowed s) s.mem t.mem := by
  rw [← takeEvent_mem s]
  cases step_shape hstep with
  | same h => subst h; exact .inl rfl
  | illegal _ _ _ _ _ h => subst h; exact .inl rfl
  | command c i he hrun hd h =>
    rw [takeEvent_active] at hrun
    exact (exec_mem h).imp fun a ha => .issue i (issuedCommand_of_issue he hrun hd) ha
  | poll cmd ph k b he hact h =>
    rw [takeEvent_active] at hact
    exact (resume_mem h).imp fun a ⟨r, ha, hr⟩ => .poll cmd ph k b r he hact ha hr
  | ret src f rest _ _ _ _ h => subst h; exact .inl (State.exitAction_mem _ src)
  | write addr b he h => subst h; exact .inr ⟨addr, b, .host b he, rfl⟩
  | line _ _ _ h => subst h; exact .inl rfl
  | tick _ _ h => subst h; exact .inl rfl
  | shift _ _ _ _ _ _ _ h => subst h; exact .inl rfl
  | frame _ _ _ _ _ _ _ _ h => subst h; exact .inl rfl
  | timerIrq _ _ h => subst h; exact .inl (State.dispatchTimer_mem _)
  | uartIrq i u _ _ _ h => subst h; exact .inl (State.dispatchUart_mem _ i u)

/-- Settles O49: a step's one store is `Memory.write` at an address of 32 bits. -/
theorem stepKeepsMemoryForm : Obligations.StepKeepsMemoryForm :=
  fun _ _ hwf hstep => (step_mem hstep).wf hwf

/-- Settles O54: a byte that changes is the one stored, so its address is one that `StoreAllowed` admits. -/
theorem memoryWriters : Obligations.MemoryWriters := by
  intro s t x hstep hx
  obtain ⟨a, rfl, hstore⟩ := (step_mem hstep).at_changed hx
  cases hstore with
  | host b he => exact .inl ⟨a, b, he, rfl⟩
  | issue i hi hr =>
    obtain ⟨n, size, rfl | rfl⟩ := hr
    · exact .inr (.inl ⟨n, a, size, rfl, .inl hi⟩)
    · exact .inr (.inl ⟨n, a, size, rfl, .inr hi⟩)
  | poll cmd ph k b r he hact ha hr =>
    obtain ⟨n, size, hcmd⟩ := hr
    exact .inr (.inr ⟨n, r, size, k, congrArg _ ha.symm, he, cmd, hcmd, ph, b, hact⟩)

end Sys2Proof.Machine
end

section
/-!
PROOFS. The decoder and the encoder (30_encoding.md R91 to R95, R106, R107): a word decodes to a command iff its fields
are the command's, and each mask of R107 tests just the fields that must be 0.
-/

namespace Sys2Proof

/-! Immediates of which only a part is used (R92). -/

/-- A word is a given pair of halves iff each half is. -/
theorem eq_append_iff {w v : Nat} {x : BitVec (w + v)} {hi : BitVec w} {lo : BitVec v} :
    x = hi ++ lo ↔ x.extractLsb' v w = hi ∧ x.extractLsb' 0 v = lo := by
  constructor
  · rintro rfl
    exact ⟨BitVec.extractLsb'_append_eq_left, BitVec.extractLsb'_append_eq_right⟩
  · rintro ⟨rfl, rfl⟩
    exact (append_halves x).symm

/-- The mask of the upper half leaves 0 iff the upper half is 0. -/
theorem and_upper_eq_zero_iff {w v : Nat} {x : BitVec (w + v)} :
    x &&& (BitVec.allOnes w ++ 0#v) = 0#(w + v) ↔ x.extractLsb' v w = 0#w := by
  have hand : x &&& (BitVec.allOnes w ++ 0#v) = x.extractLsb' v w ++ 0#v := by
    conv_lhs => rw [← append_halves x, BitVec.and_append, BitVec.and_allOnes, BitVec.and_zero]
  rw [hand]
  constructor
  · intro h
    simpa using (eq_append_iff.mp h.symm).1.symm
  · intro h
    rw [h, BitVec.zero_append_zero]

theorem extractLsb'_one_eq_ofBool {w : Nat} (x : BitVec w) : x.extractLsb' 0 1 = BitVec.ofBool (x.getLsbD 0) := by
  ext j hj
  obtain rfl : j = 0 := by omega
  simp

theorem eq_immField_tinit_iff {imm : Half} {c : Bool} :
    imm = (Instr.tinit c).immField ↔ imm.extractLsb' 1 15 = 0 ∧ imm.getLsbD 0 = c := by
  refine (eq_append_iff (w := 15) (v := 1)).trans (and_congr_right fun _ => ?_)
  rw [extractLsb'_one_eq_ofBool, BitVec.ofBool_eq_iff_eq]

theorem eq_immField_usendb_iff {imm : Half} {n b : Byte} :
    imm = (Instr.usendb n b).immField ↔ imm.extractLsb' 8 8 = 0 ∧ imm.extractLsb' 0 8 = b :=
  eq_append_iff (w := 8) (v := 8)

/-! What each of the decoder's checks accepts. -/

theorem needInstZero_eq_ok {cw : Word} {r : Except Illegal Instr} {i : Instr} :
    needInstZero cw r = .ok i ↔ cwInst cw = 0 ∧ r = .ok i := by
  unfold needInstZero
  split <;> rename_i h <;> simp only [h, true_and, false_and, reduceCtorEq]

theorem needImmZero_eq_ok {cw : Word} {i j : Instr} : needImmZero cw j = .ok i ↔ cwImm cw = 0 ∧ j = i := by
  unfold needImmZero
  split <;> rename_i h <;> simp only [h, true_and, false_and, reduceCtorEq, Except.ok.injEq]

theorem decodeTinit_eq_ok {cw : Word} {i : Instr} :
    decodeTinit cw = .ok i ↔ ∃ c, cwImm cw = (Instr.tinit c).immField ∧ .tinit c = i := by
  unfold decodeTinit
  simp only [eq_immField_tinit_iff, and_assoc, exists_and_left, exists_eq_left']
  split <;> rename_i h <;> simp only [h, true_and, false_and, reduceCtorEq, Except.ok.injEq]

theorem decodeUsendb_eq_ok {cw : Word} {i : Instr} :
    decodeUsendb cw = .ok i ↔ ∃ b, cwImm cw = (Instr.usendb (cwInst cw) b).immField ∧ .usendb (cwInst cw) b = i := by
  unfold decodeUsendb
  simp only [eq_immField_usendb_iff, and_assoc, exists_and_left, exists_eq_left']
  split <;> rename_i h <;> simp only [h, true_and, false_and, reduceCtorEq, Except.ok.injEq]

/-! The decoder. -/

/-- The operand words the command uses are `a1` and `a2` (R93). -/
def Instr.ReadsOperands (a1 a2 : Word) : Instr → Prop
  | .tsetcb r => r = a1
  | .uconfig _ r => r = a1
  | .urecvb _ r => r = a1
  | .usendbuf _ r size => r = a1 ∧ size = a2
  | .urecvbuf _ r size => r = a1 ∧ size = a2
  | .usendstr _ r => r = a1
  | .urecvstr _ r => r = a1
  | .usetcb _ r => r = a1
  | _ => True

/-- The transaction carries the command: the fields of its word are the command's (R91, R92, R94), and so are the operand
words the command uses (R93). -/
structure Command.Carries (c : Command) (i : Instr) : Prop where
  opc : cwOpc c.cw = i.opcode
  inst : cwInst c.cw = i.instField
  imm : cwImm c.cw = i.immField
  operands : i.ReadsOperands c.a1 c.a2

theorem encode_carries (i : Instr) : (encode i).Carries i := by
  obtain ⟨hopc, hinst, himm⟩ := Laws.EncodedFields.all i
  refine ⟨hopc, hinst, himm, ?_⟩
  cases i <;> simp [encode, Instr.ReadsOperands, Instr.a1Field, Instr.a2Field]

/-- A carried command's word is the encoder's. -/
theorem Command.Carries.encode_cw {c : Command} {i : Instr} (h : c.Carries i) : (encode i).cw = c.cw := by
  rw [← pack_fields c.cw, h.opc, h.inst, h.imm]
  rfl

/-- The decoder answers a command to every transaction that carries it. -/
theorem decode_of_carries {c : Command} {i : Instr} (h : c.Carries i) : decode c = .ok i := by
  obtain ⟨hopc, hinst, himm, hops⟩ := h
  unfold decode
  rw [hopc]
  cases i with
  | tinit bit => exact needInstZero_eq_ok.mpr ⟨hinst, decodeTinit_eq_ok.mpr ⟨bit, himm, rfl⟩⟩
  | tbusy ms => obtain rfl : cwImm c.cw = ms := himm; exact needInstZero_eq_ok.mpr ⟨hinst, rfl⟩
  | tsingle ms => obtain rfl : cwImm c.cw = ms := himm; exact needInstZero_eq_ok.mpr ⟨hinst, rfl⟩
  | tperiod ms => obtain rfl : cwImm c.cw = ms := himm; exact needInstZero_eq_ok.mpr ⟨hinst, rfl⟩
  | tsetcb r => cases hops; exact needInstZero_eq_ok.mpr ⟨hinst, needImmZero_eq_ok.mpr ⟨himm, rfl⟩⟩
  | telapsed => exact needInstZero_eq_ok.mpr ⟨hinst, needImmZero_eq_ok.mpr ⟨himm, rfl⟩⟩
  | tremain => exact needInstZero_eq_ok.mpr ⟨hinst, needImmZero_eq_ok.mpr ⟨himm, rfl⟩⟩
  | tdeinit => exact needInstZero_eq_ok.mpr ⟨hinst, needImmZero_eq_ok.mpr ⟨himm, rfl⟩⟩
  | uconfig n r => subst hinst; cases hops; exact needImmZero_eq_ok.mpr ⟨himm, rfl⟩
  | usendb n b => subst hinst; exact decodeUsendb_eq_ok.mpr ⟨b, himm, rfl⟩
  | urecvb n r => subst hinst; cases hops; exact needImmZero_eq_ok.mpr ⟨himm, rfl⟩
  | usendbuf n r size => subst hinst; obtain ⟨rfl, rfl⟩ := hops; exact needImmZero_eq_ok.mpr ⟨himm, rfl⟩
  | urecvbuf n r size => subst hinst; obtain ⟨rfl, rfl⟩ := hops; exact needImmZero_eq_ok.mpr ⟨himm, rfl⟩
  | usendstr n r => subst hinst; cases hops; exact needImmZero_eq_ok.mpr ⟨himm, rfl⟩
  | urecvstr n r => subst hinst; cases hops; exact needImmZero_eq_ok.mpr ⟨himm, rfl⟩
  | usetcb n r => subst hinst; cases hops; exact needImmZero_eq_ok.mpr ⟨himm, rfl⟩

/-- The decoder answers a command only to a transaction that carries it. -/
theorem carries_of_decode {c : Command} {i : Instr} (h : decode c = .ok i) : c.Carries i := by
  unfold decode at h
  split at h <;> rename_i hrow
  all_goals simp only [needInstZero_eq_ok, needImmZero_eq_ok, decodeTinit_eq_ok, decodeUsendb_eq_ok,
    Except.ok.injEq, reduceCtorEq] at h
  all_goals have hopc := (BitVec.toNat_eq_nat.mp hrow).2
  · obtain ⟨hinst, bit, himm, rfl⟩ := h
    exact ⟨hopc, hinst, himm, trivial⟩
  · obtain ⟨hinst, rfl⟩ := h
    exact ⟨hopc, hinst, rfl, trivial⟩
  · obtain ⟨hinst, rfl⟩ := h
    exact ⟨hopc, hinst, rfl, trivial⟩
  · obtain ⟨hinst, rfl⟩ := h
    exact ⟨hopc, hinst, rfl, trivial⟩
  · obtain ⟨hinst, himm, rfl⟩ := h
    exact ⟨hopc, hinst, himm, rfl⟩
  · obtain ⟨hinst, himm, rfl⟩ := h
    exact ⟨hopc, hinst, himm, trivial⟩
  · obtain ⟨hinst, himm, rfl⟩ := h
    exact ⟨hopc, hinst, himm, trivial⟩
  · obtain ⟨hinst, himm, rfl⟩ := h
    exact ⟨hopc, hinst, himm, trivial⟩
  · obtain ⟨himm, rfl⟩ := h
    exact ⟨hopc, rfl, himm, rfl⟩
  · obtain ⟨b, himm, rfl⟩ := h
    exact ⟨hopc, rfl, himm, trivial⟩
  · obtain ⟨himm, rfl⟩ := h
    exact ⟨hopc, rfl, himm, rfl⟩
  · obtain ⟨himm, rfl⟩ := h
    exact ⟨hopc, rfl, himm, rfl, rfl⟩
  · obtain ⟨himm, rfl⟩ := h
    exact ⟨hopc, rfl, himm, rfl, rfl⟩
  · obtain ⟨himm, rfl⟩ := h
    exact ⟨hopc, rfl, himm, rfl⟩
  · obtain ⟨himm, rfl⟩ := h
    exact ⟨hopc, rfl, himm, rfl⟩
  · obtain ⟨himm, rfl⟩ := h
    exact ⟨hopc, rfl, himm, rfl⟩

/-- Settles O1: the encoder's transaction carries its command. -/
theorem decodeOfEncode : Obligations.DecodeOfEncode :=
  fun i => decode_of_carries (encode_carries i)

/-- Settles O3: a transaction that decodes to a command carries it, and the carried fields make up the whole word. -/
theorem encodeOfDecode : Obligations.EncodeOfDecode :=
  fun _ _ h => (carries_of_decode h).encode_cw

/-! Match and mask (R107). -/

/-- A mask with all of `OPC` compares the opcode, and asks for 0 under its other bits. -/
theorem and_mask_eq_matchOf_iff {cw : Word} {opc inst : Byte} {imm : Half} :
    cw &&& packCw 0xFF inst imm = matchOf opc ↔ cwOpc cw = opc ∧ cwInst cw &&& inst = 0 ∧ cwImm cw &&& imm = 0 := by
  conv_lhs => rw [← pack_fields cw, pack_and, matchOf, pack_inj]
  rw [show (0xFF : Byte) = BitVec.allOnes 8 from rfl, BitVec.and_allOnes]

theorem and_immMask_tinit_eq_zero_iff {imm : Half} : imm &&& 0xFFFE = 0 ↔ ∃ c, imm = (Instr.tinit c).immField := by
  simp only [eq_immField_tinit_iff, exists_and_left, exists_eq', and_true]
  exact and_upper_eq_zero_iff (w := 15) (v := 1)

theorem and_immMask_usendb_eq_zero_iff {imm : Half} {n : Byte} :
    imm &&& 0xFF00 = 0 ↔ ∃ b, imm = (Instr.usendb n b).immField := by
  simp only [eq_immField_usendb_iff, exists_and_left, exists_eq', and_true]
  exact and_upper_eq_zero_iff (w := 8) (v := 8)

theorem and_mask_tinit {cw : Word} {opc : Byte} :
    cw &&& 0xFFFFFFFE = matchOf opc ↔ cwOpc cw = opc ∧ cwInst cw = 0 ∧ ∃ c, cwImm cw = (Instr.tinit c).immField := by
  rw [show (0xFFFFFFFE : Word) = packCw 0xFF (BitVec.allOnes 8) 0xFFFE from rfl, and_mask_eq_matchOf_iff,
    BitVec.and_allOnes, and_immMask_tinit_eq_zero_iff]

/-- The mask of TBUSY, TSINGLE and TPERIOD. -/
theorem and_mask_timer_imm {cw : Word} {opc : Byte} :
    cw &&& 0xFFFF0000 = matchOf opc ↔ cwOpc cw = opc ∧ cwInst cw = 0 := by
  rw [show (0xFFFF0000 : Word) = packCw 0xFF (BitVec.allOnes 8) 0#16 from rfl, and_mask_eq_matchOf_iff,
    BitVec.and_allOnes, BitVec.and_zero]
  exact and_congr_right fun _ => and_iff_left rfl

/-- The mask of the other timer commands. -/
theorem and_mask_timer {cw : Word} {opc : Byte} :
    cw &&& 0xFFFFFFFF = matchOf opc ↔ cwOpc cw = opc ∧ cwInst cw = 0 ∧ cwImm cw = 0 := by
  rw [show (0xFFFFFFFF : Word) = packCw 0xFF (BitVec.allOnes 8) (BitVec.allOnes 16) from rfl, and_mask_eq_matchOf_iff,
    BitVec.and_allOnes, BitVec.and_allOnes]

theorem and_mask_usendb {cw : Word} {opc : Byte} {n : Byte} :
    cw &&& 0xFF00FF00 = matchOf opc ↔ cwOpc cw = opc ∧ ∃ b, cwImm cw = (Instr.usendb n b).immField := by
  rw [show (0xFF00FF00 : Word) = packCw 0xFF 0#8 0xFF00 from rfl, and_mask_eq_matchOf_iff, BitVec.and_zero,
    and_immMask_usendb_eq_zero_iff]
  exact and_congr_right fun _ => and_iff_right rfl

/-- The mask of the other transceiver commands. -/
theorem and_mask_uart {cw : Word} {opc : Byte} :
    cw &&& 0xFF00FFFF = matchOf opc ↔ cwOpc cw = opc ∧ cwImm cw = 0 := by
  rw [show (0xFF00FFFF : Word) = packCw 0xFF 0#8 (BitVec.allOnes 16) from rfl, and_mask_eq_matchOf_iff,
    BitVec.and_zero, BitVec.and_allOnes]
  exact and_congr_right fun _ => and_iff_right rfl

/-- A word that carries a command agrees with the command's row. -/
theorem Command.Carries.agrees {c : Command} {i : Instr} (h : c.Carries i) :
    ∃ m, maskOf i.opcode = some m ∧ c.cw &&& m = matchOf i.opcode := by
  obtain ⟨hopc, hinst, himm, -⟩ := h
  cases i with
  | tinit bit => exact ⟨_, rfl, and_mask_tinit.mpr ⟨hopc, hinst, bit, himm⟩⟩
  | tbusy ms => exact ⟨_, rfl, and_mask_timer_imm.mpr ⟨hopc, hinst⟩⟩
  | tsingle ms => exact ⟨_, rfl, and_mask_timer_imm.mpr ⟨hopc, hinst⟩⟩
  | tperiod ms => exact ⟨_, rfl, and_mask_timer_imm.mpr ⟨hopc, hinst⟩⟩
  | tsetcb r => exact ⟨_, rfl, and_mask_timer.mpr ⟨hopc, hinst, himm⟩⟩
  | telapsed => exact ⟨_, rfl, and_mask_timer.mpr ⟨hopc, hinst, himm⟩⟩
  | tremain => exact ⟨_, rfl, and_mask_timer.mpr ⟨hopc, hinst, himm⟩⟩
  | tdeinit => exact ⟨_, rfl, and_mask_timer.mpr ⟨hopc, hinst, himm⟩⟩
  | uconfig n r => exact ⟨_, rfl, and_mask_uart.mpr ⟨hopc, himm⟩⟩
  | usendb n b => exact ⟨_, rfl, and_mask_usendb.mpr ⟨hopc, b, himm⟩⟩
  | urecvb n r => exact ⟨_, rfl, and_mask_uart.mpr ⟨hopc, himm⟩⟩
  | usendbuf n r size => exact ⟨_, rfl, and_mask_uart.mpr ⟨hopc, himm⟩⟩
  | urecvbuf n r size => exact ⟨_, rfl, and_mask_uart.mpr ⟨hopc, himm⟩⟩
  | usendstr n r => exact ⟨_, rfl, and_mask_uart.mpr ⟨hopc, himm⟩⟩
  | urecvstr n r => exact ⟨_, rfl, and_mask_uart.mpr ⟨hopc, himm⟩⟩
  | usetcb n r => exact ⟨_, rfl, and_mask_uart.mpr ⟨hopc, himm⟩⟩

/-- A word that agrees with a row carries a command of that row. -/
theorem exists_carries_of_agrees {c : Command} {opc : Byte} {m : Word} (hm : maskOf opc = some m)
    (hword : c.cw &&& m = matchOf opc) : ∃ i, c.Carries i ∧ i.opcode = opc := by
  unfold maskOf at hm
  split at hm <;> rename_i hrow <;> cases hm <;> obtain rfl := (BitVec.toNat_eq_nat.mp hrow).2
  · obtain ⟨hopc, hinst, bit, himm⟩ := and_mask_tinit.mp hword
    exact ⟨.tinit bit, ⟨hopc, hinst, himm, trivial⟩, rfl⟩
  · obtain ⟨hopc, hinst⟩ := and_mask_timer_imm.mp hword
    exact ⟨.tbusy (cwImm c.cw), ⟨hopc, hinst, rfl, trivial⟩, rfl⟩
  · obtain ⟨hopc, hinst⟩ := and_mask_timer_imm.mp hword
    exact ⟨.tsingle (cwImm c.cw), ⟨hopc, hinst, rfl, trivial⟩, rfl⟩
  · obtain ⟨hopc, hinst⟩ := and_mask_timer_imm.mp hword
    exact ⟨.tperiod (cwImm c.cw), ⟨hopc, hinst, rfl, trivial⟩, rfl⟩
  · obtain ⟨hopc, hinst, himm⟩ := and_mask_timer.mp hword
    exact ⟨.tsetcb c.a1, ⟨hopc, hinst, himm, rfl⟩, rfl⟩
  · obtain ⟨hopc, hinst, himm⟩ := and_mask_timer.mp hword
    exact ⟨.telapsed, ⟨hopc, hinst, himm, trivial⟩, rfl⟩
  · obtain ⟨hopc, hinst, himm⟩ := and_mask_timer.mp hword
    exact ⟨.tremain, ⟨hopc, hinst, himm, trivial⟩, rfl⟩
  · obtain ⟨hopc, hinst, himm⟩ := and_mask_timer.mp hword
    exact ⟨.tdeinit, ⟨hopc, hinst, himm, trivial⟩, rfl⟩
  · obtain ⟨hopc, himm⟩ := and_mask_uart.mp hword
    exact ⟨.uconfig (cwInst c.cw) c.a1, ⟨hopc, rfl, himm, rfl⟩, rfl⟩
  · obtain ⟨hopc, b, himm⟩ := and_mask_usendb.mp hword
    exact ⟨.usendb (cwInst c.cw) b, ⟨hopc, rfl, himm, trivial⟩, rfl⟩
  · obtain ⟨hopc, himm⟩ := and_mask_uart.mp hword
    exact ⟨.urecvb (cwInst c.cw) c.a1, ⟨hopc, rfl, himm, rfl⟩, rfl⟩
  · obtain ⟨hopc, himm⟩ := and_mask_uart.mp hword
    exact ⟨.usendbuf (cwInst c.cw) c.a1 c.a2, ⟨hopc, rfl, himm, rfl, rfl⟩, rfl⟩
  · obtain ⟨hopc, himm⟩ := and_mask_uart.mp hword
    exact ⟨.urecvbuf (cwInst c.cw) c.a1 c.a2, ⟨hopc, rfl, himm, rfl, rfl⟩, rfl⟩
  · obtain ⟨hopc, himm⟩ := and_mask_uart.mp hword
    exact ⟨.usendstr (cwInst c.cw) c.a1, ⟨hopc, rfl, himm, rfl⟩, rfl⟩
  · obtain ⟨hopc, himm⟩ := and_mask_uart.mp hword
    exact ⟨.urecvstr (cwInst c.cw) c.a1, ⟨hopc, rfl, himm, rfl⟩, rfl⟩
  · obtain ⟨hopc, himm⟩ := and_mask_uart.mp hword
    exact ⟨.usetcb (cwInst c.cw) c.a1, ⟨hopc, rfl, himm, rfl⟩, rfl⟩

/-- Settles O2: a word agrees with a row iff it carries a command of that row, and it decodes to just what it carries. -/
theorem decodeIsMatchAndMask : Obligations.DecodeIsMatchAndMask := by
  intro c opc
  constructor
  · rintro ⟨i, hi, rfl⟩
    exact (carries_of_decode hi).agrees
  · rintro ⟨m, hm, hword⟩
    obtain ⟨i, h, hopc⟩ := exists_carries_of_agrees hm hword
    exact ⟨i, decode_of_carries h, hopc⟩

/-! Worked words (R106). -/

/-- A word packed from a command's fields decodes to the command. -/
theorem decode_of_pack_eq {cw a1 a2 : Word} {i : Instr} (hcw : packCw i.opcode i.instField i.immField = cw)
    (hops : i.ReadsOperands a1 a2) : decode { cw := cw, a1 := a1, a2 := a2 } = .ok i := by
  subst hcw
  exact decode_of_carries ⟨cwOpc_pack _ _ _, cwInst_pack _ _ _, cwImm_pack _ _ _, hops⟩

/-- Settles O4: each legal word is packed from its command's fields, and the decoder runs on the two illegal ones. -/
theorem workedEncodings : Obligations.WorkedEncodings := by
  refine ⟨fun a1 a2 => ?_, fun s a1 hlen =>
    Machine.exec_uconfig_eq_next.mpr (.inl ⟨List.getElem?_eq_none hlen.le, rfl⟩)⟩
  and_intros
  · exact decode_of_pack_eq (show packCw 0x10 0 1 = 0x10000001 by decide) trivial
  · exact decode_of_pack_eq (show packCw 0x11 0 250 = 0x110000FA by decide) trivial
  · exact decode_of_pack_eq (show packCw 0x12 0 1000 = 0x120003E8 by decide) trivial
  · exact decode_of_pack_eq (show packCw 0x13 0 0 = 0x13000000 by decide) trivial
  · exact decode_of_pack_eq (show packCw 0x14 0 0 = 0x14000000 by decide) rfl
  · exact decode_of_pack_eq (show packCw 0x15 0 0 = 0x15000000 by decide) trivial
  · exact decode_of_pack_eq (show packCw 0x16 0 0 = 0x16000000 by decide) trivial
  · exact decode_of_pack_eq (show packCw 0x17 0 0 = 0x17000000 by decide) trivial
  · exact decode_of_pack_eq (show packCw 0x20 1 0 = 0x20010000 by decide) rfl
  · exact decode_of_pack_eq (show packCw 0x21 1 0x41 = 0x21010041 by decide) trivial
  · exact decode_of_pack_eq (show packCw 0x22 0 0 = 0x22000000 by decide) rfl
  · exact decode_of_pack_eq (show packCw 0x23 2 0 = 0x23020000 by decide) ⟨rfl, rfl⟩
  · exact decode_of_pack_eq (show packCw 0x24 2 0 = 0x24020000 by decide) ⟨rfl, rfl⟩
  · exact decode_of_pack_eq (show packCw 0x25 1 0 = 0x25010000 by decide) rfl
  · exact decode_of_pack_eq (show packCw 0x26 1 0 = 0x26010000 by decide) rfl
  · exact decode_of_pack_eq (show packCw 0x27 2 0 = 0x27020000 by decide) rfl
  · exact decode_of_pack_eq (show packCw 0x20 3 0 = 0x20030000 by decide) rfl
  · simp [decode, cwOpc]
  · simp [decode, cwOpc, cwInst, needInstZero]

end Sys2Proof
end

section
/-!
PROOFS. Issuing a command (60_exceptions.md R242), and the two ways a command is illegal (30_encoding.md R95).
-/

namespace Sys2Proof.Machine

/-- A step whose event is a command issued in a Running frame is the command's issue, with the event taken (R242). -/
theorem step_of_issue {s : State} {c : Command} {rest : List Event} (hok : s.paramsOk = true)
    (hinbox : s.inbox = .issue c :: rest) (hrun : s.active.act = .running) :
    step s = issueCommand c { s with inbox := rest } := by
  rw [step_of_paramsOk hok]
  simp only [State.nextEvent, State.takeEvent, hinbox, perform, whenRunning, hrun, Activity.isRunning, if_true]

theorem issueCommand_of_ok {c : Command} {i : Instr} (h : decode c = .ok i) (s : State) :
    issueCommand c s = exec i s := by
  simp only [issueCommand, h]

/-- R95 (a), (c). -/
theorem issueCommand_of_error {c : Command} {e : Illegal} (h : decode c = .error e) (s : State) :
    issueCommand c s = .next (s.deliver .illegalCommand 0) := by
  simp only [issueCommand, h, illegalCommand, finish]

/-- USETCB is the one command a build may lack (R95 b). -/
theorem wellFormed_eq_false_iff {rxIrq : Bool} {i : Instr} :
    i.wellFormed rxIrq = false ↔ rxIrq = false ∧ ∃ n r, i = .usetcb n r := by
  cases i <;> simp [Instr.wellFormed]

/-- R95 (b). -/
theorem exec_of_not_wellFormed {i : Instr} {s : State} (h : i.wellFormed s.params.rxIrqBuild = false) :
    exec i s = .next (s.deliver .illegalCommand 0) := by
  obtain ⟨hbuild, n, r, rfl⟩ := wellFormed_eq_false_iff.mp h
  exact exec_usetcb_eq_next.mpr (.inl ⟨hbuild, rfl⟩)

/-- Settles O6: the issue of either kind of illegal command only delivers its status. -/
theorem illegalWordDeliversIllegalCommand : Obligations.IllegalWordDeliversIllegalCommand := by
  intro s c rest hok hinbox hrun hillegal
  refine ⟨rfl, ?_⟩
  rw [step_of_issue hok hinbox hrun]
  rcases hillegal with ⟨e, he⟩ | ⟨i, hi, hwf⟩
  · exact issueCommand_of_error he _
  · exact (issueCommand_of_ok hi _).trans (exec_of_not_wellFormed hwf)

end Sys2Proof.Machine
end

section
/-!
PROOFS. Frames of the commands that store no byte of memory (30_encoding.md R94, 20_memory.md R60, 60_exceptions.md R221).
-/

namespace Sys2Proof.Machine

/-- A timer command's step at issue writes the timer and the active frame only. -/
theorem exec_timer_frame {i : Instr} {s t : State} (hi : Instr.uartInst i = none) (h : exec i s = .next t) :
    t = { s with timer := t.timer, active := t.active } := by
  cases exec_shape h with
  | ended _ _ h => subst h; rfl
  | timer _ _ h => subst h; rfl
  | busy _ _ _ h => subst h; rfl
  | config _ _ _ _ hcmd => subst hcmd; cases hi
  | callback _ _ _ hcmd => subst hcmd; cases hi
  | send _ _ _ _ hcmd => rw [uartInst_of_sendInst hcmd] at hi; cases hi
  | setup _ _ _ hcmd => subst hcmd; cases hi
  | recv _ _ _ _ hcmd => rw [uartInst_of_blockingOn hcmd] at hi; cases hi

/-- A transceiver command that polls for no byte at issue writes the instances and the active frame only. -/
theorem exec_uart_frame {i : Instr} {n : Byte} {s t : State} (hi : Instr.uartInst i = some n)
    (hrecv : ∀ r, ¬ ReceivesAtIssue i r) (h : exec i s = .next t) :
    t = { s with uarts := t.uarts, active := t.active } := by
  cases exec_shape h with
  | ended _ _ h => subst h; rfl
  | timer _ hnone => rw [hnone] at hi; cases hi
  | busy _ _ hcmd => subst hcmd; cases hi
  | config _ _ _ _ _ _ _ h => subst h; rfl
  | callback _ _ _ _ _ _ h => subst h; rfl
  | send _ _ _ _ _ _ _ _ h => subst h; rfl
  | setup _ _ _ _ _ _ h => subst h; rfl
  | recv m _ base _ _ _ _ hcmd =>
    rcases hcmd with ⟨size, hcmd⟩ | hcmd
    · exact absurd ⟨m, size, .inl hcmd⟩ (hrecv base)
    · exact absurd ⟨m, 0, .inr hcmd⟩ (hrecv base)

/-- A command's step at issue leaves every instance but its own alone (R30). -/
theorem exec_other_uart {i : Instr} {n : Byte} {s t : State} {j : Nat} (hi : Instr.uartInst i = some n)
    (hj : j ≠ n.toNat) (h : exec i s = .next t) : t.uarts[j]? = s.uarts[j]? := by
  rcases exec_uarts h with heq | ⟨m, hm, u, u', -, -, heq⟩
  · rw [heq]
  · obtain rfl : n = m := Option.some.inj (hi.symm.trans hm)
    rw [heq, List.getElem?_set_ne hj.symm]

/-- The frame of a timer command, with memory read byte by byte. -/
theorem exec_timer_frame_mem {l : List Instr} (hl : ∀ i ∈ l, Instr.uartInst i = none) {s t : State} :
    ∀ i ∈ l, exec i s = .next t →
      t = { s with timer := t.timer, active := t.active } ∧ ∀ a, Memory.read t.mem a = Memory.read s.mem a := by
  intro i hi h
  have hframe := exec_timer_frame (hl i hi) h
  exact ⟨hframe, fun a => by rw [hframe]⟩

/-- Settles O57: the listed timer commands have no instance, and the listed transceiver commands do not receive. -/
theorem nonReceivingCommandsFrame : Obligations.NonReceivingCommandsFrame := by
  refine fun s t => ⟨exec_timer_frame_mem (by simp [Instr.uartInst]),
    fun ms c r => exec_timer_frame_mem (by simp [armingCommands, Instr.uartInst]), fun n b r size i hi h => ?_⟩
  have hinst : Instr.uartInst i = some n := by
    revert i
    simp [Instr.uartInst]
  have hrecv : ∀ r, ¬ ReceivesAtIssue i r := by
    rintro r ⟨m, k, rfl | rfl⟩ <;> simp at hi
  have hframe := exec_uart_frame hinst hrecv h
  exact ⟨hframe, fun j hj => exec_other_uart hinst hj h, fun a => by rw [hframe]⟩

end Sys2Proof.Machine
end

section
/-!
PROOFS. The parity bit and the serial frame of a byte (30_encoding.md R102, R103).
-/

namespace Sys2Proof.Machine

/-- How often a predicate holds along a list is odd iff the xor of its values is true. -/
theorem countP_mod_two {α : Type} (p : α → Bool) (l : List α) :
    l.countP p % 2 = (l.foldr (fun a odd => p a ^^ odd) false).toNat := by
  induction l with
  | nil => rfl
  | cons a l ih =>
    rw [List.countP_cons, Nat.add_mod, ih, List.foldr_cons]
    cases p a <;> cases l.foldr (fun a odd => p a ^^ odd) false <;> rfl

theorem xorBits_eq_foldr (d : Byte) : xorBits d = (List.range 8).foldr (fun j odd => d.getLsbD j ^^ odd) false := by
  simp [xorBits, List.range_succ]

theorem toNat_add_toNat_xor_mod_two (a b : Bool) : (a.toNat + (a ^^ b).toNat) % 2 = b.toNat := by
  cases a <;> cases b <;> rfl

/-- The parity law (R103): the data bits' ones are odd in number iff `xorBits` is 1, and the parity bit makes up for it. -/
theorem countP_bits_add_parityBit (d : Byte) (ptype : Bool) :
    ((List.range 8).countP (fun j => d.getLsbD j) + (parityBit d ptype).toNat) % 2 = ptype.toNat := by
  rw [← Nat.mod_add_mod, countP_mod_two, ← xorBits_eq_foldr]
  exact toNat_add_toNat_xor_mod_two (xorBits d) ptype

theorem serialFrame_getElem?_data {d : Byte} {pen ptype : Bool} {j : Nat} (hj : j < 8) :
    (serialFrame d pen ptype)[j + 1]? = some (d.getLsbD j) := by
  interval_cases j <;> rfl

/-- Settles O34: the parity law, and the frame read position by position. -/
theorem frameAndParity : Obligations.FrameAndParity := by
  intro d pen ptype
  refine ⟨countP_bits_add_parityBit d ptype, ?_, rfl, serialFrame_getLast? d pen ptype,
    fun j hj => serialFrame_getElem?_data hj, ?_⟩
  · cases pen <;> rfl
  · rintro rfl
    rfl

end Sys2Proof.Machine
end

section
/-!
PROOFS. How the timer's mode and the active frame's activity change in a step, and what follows from it: a TBUSY in
progress spins (60_exceptions.md R236), and the mode's transition table (40_timer_engine.md R133).
-/

namespace Sys2Proof.Machine

/-! The command that acts in a step, issued or stepped. -/

theorem issuedCommand_eq_some {s : State} {i : Instr} :
    s.issuedCommand = some i ↔
      ∃ c, s.nextEvent = .issue c ∧ s.active.act.isRunning = true ∧ decode c = .ok i := by
  refine ⟨fun h => ?_, fun ⟨c, he, hr, hd⟩ => issuedCommand_of_issue he hr hd⟩
  unfold State.issuedCommand at h
  split at h
  · rename_i c he
    split at h
    · rename_i hr
      refine ⟨c, he, hr, ?_⟩
      cases hd : decode c with
      | error x => rw [hd] at h; cases h
      | ok j => rw [hd] at h; cases h; rfl
    · cases h
  · cases h

theorem steppedCommand_eq_some {s : State} {i : Instr} :
    s.steppedCommand = some i ↔ s.nextEvent = .sequencer ∧ ∃ ph k b, s.active.act = .inCmd i ph k b := by
  unfold State.steppedCommand
  split
  · rename_i cmd ph k b he ha
    simp [he, ha]
  · rename_i hno
    exact ⟨nofun, fun ⟨he, ph, k, b, ha⟩ => (hno i ph k b he ha).elim⟩

/-- The step of an issued command is the command's meaning, with the event taken (R242). -/
theorem exec_of_step_issued {s t : State} {i : Instr} (hstep : step s = .next t) (hi : s.issuedCommand = some i) :
    exec i s.takeEvent = .next t := by
  obtain ⟨c, he, hr, hd⟩ := issuedCommand_eq_some.mp hi
  have h := (step_eq_next.mp hstep).2
  rw [he, perform, whenRunning, takeEvent_active, if_pos hr, issueCommand_of_ok hd] at h
  exact h

/-- The sequencer's step of a command in progress is the command's next atomic step (R240). -/
theorem resume_of_step_stepped {s t : State} {i : Instr} (hstep : step s = .next t)
    (hi : s.steppedCommand = some i) :
    ∃ ph k b, s.active.act = .inCmd i ph k b ∧ resume i ph k b s.takeEvent = .next t := by
  obtain ⟨he, ph, k, b, ha⟩ := steppedCommand_eq_some.mp hi
  refine ⟨ph, k, b, ha, ?_⟩
  have h := (step_eq_next.mp hstep).2
  simp only [he, perform, sequencerStep, takeEvent_active, ha] at h
  exact h

theorem actingCommand_cases {s : State} {i : Instr} (hi : s.actingCommand = some i) :
    s.issuedCommand = some i ∨ s.steppedCommand = some i :=
  (Option.or_eq_some_iff.mp hi).imp_right And.right

/-! The mode. -/

/-- The arming commands, each with the mode it enters (R122 to R124). -/
def armedModes (ms : Half) : List (Instr × TimerMode) :=
  [(.tbusy ms, .busyWait), (.tsingle ms, .oneShot), (.tperiod ms, .periodic)]

/-- An arming command with a next state found no TBUSY spinning beneath its handler frame (R236). -/
theorem busyWaitBeneath_of_exec_arming {i : Instr} {m : TimerMode} {ms : Half} {s t : State}
    (hi : (i, m) ∈ armedModes ms) (h : exec i s = .next t) : s.busyWaitBeneath = false := by
  simp only [armedModes, List.mem_cons, Prod.mk.injEq, List.not_mem_nil, or_false] at hi
  rcases hi with ⟨rfl, -⟩ | ⟨rfl, -⟩ | ⟨rfl, -⟩
  · exact (exec_tbusy_eq_next.mp h).1
  · exact (exec_tsingle_eq_next.mp h).1
  · exact (exec_tperiod_eq_next.mp h).1

/-- A command changes the mode at issue only by arming, or as TDEINIT: TBUSY's deinit finds the timer in Idle (R134). -/
theorem exec_mode {i : Instr} {s t : State} (h : exec i s = .next t) (hne : t.timer.mode ≠ s.timer.mode) :
    (s.timer.mode = .idle ∧ s.busyWaitBeneath = false ∧ ∃ ms, (i, t.timer.mode) ∈ armedModes ms) ∨
    (i = .tdeinit ∧ t.timer.mode = .idle) := by
  cases exec_timer h with
  | keep ht => exact absurd (by rw [ht]) hne
  | clock _ _ _ ht => exact absurd (by rw [ht]) hne
  | callback _ _ _ ht => exact absurd (by rw [ht]) hne
  | arm ms n hi hm _ ht =>
    have hmem : (i, t.timer.mode) ∈ armedModes ms := by simp [armedModes, hi, ht, Timer.arm_eq]
    exact .inl ⟨hm, busyWaitBeneath_of_exec_arming hmem h, ms, hmem⟩
  | armIrq ms n mode hi hm _ ht =>
    have hmem : (i, t.timer.mode) ∈ armedModes ms := by
      rcases hi with ⟨hi, hmode⟩ | ⟨hi, hmode⟩ <;> simp [armedModes, hi, ht, hmode, Timer.armWithIrq_eq]
    exact .inl ⟨hm, busyWaitBeneath_of_exec_arming hmem h, ms, hmem⟩
  | deinit hi ht =>
    have hidle : t.timer.mode = .idle := by rw [ht, Timer.deinit_eq]
    rcases hi with ⟨ms, rfl⟩ | hi
    · rcases exec_tbusy_eq_next.mp h with ⟨-, ⟨-, rfl⟩ | ⟨hm, -⟩⟩
      · exact absurd rfl hne
      · exact absurd (hidle.trans hm.symm) hne
    · exact .inr ⟨hi, hidle⟩

/-- A later step of a command changes the mode only as the poll of TBUSY that sees `CF` = 1 (R122). -/
theorem resume_mode {cmd : Instr} {ph : Phase} {k : Word} {b : Byte} {s t : State}
    (h : resume cmd ph k b s = .next t) (hne : t.timer.mode ≠ s.timer.mode) :
    (∃ ms, cmd = .tbusy ms) ∧ s.timer.tctrl.cf = true ∧ t.timer.mode = .idle := by
  cases resume_shape h with
  | same h => exact absurd (by rw [h]) hne
  | busy ms hi hcf h => subst h; exact ⟨⟨ms, hi⟩, hcf, rfl⟩
  | noInstance _ _ _ h => subst h; exact absurd rfl hne
  | send _ _ _ _ _ _ _ h => subst h; exact absurd rfl hne
  | sent _ _ _ _ _ _ h => rcases h with rfl | rfl <;> exact absurd rfl hne
  | recv _ _ _ _ _ hu _ h =>
    obtain ⟨-, ht, -⟩ := recvPoll_frame hu h
    exact absurd (by rw [ht]) hne

@[simp] theorem Timer.tick_mode (t : Timer) : t.tick.mode = t.mode := by
  unfold Timer.tick
  split
  · split <;> rfl
  · rfl

@[simp] theorem takeEvent_busyWaitBeneath (s : State) : s.takeEvent.busyWaitBeneath = s.busyWaitBeneath := by
  rw [takeEvent_eq]
  rfl

/-- Who may change the mode, and how (R133). -/
inductive ModeChange (s t : State) : Prop where
  | arm (i : Instr) (ms : Half) (hi : s.issuedCommand = some i) (hm : s.timer.mode = .idle)
      (hfree : s.busyWaitBeneath = false) (hmem : (i, t.timer.mode) ∈ armedModes ms)
  | deinit (hi : s.issuedCommand = some .tdeinit) (h : t.timer.mode = .idle)
  | poll (ms : Half) (hi : s.steppedCommand = some (.tbusy ms)) (hcf : s.timer.tctrl.cf = true)
      (h : t.timer.mode = .idle)
  | exit (hm : s.timer.mode = .oneShot) (h : t.timer.mode = .idle)
      (he : (s.nextEvent = .dispatch .timer ∧ s.timer.callback = none) ∨
        (s.nextEvent = .handlerReturn ∧ s.active.ctx = .handler .timer))

/-- Every change of the mode is one of those. -/
theorem step_mode {s t : State} (hstep : step s = .next t) (hne : t.timer.mode ≠ s.timer.mode) : ModeChange s t := by
  cases (step_change hstep).timer with
  | keep h => exact absurd (by rw [h]) hne
  | command i hi _ =>
    rw [← takeEvent_timer s] at hne
    rcases actingCommand_cases hi with hi | hi
    · rcases exec_mode (exec_of_step_issued hstep hi) hne with ⟨hm, hfree, ms, hmem⟩ | ⟨rfl, hidle⟩
      · exact .arm i ms hi (takeEvent_timer s ▸ hm) (takeEvent_busyWaitBeneath s ▸ hfree) hmem
      · exact .deinit hi hidle
    · obtain ⟨ph, k, b, -, h⟩ := resume_of_step_stepped hstep hi
      obtain ⟨⟨ms, rfl⟩, hcf, hidle⟩ := resume_mode h hne
      exact .poll ms hi (takeEvent_timer s ▸ hcf) hidle
  | tick _ _ h => exact absurd (by rw [h, Timer.tick_mode]) hne
  | dispatch _ h => exact absurd (by rw [h]) hne
  | dispatchExit he hcb hm h => exact .exit hm (by rw [h, Timer.deinit_eq]) (.inl ⟨he, hcb⟩)
  | handlerExit he hc hm h => exact .exit hm (by rw [h, Timer.deinit_eq]) (.inr ⟨he, hc⟩)

/-- Settles O46: a poll's TBUSY has the timer in BusyWait or Idle, and Idle would be no change. -/
theorem modeTransitions : Obligations.ModeTransitions := by
  intro s t hinv hstep hne
  cases step_mode hstep hne with
  | arm i ms hi hm _ hmem =>
    simp only [armedModes, List.mem_cons, Prod.mk.injEq, List.not_mem_nil, or_false] at hmem
    refine .inl ⟨hm, ms, ?_⟩
    rcases hmem with ⟨rfl, hmode⟩ | ⟨rfl, hmode⟩ | ⟨rfl, hmode⟩
    · exact .inl ⟨hi, hmode⟩
    · exact .inr (.inl ⟨hi, hmode⟩)
    · exact .inr (.inr ⟨hi, hmode⟩)
  | deinit hi h => exact .inr (.inr (.inr ⟨h, hi⟩))
  | poll ms hi hcf h =>
    obtain ⟨-, ph, k, b, ha⟩ := steppedCommand_eq_some.mp hi
    obtain ⟨-, hbusy | hidle⟩ := hinv s.active List.mem_cons_self ms ph k b ha
    · exact .inr (.inl ⟨hbusy, h, hcf, ms, hi⟩)
    · exact absurd (h.trans hidle.symm) hne
  | exit hm h he => exact .inr (.inr (.inl ⟨hm, h, he⟩))

/-! The active frame's activity. -/

/-- What a step leaves the active frame doing: as before, host code, a resumed frame's, or the acting command. -/
inductive ActChange (s t : State) : Prop where
  | keep (h : t.active.act = s.active.act)
  | running (h : t.active.act = .running)
  | resumed (h : t.active ∈ s.beneath)
  | working (i : Instr) (ph : Phase) (k : Word) (b : Byte) (hi : s.actingCommand = some i)
      (h : t.active.act = .inCmd i ph k b)

/-- A poll of `RECV1` ends the command or leaves it in its spin phase (R185). -/
theorem recvPoll_act {cmd : Instr} {n : Byte} {u : Uart} {base k : Word} {last : Byte → Bool} {s t : State}
    (h : recvPoll cmd n u base k last s = .next t) :
    t.active.act = .running ∨ ∃ k', t.active.act = .inCmd cmd .spin k' 0 := by
  rcases recvPoll_eq_next.mp h with ⟨-, rfl⟩ | ⟨-, s1, -, h⟩
  · exact .inr ⟨k, rfl⟩
  · rcases recvAfter_eq_next.mp h with ⟨-, rfl⟩ | ⟨-, rfl⟩
    · exact .inl rfl
    · exact .inr ⟨k + 1, rfl⟩

/-- A command's step at issue ends it or leaves it in its spin phase (R40, R42). -/
theorem exec_act {i : Instr} {s t : State} (h : exec i s = .next t) :
    t.active.act = .running ∨ ∃ k b, t.active.act = .inCmd i .spin k b := by
  cases exec_shape h with
  | ended _ _ h => subst h; exact .inl rfl
  | timer _ _ h => subst h; exact .inl rfl
  | busy _ _ _ h => subst h; exact .inr ⟨0, 0, rfl⟩
  | config _ _ _ _ _ _ _ h => subst h; exact .inl rfl
  | callback _ _ _ _ _ _ h => subst h; exact .inl rfl
  | send _ _ _ b _ _ _ _ h => subst h; exact .inr ⟨0, b, rfl⟩
  | setup _ _ _ _ _ _ h => subst h; exact .inr ⟨0, 0, rfl⟩
  | recv _ _ _ _ _ _ _ _ h => exact (recvPoll_act h).imp_right fun ⟨k, hk⟩ => ⟨k, 0, hk⟩

/-- A later step ends the command, leaves it as it is, or moves it on to another poll or byte (R40, R42). -/
theorem resume_act {cmd : Instr} {ph : Phase} {k : Word} {b : Byte} {s t : State}
    (h : resume cmd ph k b s = .next t) :
    t.active.act = s.active.act ∨ t.active.act = .running ∨ ∃ ph' k' b', t.active.act = .inCmd cmd ph' k' b' := by
  cases resume_shape h with
  | same h => exact .inl (by rw [h])
  | busy _ _ _ h => subst h; exact .inr (.inl rfl)
  | noInstance _ _ _ h => subst h; exact .inr (.inl rfl)
  | send _ _ _ b' _ _ _ h => subst h; exact .inr (.inr ⟨.spin, k, b', rfl⟩)
  | sent _ _ _ _ _ _ h =>
    rcases h with rfl | rfl
    · exact .inr (.inl rfl)
    · exact .inr (.inr ⟨.start, k + 1, 0, rfl⟩)
  | recv _ _ _ _ _ _ _ h => exact .inr ((recvPoll_act h).imp_right fun ⟨k', hk⟩ => ⟨.spin, k', 0, hk⟩)

@[simp] theorem State.exitAction_active (s : State) (src : Source) : (s.exitAction src).active = s.active := by
  rcases exitAction_cases s src with h | ⟨-, -, h⟩ <;> rw [h]
  rfl

theorem dispatchTimer_act (s : State) :
    s.dispatchTimer.active.act = s.active.act ∨ s.dispatchTimer.active.act = .running := by
  rcases dispatchTimer_cases s with ⟨_, -, h⟩ | ⟨-, h⟩ <;> rw [h]
  · exact .inr rfl
  · exact .inl (by rw [State.exitAction_active]; rfl)

theorem dispatchUart_act (s : State) (i : Nat) (u : Uart) :
    (s.dispatchUart i u).active.act = s.active.act ∨ (s.dispatchUart i u).active.act = .running := by
  rcases dispatchUart_cases s i u with ⟨_, _, h⟩ | h <;> rw [h]
  · exact .inr rfl
  · exact .inl rfl

/-- Every step leaves the active frame in one of those activities. -/
theorem step_act {s t : State} (hstep : step s = .next t) : ActChange s t := by
  cases step_shape hstep with
  | same h => exact .keep (by rw [h, takeEvent_active])
  | illegal _ _ _ _ _ h => subst h; exact .running rfl
  | command c i he hr hd h =>
    rw [takeEvent_active] at hr
    rcases exec_act h with h | ⟨k, b, h⟩
    · exact .running h
    · exact .working i .spin k b (actingCommand_of_issue he hr hd) h
  | poll cmd ph k b he ha h =>
    rw [takeEvent_active] at ha
    rcases resume_act h with h | h | ⟨ph', k', b', h⟩
    · exact .keep (by rw [h, takeEvent_active])
    · exact .running h
    · exact .working cmd ph' k' b' (actingCommand_of_poll he ha) h
  | ret _ f rest _ _ _ hb h =>
    rw [takeEvent_beneath] at hb
    refine .resumed ?_
    rw [h, State.exitAction_active, hb]
    exact List.mem_cons_self
  | write _ _ _ h => subst h; exact .keep (by simp)
  | line _ _ _ h => subst h; exact .keep (by simp [State.setLine])
  | tick _ _ h => subst h; exact .keep (by simp)
  | shift _ _ _ _ _ _ _ h => subst h; exact .keep (by simp)
  | frame _ _ _ _ _ _ _ _ h => subst h; exact .keep (by simp)
  | timerIrq _ _ h =>
    subst h
    rcases dispatchTimer_act s.takeEvent with h | h
    · exact .keep (by rw [h, takeEvent_active])
    · exact .running h
  | uartIrq i u _ _ _ h =>
    subst h
    rcases dispatchUart_act s.takeEvent i u with h | h
    · exact .keep (by rw [h, takeEvent_active])
    · exact .running h

/-! A TBUSY in progress. -/

/-- TBUSY left in progress by its issue has armed the timer (R122). -/
theorem exec_tbusy_armed {ms : Half} {s t : State} (h : exec (.tbusy ms) s = .next t) (hact : t.active.act ≠ .running) :
    t.active.act = .inCmd (.tbusy ms) .spin 0 0 ∧ t.timer.mode = .busyWait := by
  rcases exec_tbusy_eq_next.mp h with ⟨-, ⟨-, rfl⟩ | ⟨-, f, -, ⟨-, rfl⟩ | ⟨-, ⟨-, rfl⟩ | ⟨-, rfl⟩⟩⟩⟩
  · exact absurd rfl hact
  · exact absurd rfl hact
  · exact absurd rfl hact
  · exact ⟨rfl, rfl⟩

/-- A frame beneath the active one after a step was on the stack before it. -/
theorem StackChange.mem_of_mem_beneath {s t : State} (h : StackChange s t) {f : Frame} (hf : f ∈ t.beneath) :
    f ∈ s.active :: s.beneath := by
  cases h with
  | keep _ hb => exact List.mem_cons_of_mem _ (hb ▸ hf)
  | enter _ _ _ hb => exact hb ▸ hf
  | ret _ _ hb => exact List.mem_cons_of_mem _ (hb ▸ List.mem_cons_of_mem _ hf)

/-- A TBUSY in progress after a step was in progress before it, or has just been armed. -/
theorem step_tbusy {s t : State} (hstep : step s = .next t) {f : Frame} (hf : f ∈ t.active :: t.beneath)
    {ms : Half} {ph : Phase} {k : Word} {b : Byte} (hact : f.act = .inCmd (.tbusy ms) ph k b) :
    (∃ g ∈ s.active :: s.beneath, g.act = .inCmd (.tbusy ms) ph k b) ∨ (ph = .spin ∧ t.timer.mode = .busyWait) := by
  rcases List.mem_cons.mp hf with rfl | hf
  case inr => exact .inl ⟨f, (step_change hstep).stack.mem_of_mem_beneath hf, hact⟩
  cases step_act hstep with
  | keep h => exact .inl ⟨s.active, List.mem_cons_self, h ▸ hact⟩
  | running h => rw [h] at hact; cases hact
  | resumed h => exact .inl ⟨t.active, List.mem_cons_of_mem _ h, hact⟩
  | working i ph' k' b' hi h =>
    obtain rfl : i = .tbusy ms := by rw [h] at hact; cases hact; rfl
    rcases actingCommand_cases hi with hi | hi
    · obtain ⟨harmed, hmode⟩ := exec_tbusy_armed (exec_of_step_issued hstep hi) (by rw [hact]; nofun)
      rw [harmed] at hact
      cases hact
      exact .inr ⟨rfl, hmode⟩
    · obtain ⟨_, _, _, -, h⟩ := resume_of_step_stepped hstep hi
      rcases busyPoll_eq_next.mp h with ⟨-, rfl⟩ | ⟨-, rfl⟩
      · cases hact
      · exact .inl ⟨s.active, List.mem_cons_self, takeEvent_active s ▸ hact⟩

/-- On a stack of R40's shape, a TBUSY spinning beneath the active frame is one that R236 looks for: the active
frame is a handler's. -/
theorem busyWaitBeneath_of_mem {s : State} (hshape : stackShape (s.active :: s.beneath) = true) {f : Frame}
    (hf : f ∈ s.beneath) (hbusy : f.busyWaiting = true) : s.busyWaitBeneath = true := by
  cases hb : s.beneath with
  | nil => rw [hb] at hf; cases hf
  | cons g rest =>
    rw [hb] at hshape
    simp only [stackShape, Bool.and_eq_true] at hshape
    simp only [State.busyWaitBeneath, State.inHandler, hshape.1, Bool.true_and]
    exact List.any_eq_true.mpr ⟨f, hf, hbusy⟩

/-- Settles O45: the mode leaves BusyWait and Idle only by an arming command, which R236 refuses over a TBUSY. -/
theorem stepKeepsBusyWaitInv : Obligations.StepKeepsBusyWaitInv := by
  intro s t ⟨hshape, _⟩ hinv hstep f hf ms ph k b hact
  rcases step_tbusy hstep hf hact with ⟨g, hg, hgact⟩ | ⟨hph, hmode⟩
  case inr => exact ⟨hph, .inl hmode⟩
  obtain ⟨rfl, hmode⟩ := hinv g hg ms ph k b hgact
  refine ⟨rfl, ?_⟩
  by_cases hsame : t.timer.mode = s.timer.mode
  · exact hsame ▸ hmode
  cases step_mode hstep hsame with
  | arm i _ hi _ hfree _ =>
    obtain ⟨_, -, hrun, -⟩ := issuedCommand_eq_some.mp hi
    have hbeneath : g ∈ s.beneath := by
      refine (List.mem_cons.mp hg).resolve_left fun h => ?_
      rw [← h, hgact] at hrun
      cases hrun
    have hbusy : g.busyWaiting = true := by simp [Frame.busyWaiting, hgact]
    rw [busyWaitBeneath_of_mem hshape hbeneath hbusy] at hfree
    cases hfree
  | deinit _ h => exact .inr h
  | poll _ _ _ h => exact .inr h
  | exit _ h _ => exact .inr h

end Sys2Proof.Machine
end

section
/-!
PROOFS. The timer commands' steps, the poll of TBUSY and the counter's tick, each with its whole next state
(40_timer_engine.md R120 to R135).
-/

namespace Sys2Proof.Machine

/-! The arming check, one equation per outcome (R120, R132). -/

theorem armCheck_of_armed {ms : Half} {s : State} (hm : s.timer.mode ≠ .idle) (go : Nat → Answer) :
    armCheck ms s go = .next (s.deliver .busyError 0) :=
  if_pos hm

theorem armCheck_of_no_frequency {ms : Half} {s : State} (hm : s.timer.mode = .idle)
    (hf : s.timer.tickFrequency = none) (go : Nat → Answer) : armCheck ms s go = .refused .armBeforeInit := by
  simp [armCheck, hm, hf]

theorem armCheck_of_frequency {ms : Half} {f : Nat} {s : State} (hm : s.timer.mode = .idle)
    (hf : s.timer.tickFrequency = some f) (go : Nat → Answer) :
    armCheck ms s go = if intervalTooLong ms f then .next (s.deliver .overflowError 0) else go (tickCount ms f) := by
  simp [armCheck, hm, hf, finish]

theorem maxTicks_mul_thousand : Config.maxTicks * 1000 = 16777215000 := by norm_num [Config.maxTicks]

theorem intervalTooLong_eq_true_iff {ms : Half} {f : Nat} : intervalTooLong ms f = true ↔ 16777215000 < ms.toNat * f := by
  rw [← maxTicks_mul_thousand]
  exact decide_eq_true_iff

theorem intervalTooLong_eq_false_iff {ms : Half} {f : Nat} :
    intervalTooLong ms f = false ↔ ms.toNat * f ≤ 16777215000 := by
  rw [Bool.eq_false_iff, ne_eq, intervalTooLong_eq_true_iff, Nat.not_lt]

theorem tickCount_eq_zero_iff {ms : Half} {f : Nat} : tickCount ms f = 0 ↔ ms.toNat * f < 1000 := by
  simp only [tickCount, Nat.div_eq_zero_iff]
  omega

theorem guardRearm_of_free {s : State} (hfree : s.busyWaitBeneath = false) (go : Answer) : guardRearm s go = go :=
  if_neg (Bool.eq_false_iff.mp hfree)

/-- With no TBUSY spinning beneath, each arming command is the arming check and what it does with `N` (R120, R236). -/
theorem exec_arming {i : Instr} {ms : Half} {s : State} (hi : i ∈ armingCommands ms) (hfree : s.busyWaitBeneath = false) :
    ∃ go, exec i s = armCheck ms s go := by
  simp only [armingCommands, List.mem_cons, List.not_mem_nil, or_false] at hi
  rcases hi with rfl | rfl | rfl <;> exact ⟨_, guardRearm_of_free hfree _⟩

/-- Settles O13: the three ways the arming check stops the command. -/
theorem armingCheckFailures : Obligations.ArmingCheckFailures := by
  intro ms s hfree i hi
  obtain ⟨go, hexec⟩ := exec_arming hi hfree
  rw [hexec]
  refine ⟨fun hm => armCheck_of_armed hm go, fun hm hf => armCheck_of_no_frequency hm hf go, fun f hm hf hlong => ?_⟩
  rw [armCheck_of_frequency hm hf, if_pos (intervalTooLong_eq_true_iff.mpr hlong)]

/-! Arming and not arming. -/

/-- The reload value of an accepted interval of at least one tick (R122). -/
theorem toNat_reload {ms : Half} {f : Nat} (hlong : ms.toNat * f ≤ 16777215000) :
    (BitVec.ofNat 24 (tickCount ms f - 1)).toNat = ms.toNat * f / 1000 - 1 := by
  rw [BitVec.toNat_ofNat, tickCount, Nat.mod_eq_of_lt (by omega)]

/-- Settles O10: the arming check yields `N`, and TBUSY arms with it. -/
theorem tbusyArms : Obligations.TbusyArms := by
  intro ms f s hfree hm hf hmin hmax
  have hN : tickCount ms f ≠ 0 := by rw [ne_eq, tickCount_eq_zero_iff]; omega
  exact ⟨_, toNat_reload hmax, exec_tbusy_eq_next.mpr
    ⟨hfree, .inr ⟨hm, f, hf, .inr ⟨intervalTooLong_eq_false_iff.mpr hmax, .inr ⟨hN, rfl⟩⟩⟩⟩⟩

/-- Settles O11: the arming check yields `N`, and both commands arm their mode with it. -/
theorem tsingleTperiodArm : Obligations.TsingleTperiodArm := by
  intro ms f s hfree hm hf hmin hmax
  have hN : tickCount ms f ≠ 0 := by rw [ne_eq, tickCount_eq_zero_iff]; omega
  have hshort := intervalTooLong_eq_false_iff.mpr hmax
  refine ⟨_, toNat_reload hmax, ?_⟩
  simp only [List.forall_mem_cons]
  exact ⟨exec_tsingle_eq_next.mpr ⟨hfree, .inr ⟨hm, f, hf, .inr ⟨hshort, hN, rfl⟩⟩⟩,
    exec_tperiod_eq_next.mpr ⟨hfree, .inr ⟨hm, f, hf, .inr ⟨hshort, hN, rfl⟩⟩⟩, nofun⟩

/-- With zero ticks the arming check goes on with 0 (R134). -/
theorem armCheck_of_zero_ticks {ms : Half} {f : Nat} {s : State} (hm : s.timer.mode = .idle)
    (hf : s.timer.tickFrequency = some f) (hzero : ms.toNat * f < 1000) (go : Nat → Answer) :
    armCheck ms s go = go 0 := by
  have hshort : intervalTooLong ms f = false := intervalTooLong_eq_false_iff.mpr (by omega)
  rw [armCheck_of_frequency hm hf, hshort, tickCount_eq_zero_iff.mpr hzero]
  rfl

/-- Settles O12: zero ticks run TBUSY's deinit actions and refuse the other two. -/
theorem zeroTickInterval : Obligations.ZeroTickInterval := by
  intro ms f s hfree hm hf hzero
  refine ⟨?_, ?_, ?_⟩ <;>
    exact (guardRearm_of_free hfree _).trans (armCheck_of_zero_ticks hm hf hzero _)

/-! The other commands and the poll of TBUSY. -/

/-- Settles O9: TINIT's one write of the timer; the divider `Config.clkDiv` is 8 by definition. -/
theorem tinitSelectsClock : Obligations.TinitSelectsClock :=
  fun _ _ => exec_tinit_eq_next.mpr rfl

/-- Settles O15: the sequencer's step of a TBUSY in progress is its poll. -/
theorem tbusyPoll : Obligations.TbusyPoll := by
  intro ms ph k b s hact
  have hpoll : perform .sequencer s = busyPoll s := by simp only [perform, sequencerStep, hact, resume]
  rw [hpoll]
  exact ⟨fun hcf => busyPoll_eq_next.mpr (.inr ⟨hcf, rfl⟩), fun hcf => busyPoll_eq_next.mpr (.inl ⟨hcf, rfl⟩)⟩

/-- Settles O16: the null check, and for USETCB first the build and the instance check. -/
theorem handlerCommandsStore : Obligations.HandlerCommandsStore := by
  refine ⟨fun h s => ⟨fun hpresent => ?_, fun habsent => ?_⟩, fun n h s => ⟨fun hbuild => ?_, fun hbuild hn => ?_,
    fun u hbuild hu => ⟨fun habsent => ?_, fun hpresent => ?_⟩⟩⟩
  · exact exec_tsetcb_eq_next.mpr (.inr ⟨hpresent, rfl⟩)
  · exact exec_tsetcb_eq_next.mpr (.inl ⟨habsent, rfl⟩)
  · exact exec_usetcb_eq_next.mpr (.inl ⟨hbuild, rfl⟩)
  · exact exec_usetcb_eq_next.mpr (.inr ⟨hbuild, .inl ⟨List.getElem?_eq_none hn, rfl⟩⟩)
  · exact exec_usetcb_eq_next.mpr (.inr ⟨hbuild, .inr ⟨u, hu, .inl ⟨habsent, rfl⟩⟩⟩)
  · exact exec_usetcb_eq_next.mpr (.inr ⟨hbuild, .inr ⟨u, hu, .inr ⟨hpresent, rfl⟩⟩⟩)

/-- Settles O17: the two reads deliver a 24-bit value widened to 32 bits; in Idle both cells are 0 (R29 b). -/
theorem tickReads : Obligations.TickReads := by
  intro s
  refine ⟨fun hle => ⟨_, ?_, exec_telapsed_eq_next.mpr rfl⟩, ⟨_, ?_, exec_tremain_eq_next.mpr rfl⟩, fun hm hinv => ?_⟩
  · rw [BitVec.toNat_setWidth_of_le (by decide), BitVec.toNat_sub_of_le hle]
  · exact BitVec.toNat_setWidth_of_le (by decide)
  · obtain ⟨-, hidle, -⟩ := hinv
    obtain ⟨-, -, hload, hval, -⟩ := hidle hm
    rw [exec_telapsed_eq_next, exec_tremain_eq_next, hload, hval]
    exact ⟨rfl, rfl⟩

/-- Settles O18: the deinit actions are idempotent, and so is the delivery. -/
theorem tdeinitDisarms : Obligations.TdeinitDisarms := by
  refine fun s => ⟨exec_tdeinit_eq_next.mpr rfl, fun t ht => ?_⟩
  obtain rfl := exec_tdeinit_eq_next.mp ht
  exact exec_tdeinit_eq_next.mpr rfl

/-! The counter. -/

/-- Settles O19: a tick counts down, or is an expiry. -/
theorem counterTick : Obligations.CounterTick := by
  refine fun s => ⟨fun hen hval => ⟨s.timer.tval - 1, by bv_omega, ?_⟩, fun hen hval => ?_⟩
  · obtain ⟨-, htick⟩ := (Timer.tick_cases hen).resolve_right fun h => hval h.1
    rw [perform, htick]
  · obtain ⟨-, htick⟩ := (Timer.tick_cases hen).resolve_left fun h => h.1 hval
    rw [perform, htick]
    cases htie : s.timer.tctrl.tie <;> simp [Timer.expire, htie]

/-- What R131 says of the timer armed with `n` ticks as `t`, after `k` ticks. -/
def Timer.afterTicks (n k : Nat) (t : Timer) : Timer :=
  { t with
    tval := BitVec.ofNat 24 (n - 1 - k % n)
    tctrl := { t.tctrl with cf := decide (n ≤ k) }
    irqPending := t.irqPending || (t.tctrl.tie && decide (n ≤ k)) }

/-- Before the first tick the timer is as it was armed (R122). -/
theorem Timer.afterTicks_zero {n : Nat} {t : Timer} (hn : 1 ≤ n) (hload : BitVec.ofNat 24 (n - 1) = t.tload)
    (hval : t.tval = t.tload) (hcf : t.tctrl.cf = false) : t.afterTicks n 0 = t := by
  have hbefore : decide (n ≤ 0) = false := decide_eq_false (by omega)
  rw [Timer.afterTicks, Nat.zero_mod, Nat.sub_zero, hload.trans hval.symm, hbefore, Bool.and_false, Bool.or_false, ← hcf]

theorem Timer.toNat_tval_afterTicks {n : Nat} (hn : n ≤ 2 ^ 24) (k : Nat) (t : Timer) :
    (t.afterTicks n k).tval.toNat = n - 1 - k % n := by
  rw [Timer.afterTicks, BitVec.toNat_ofNat]
  exact Nat.mod_eq_of_lt (by omega)

/-- The counter stands at 0 just when the next tick's number is a multiple of `n` (R131). -/
theorem Timer.tval_afterTicks_eq_zero_iff {n : Nat} (hn1 : 1 ≤ n) (hn : n ≤ 2 ^ 24) (k : Nat) (t : Timer) :
    (t.afterTicks n k).tval = 0 ↔ n ∣ k + 1 := by
  have hlt : k % n < n := Nat.mod_lt k hn1
  rw [← Nat.mod_eq_sub_iff Nat.one_pos hn1, ← BitVec.toNat_inj, Timer.toNat_tval_afterTicks hn]
  change n - 1 - k % n = 0 ↔ _
  omega

/-- The residue of the tick's number goes up by one, up to a multiple of `n`. -/
theorem succ_mod_of_not_dvd {n k : Nat} (hn : 1 ≤ n) (h : ¬ n ∣ k + 1) : (k + 1) % n = k % n + 1 := by
  have hlt : k % n < n := Nat.mod_lt k hn
  have hlast : k % n ≠ n - 1 := by rwa [ne_eq, Nat.mod_eq_sub_iff Nat.one_pos hn]
  have hone : 1 % n = 1 := Nat.mod_eq_of_lt (by omega)
  rw [Nat.add_mod_of_add_mod_lt (by omega), hone]

/-- A tick whose number is no multiple of `n` counts down (R130). -/
theorem Timer.tick_afterTicks_of_not_dvd {n k : Nat} {t : Timer} (hn1 : 1 ≤ n) (hn : n ≤ 2 ^ 24)
    (hen : t.tctrl.en = true) (h : ¬ n ∣ k + 1) : (t.afterTicks n k).tick = t.afterTicks n (k + 1) := by
  have hzero := Timer.tval_afterTicks_eq_zero_iff hn1 hn k t
  obtain ⟨-, htick⟩ := (Timer.tick_cases (t := t.afterTicks n k) hen).resolve_right fun hv => h (hzero.mp hv.1)
  have hval : (t.afterTicks n k).tval - 1 = BitVec.ofNat 24 (n - 1 - (k + 1) % n) := by
    have hmod := succ_mod_of_not_dvd hn1 h
    have hlt : (k + 1) % n < n := Nat.mod_lt _ hn1
    rw [Timer.afterTicks]
    bv_omega
  have hcf : n ≤ k + 1 ↔ n ≤ k := by
    have hne : n ≠ k + 1 := fun heq => h (heq ▸ dvd_rfl)
    omega
  rw [htick, hval]
  simp only [Timer.afterTicks, hcf]

/-- A tick whose number is a multiple of `n` is an expiry (R130). -/
theorem Timer.tick_afterTicks_of_dvd {n k : Nat} {t : Timer} (hn1 : 1 ≤ n) (hn : n ≤ 2 ^ 24)
    (hen : t.tctrl.en = true) (hload : BitVec.ofNat 24 (n - 1) = t.tload) (h : n ∣ k + 1) :
    (t.afterTicks n k).tick = t.afterTicks n (k + 1) := by
  have hzero := Timer.tval_afterTicks_eq_zero_iff hn1 hn k t
  obtain ⟨-, htick⟩ := (Timer.tick_cases (t := t.afterTicks n k) hen).resolve_left fun hv => hv.1 (hzero.mpr h)
  have hirq (a b c : Bool) : (a || b && c || b) = (a || b) := by cases b <;> simp
  rw [htick]
  simp only [Timer.expire, Timer.afterTicks, Nat.mod_eq_zero_of_dvd h, Nat.sub_zero, hload,
    decide_eq_true (Nat.le_of_dvd k.succ_pos h), Bool.and_true, hirq]

/-- After `k` ticks the timer is as R131 says, by induction on `k`. -/
theorem Timer.iterate_tick {n : Nat} {t : Timer} (hn1 : 1 ≤ n) (hn : n ≤ 2 ^ 24) (hen : t.tctrl.en = true)
    (hload : BitVec.ofNat 24 (n - 1) = t.tload) (hval : t.tval = t.tload) (hcf : t.tctrl.cf = false) (k : Nat) :
    Timer.tick^[k] t = t.afterTicks n k := by
  induction k with
  | zero => exact (Timer.afterTicks_zero hn1 hload hval hcf).symm
  | succ k ih =>
    rw [Function.iterate_succ_apply', ih]
    by_cases h : n ∣ k + 1
    · exact Timer.tick_afterTicks_of_dvd hn1 hn hen hload h
    · exact Timer.tick_afterTicks_of_not_dvd hn1 hn hen h

/-- Settles O20: by induction on the ticks the timer is the closed form, which counts modulo `n`. -/
theorem countingLaw : Obligations.CountingLaw := by
  intro n k t hn1 hen htload hval hcf
  have hn : n ≤ 2 ^ 24 := by have := t.tload.isLt; omega
  have hload : BitVec.ofNat 24 (n - 1) = t.tload := by rw [← htload, BitVec.ofNat_toNat, BitVec.setWidth_eq]
  have hticks := Timer.iterate_tick hn1 hn hen hload hval hcf
  refine ⟨?_, fun hk => ?_, ?_⟩
  · rw [hticks, Timer.toNat_tval_afterTicks hn]
  · rw [hticks, Timer.tval_afterTicks_eq_zero_iff hn1 hn, Nat.sub_add_cancel hk]
  · rw [hticks]
    rfl

end Sys2Proof.Machine
end

section
/-!
PROOFS. The Baud-Rate Synthesizer (41_baud_synthesizer.md R160 to R162): every intermediate value of R160 is a digit or a
remainder of `F / B`, so mantissa and fraction together are `F / B` rounded half up.
-/

namespace Sys2Proof.Machine

/-! R160's intermediate values, read off the quotient and the remainder of `F / B`. -/

theorem baudMantissa_eq (f b : Nat) : baudMantissa f b = f / b / 16 :=
  (Nat.div_div_eq_div_mul f b 16).symm

theorem baudFracFloor_eq (f b : Nat) : baudFracFloor f b = f / b % 16 :=
  Nat.mod_mul_right_div_self f b 16

theorem baudFracNum_mod (f b : Nat) : baudFracNum f b % b = f % b :=
  Nat.mod_mul_right_mod f b 16

theorem baudRoundsUp_iff {f b : Nat} : baudRoundsUp f b = true ↔ b ≤ 2 * (f % b) := by
  rw [baudRoundsUp, decide_eq_true_eq, baudFracNum_mod]
  omega

/-- Rounding the fraction half up rounds `F / B` half up (R161): with `F = B * q + r`, the half added to `r / B` reaches
the next integer just when `B ≤ 2 * r`. -/
theorem roundHalfUp_eq {f b : Nat} (hb : 0 < b) :
    (2 * f + b) / (2 * b) = f / b + if baudRoundsUp f b then 1 else 0 := by
  have hr : f % b < b := Nat.mod_lt f hb
  have hsplit : 2 * f + b = 2 * b * (f / b) + (2 * (f % b) + b) := by
    rw [Nat.mul_assoc, ← Nat.add_assoc, ← Nat.mul_add, Nat.div_add_mod]
  rw [hsplit, Nat.mul_add_div (by omega)]
  congr 1
  split
  next hup =>
    have := baudRoundsUp_iff.mp hup
    exact Nat.div_eq_of_lt_le (by omega) (by omega)
  next hdown =>
    have := baudRoundsUp_iff.not.mp hdown
    exact Nat.div_eq_of_lt (by omega)

theorem baudFracRounded_le (f b : Nat) : baudFracRounded f b ≤ 16 := by
  rw [baudFracRounded, baudFracFloor_eq]
  split <;> omega

/-- The carry leaves the fraction below 16 (R160, R162). -/
theorem baudFields_snd_lt (f b : Nat) : (baudFields f b).2 < 16 := by
  have hle := baudFracRounded_le f b
  unfold baudFields
  split
  next => exact Nat.zero_lt_succ 15
  next hne => exact Nat.lt_of_le_of_ne hle hne

/-- The carry moves 16 from the fraction to the mantissa and keeps the value (R160). -/
theorem baudFields_value_eq_rounded (f b : Nat) :
    (baudFields f b).1 * 16 + (baudFields f b).2 = baudMantissa f b * 16 + baudFracRounded f b := by
  unfold baudFields
  split
  next hcarry =>
    rw [hcarry, Nat.succ_mul]
    rfl
  next => rfl

/-- R161 before the 16-bit field: mantissa and fraction are `F / B` rounded half up. -/
theorem baudFields_value {f b : Nat} (hb : 0 < b) :
    (baudFields f b).1 * 16 + (baudFields f b).2 = (2 * f + b) / (2 * b) := by
  rw [baudFields_value_eq_rounded, roundHalfUp_eq hb, baudFracRounded, baudMantissa_eq, baudFracFloor_eq,
    ← Nat.add_assoc, Nat.div_add_mod']

/-- The word is `M * 16 + Fi` where the mantissa fits its 12 bits (R160). -/
theorem brsynth_toNat_of_fst_lt {f b : Nat} (hm : (baudFields f b).1 < 4096) :
    (brsynth f b).toNat = (baudFields f b).1 * 16 + (baudFields f b).2 := by
  have hf := baudFields_snd_lt f b
  rw [brsynth, BitVec.toNat_append, BitVec.toNat_ofNat, BitVec.toNat_ofNat, Nat.mod_eq_of_lt hm, Nat.mod_eq_of_lt hf,
    ← Nat.shiftLeft_add_eq_or_of_lt hf, Nat.shiftLeft_eq]

/-- The mantissa fits its 12 bits where the rounded quotient fits 16. -/
theorem baudFields_fst_lt {f b : Nat} (hb : 0 < b) (h : (2 * f + b) / (2 * b) < 65536) : (baudFields f b).1 < 4096 := by
  have := baudFields_value hb ▸ h
  omega

/-- R6 (b): `F < 78,642,600` keeps the slowest rate's divisor, and so every rate's, in 16 bits. -/
theorem roundHalfUp_lt {f b : Nat} (hf : f < 78642600) (hb : 1200 ≤ b) : (2 * f + b) / (2 * b) < 65536 :=
  (Nat.div_lt_iff_lt_mul (by omega)).mpr (by omega)

/-- R6 (c): `F ≥ 1,500,000` keeps the fastest rate's divisor, and so every rate's, off zero. -/
theorem roundHalfUp_pos {f b : Nat} (hf : 1500000 ≤ f) (hb : 0 < b) (hmax : b ≤ 3000000) :
    0 < (2 * f + b) / (2 * b) :=
  Nat.div_pos (by omega) (by omega)

/-- Settles O21: the word is mantissa and fraction, and these are the rounded quotient. -/
theorem brsynthClosedForm : Obligations.BrsynthClosedForm := by
  intro f b hb hfits
  rw [brsynth_toNat_of_fst_lt (baudFields_fst_lt hb hfits), baudFields_value hb]

/-- Settles O22: R6's bounds put the rounded quotient in 1 to 65535, so the mantissa fits and the word is not 0. -/
theorem brsynthStaysInField : Obligations.BrsynthStaysInField := by
  intro f b hfmin hfmax hbmin hbmax
  have hb : 0 < b := by omega
  have hfits := roundHalfUp_lt hfmax hbmin
  have hm := baudFields_fst_lt hb hfits
  refine ⟨?_, Nat.le_of_lt_succ hm, baudFields_snd_lt f b, brsynth_toNat_of_fst_lt hm⟩
  rw [brsynthClosedForm f b hb hfits]
  exact roundHalfUp_pos hfmin hb hbmax

end Sys2Proof.Machine
end

section
/-!
PROOFS. The transceiver commands at issue and in the sequencer's later steps (42_uart_transceiver.md R170 to R177, R179,
R185): their operand checks, the data-slot write of a send, and the polls.
-/

namespace Sys2Proof.Machine

/-! The operand checks, when they pass (R93, R170, R237, R262). -/

theorem instCheck_of_some {n : Byte} {s : State} {u : Uart} (hu : s.uarts[n.toNat]? = some u) (go : Uart → Answer) :
    instCheck n s go = go u := by
  simp only [instCheck, hu]

theorem nullCheck_of_ne_zero {r : Word} (hr : r ≠ 0) (s : State) (go : Answer) : nullCheck r s go = go :=
  if_neg hr

theorem guardNestedSend_of_free {n : Byte} {s : State} (hfree : s.sendBeneath n = false) (go : Answer) :
    guardNestedSend n s go = go :=
  if_neg (Bool.eq_false_iff.mp hfree)

theorem needConfigured_of_configured {u : Uart} (hc : u.configured = true) (go : Answer) : needConfigured u go = go :=
  if_pos hc

/-- Settles O23: each command begins with the instance check, USETCB once its build is tested. -/
theorem instanceCheckFirst : Obligations.InstanceCheckFirst := by
  intro n b r size s hn
  have hu : s.uarts[n.toNat]? = none := List.getElem?_eq_none hn
  simp only [uartCommands, transferCommands, List.forall_mem_cons]
  exact ⟨fun _ => exec_uconfig_eq_next.mpr (.inl ⟨hu, rfl⟩),
    fun hbuild => exec_usetcb_eq_next.mpr (.inr ⟨hbuild, .inl ⟨hu, rfl⟩⟩),
    fun _ => exec_usendb_eq_next.mpr (.inl ⟨hu, rfl⟩), fun _ => exec_urecvb_eq_next.mpr (.inl ⟨hu, rfl⟩),
    fun _ => exec_usendbuf_eq_next.mpr (.inl ⟨hu, rfl⟩), fun _ => exec_urecvbuf_eq_next.mpr (.inl ⟨hu, rfl⟩),
    fun _ => exec_usendstr_eq_next.mpr (.inl ⟨hu, rfl⟩), fun _ => exec_urecvstr_eq_next.mpr (.inl ⟨hu, rfl⟩), nofun⟩

/-- Settles O28: after its operand checks a buffer command of size 0 ends. -/
theorem zeroSizeBufferCompletes : Obligations.ZeroSizeBufferCompletes :=
  fun _ _ u _ hu hc hr =>
    ⟨fun hfree => exec_usendbuf_eq_next.mpr (.inr ⟨u, hu, hfree, .inr ⟨hr, hc, .inl ⟨rfl, rfl⟩⟩⟩),
      exec_urecvbuf_eq_next.mpr (.inr ⟨u, hu, .inr ⟨hr, hc, .inl ⟨rfl, rfl⟩⟩⟩)⟩

/-! UCONFIG (R171). -/

theorem readRecord_of_fields {s : State} {p : Word} {baud dup par : Nat} (hbaud : s.memRead p 4 = .ok baud)
    (hdup : s.memRead (p + 4) 1 = .ok dup) (hpar : s.memRead (p + 5) 1 = .ok par) :
    s.readRecord p = .ok { baud := baud, duplex := dup, parity := par } := by
  simp only [State.readRecord, hbaud, hdup, hpar]

/-- The range checks with the bounds and members of R98, R99 and R171 written out. -/
theorem firstError_eq (baud dup par : Nat) :
    ConfigRecord.firstError { baud := baud, duplex := dup, parity := par } =
      if baud < 1200 ∨ 3000000 < baud then some .baudRateError
      else if dup ∉ [1, 2, 3] then some .deviceModeError
      else if par ∉ [0, 2, 3] then some .parityError
      else none := by
  have hbaud : (!baudInRange baud) = true ↔ baud < 1200 ∨ 3000000 < baud := by
    rw [baudInRange, Bool.not_and, Bool.or_eq_true, Bool.not_eq_true', Bool.not_eq_true', decide_eq_false_iff_not,
      decide_eq_false_iff_not, Nat.not_le, Nat.not_le]
    exact Iff.rfl
  have hdup : (!duplexMember dup) = true ↔ dup ∉ [1, 2, 3] := by
    simp [duplexMember, and_assoc]
  have hpar : (!parityMember par) = true ↔ par ∉ [0, 2, 3] := by
    simp [parityMember, and_assoc]
  simp only [ConfigRecord.firstError, hbaud, hdup, hpar]

/-- The register writes, field by field. -/
theorem Uart.configure_eq (p : Params) (baud dup par : Nat) (u : Uart) :
    u.configure p { baud := baud, duplex := dup, parity := par } =
      { u with
        configured := true
        ucr :=
          { pen := par.testBit 1
            ptype := par.testBit 0
            rxen := dup.testBit 0
            txen := dup.testBit 1
            rxie := if p.rxIrqBuild then true else u.ucr.rxie
            uen := true }
        ubrr := brsynth p.fRef baud } := by
  cases hbuild : p.rxIrqBuild <;> simp [Uart.configure, hbuild]

/-- Settles O25: the instance check, the null check and the range checks in order, then the register writes. -/
theorem uconfigValidatesThenWrites : Obligations.UconfigValidatesThenWrites := by
  refine fun n p s => ⟨fun hn => ?_, fun u hu hp => ?_, fun u baud dup par hu hp hbaud hdup hpar => ?_⟩
  · exact exec_uconfig_eq_next.mpr (.inl ⟨List.getElem?_eq_none hn, rfl⟩)
  · exact exec_uconfig_eq_next.mpr (.inr ⟨u, hu, .inl ⟨hp, rfl⟩⟩)
  · refine exec_uconfig_eq_next.mpr
      (.inr ⟨u, hu, .inr ⟨hp, _, readRecord_of_fields hbaud hdup hpar, ?_⟩⟩)
    rw [firstError_eq, ← Uart.configure_eq]
    split_ifs
    · exact .inl ⟨_, rfl, rfl⟩
    · exact .inr ⟨rfl, rfl⟩
    · exact .inl ⟨_, rfl, rfl⟩
    · exact .inl ⟨_, rfl, rfl⟩

/-! Sending. -/

/-- `FRAME` bit by bit: start bit, data bits least significant first, parity bit if enabled, stop bit (R102, R103). -/
theorem serialFrame_eq_ofFn (b : Byte) (pen ptype : Bool) :
    serialFrame b pen ptype = false :: (List.ofFn fun j : Fin 8 => b.getLsbD j) ++
      (if pen then [if ptype then !xorBits b else xorBits b] else []) ++ [true] := by
  cases ptype <;> simp [serialFrame, parityBit]

/-- The data-slot write of a send has three outcomes: the byte's frame is loaded, or the busy shifter refuses, or with
an enable 0 the byte is discarded; unless refused, the command then polls (R179). -/
theorem sendByte_outcomes (cmd : Instr) (n : Byte) (u : Uart) (k : Word) (b : Byte) (s : State) :
    (u.ucr.uen = true → u.ucr.txen = true → u.tx = [] →
      sendByte cmd n u k b s = .next ((s.withUart n.toNat
        { u with tdr := b, tx := serialFrame b u.ucr.pen u.ucr.ptype }).spin cmd k b)) ∧
    (u.ucr.uen = true → u.ucr.txen = true → u.tx ≠ [] → sendByte cmd n u k b s = .refused .drWriteWhileShifting) ∧
    ((u.ucr.uen && u.ucr.txen) = false →
      sendByte cmd n u k b s = .next ((s.withUart n.toNat { u with tdr := b }).spin cmd k b)) := by
  refine ⟨fun hen htxen htx => ?_, fun hen htxen htx => ?_, fun hoff => ?_⟩
  · exact sendByte_eq_next.mpr ⟨_, writeUdr_byte_eq_ok.mpr (.inl ⟨by rw [hen, htxen]; rfl, htx, rfl⟩), rfl⟩
  · simp [sendByte, Uart.writeUdr, hen, htxen, htx]
  · exact sendByte_eq_next.mpr ⟨_, writeUdr_byte_eq_ok.mpr (.inr ⟨hoff, rfl⟩), rfl⟩

theorem sendFrom_of_readByte {s : State} {base k : Word} {b : Byte} (hb : s.readByte (base + k) = .ok b) (cmd : Instr)
    (n : Byte) (u : Uart) : sendFrom cmd n u base k s = sendByte cmd n u k b s := by
  simp only [sendFrom, byteAddr, hb]

/-- Once its operand checks have passed, a send command writes its first byte to the data slot (R172, R174, R176). -/
theorem exec_send {n b : Byte} {i : Instr} {u : Uart} {s : State} (hu : s.uarts[n.toNat]? = some u)
    (hc : u.configured = true) (hfree : s.sendBeneath n = false)
    (hi : i = .usendb n b ∨
      ∃ r size, r ≠ 0 ∧ size ≠ 0 ∧ s.readByte r = .ok b ∧ (i = .usendbuf n r size ∨ i = .usendstr n r)) :
    exec i s = sendByte i n u 0 b s := by
  rcases hi with rfl | ⟨r, size, hr, hsize, hb, hi⟩
  · simp only [exec, execUsendb, instCheck_of_some hu, guardNestedSend_of_free hfree, needConfigured_of_configured hc]
  · have hfirst : s.readByte (r + 0) = .ok b := by simpa using hb
    rcases hi with rfl | rfl
    · simp only [exec, execUsendbuf, instCheck_of_some hu, guardNestedSend_of_free hfree, nullCheck_of_ne_zero hr,
        needConfigured_of_configured hc, if_neg hsize, sendFrom_of_readByte hfirst]
    · simp only [exec, execUsendstr, instCheck_of_some hu, guardNestedSend_of_free hfree, nullCheck_of_ne_zero hr,
        needConfigured_of_configured hc, sendFrom_of_readByte hfirst]

/-- Settles O27: the first step is the data-slot write, and the frame it loads is R102's. -/
theorem sendWritesDataSlot : Obligations.SendWritesDataSlot := by
  intro n b i u s hu hc hfree hi
  rw [exec_send hu hc hfree hi, ← serialFrame_eq_ofFn]
  exact sendByte_outcomes i n u 0 b s

/-- The sequencer's step of a frame with a command in progress is that command's next step (R240). -/
theorem perform_sequencer {s : State} {cmd : Instr} {ph : Phase} {k : Word} {b : Byte}
    (hact : s.active.act = .inCmd cmd ph k b) : perform .sequencer s = resume cmd ph k b s := by
  simp only [perform, sequencerStep, hact]

/-- Settles O29: the step is a poll of `SEND1`, with each command's own test for its last byte (`sendPoll` itself
names the model's poll). -/
theorem sendPollWaitsForTc : Obligations.SendPoll := by
  intro n b byte r size k u s hu x hx hact
  have hpoll : perform .sequencer s = sendPoll x.1 n u k x.2 s := by
    rw [perform_sequencer hact]
    simp only [List.mem_cons, List.not_mem_nil, or_false] at hx
    rcases hx with rfl | rfl | rfl <;> exact instCheck_of_some hu _
  rw [hpoll]
  refine ⟨fun htc => sendPoll_eq_next.mpr (.inl ⟨htc, rfl⟩), fun htc => sendPoll_eq_next.mpr (.inr ?_)⟩
  cases x.2
  · exact .inr ⟨htc, rfl, rfl⟩
  · exact .inl ⟨htc, rfl, rfl⟩

/-- Settles O30: the step is the data-slot write of the byte at `r + k`. -/
theorem sendNextByte : Obligations.SendNextByte := by
  intro n b v r size k u s hu hv i hi hact
  have hsend : perform .sequencer s = sendByte i n u k v s := by
    rw [perform_sequencer hact, ← sendFrom_of_readByte hv]
    simp only [List.mem_cons, List.not_mem_nil, or_false] at hi
    rcases hi with rfl | rfl <;> exact instCheck_of_some hu _
  rw [hsend]
  exact sendByte_outcomes i n u k v s

/-! Receiving. -/

/-- `t` is `s` with the byte of instance `n` stored at `a`, the data slot read, and the command ended with Success if
the byte is its `last`, or else at `next` (R66, R185). -/
def ByteStored (n : Byte) (u : Uart) (a : Word) (last : Bool) (next : Activity) (s t : State) : Prop :=
  Memory.read t.mem a.toNat = u.rdr ∧
  (∀ x, x ≠ a.toNat → Memory.read t.mem x = Memory.read s.mem x) ∧
  t.uarts = s.uarts.set n.toNat
    { u with usr := { u.usr with rxne := if s.params.rxneClearedByRead then false else true } } ∧
  t.active = { s.active with
    act := if last then .running else next
    result := if last then some { st := .success, rv := 0 } else s.active.result } ∧
  t = { s with mem := t.mem, uarts := t.uarts, active := t.active }

/-- The read of a data slot that holds a byte lowers `RXNE` when the parameter says so (R34, R66). -/
theorem readUdr_of_rxne {u : Uart} (hrx : u.usr.rxne = true) (clears : Bool) :
    (u.readUdr clears).2 = { u with usr := { u.usr with rxne := if clears then false else true } } := by
  cases clears <;> simp [Uart.readUdr, hrx]

/-- A poll of `RECV1` with `RXNE` = 1 stores the byte waiting (R185). -/
theorem recvPoll_stores {cmd : Instr} {n : Byte} {u : Uart} {base k : Word} {last : Byte → Bool} {s : State}
    (hwf : Memory.wf s.mem = true) (hrx : u.usr.rxne = true) (hback : Params.backs s.params (base + k) = true) :
    ∃ t, recvPoll cmd n u base k last s = .next t ∧
      ByteStored n u (base + k) (last u.rdr) (.inCmd cmd .spin (k + 1) 0) s t := by
  have hstore : ∀ t, recvAfter cmd k (last u.rdr)
      (State.withUart { s with mem := Memory.write s.mem (base + k).toNat u.rdr } n.toNat
        (u.readUdr s.params.rxneClearedByRead).2) = .next t → recvPoll cmd n u base k last s = .next t :=
    fun t h => recvPoll_eq_next.mpr (.inr ⟨hrx, _, writeByte_eq_ok.mpr ⟨hback, rfl⟩, h⟩)
  rw [readUdr_of_rxne hrx] at hstore
  have hother : ∀ x, x ≠ (base + k).toNat →
      Memory.read (Memory.write s.mem (base + k).toNat u.rdr) x = Memory.read s.mem x :=
    fun x hx => Memory.read_write_ne hx s.mem
  cases hlast : last u.rdr
  · have hnext := hstore _ (recvAfter_eq_next.mpr (.inr ⟨hlast, rfl⟩))
    exact ⟨_, hnext, Memory.read_write_self hwf, hother, rfl, rfl, rfl⟩
  · have hnext := hstore _ (recvAfter_eq_next.mpr (.inl ⟨hlast, rfl⟩))
    exact ⟨_, hnext, Memory.read_write_self hwf, hother, rfl, rfl, rfl⟩

/-- Both outcomes of a poll of `RECV1`: it goes on spinning, or stores the byte waiting (R185). -/
theorem recvPoll_outcomes (cmd : Instr) (n : Byte) (u : Uart) (base k : Word) (last : Byte → Bool) {s : State}
    (hwf : Memory.wf s.mem = true) :
    (u.usr.rxne = false → recvPoll cmd n u base k last s = .next (s.spin cmd k 0)) ∧
    (u.usr.rxne = true → Params.backs s.params (base + k) = true →
      ∃ t, recvPoll cmd n u base k last s = .next t ∧
        ByteStored n u (base + k) (last u.rdr) (.inCmd cmd .spin (k + 1) 0) s t) :=
  ⟨fun hrx => recvPoll_eq_next.mpr (.inl ⟨hrx, rfl⟩), fun hrx hback => recvPoll_stores hwf hrx hback⟩

/-- A size other than 0 is one byte just when byte 0 is the last one (R175). -/
theorem lastOfSize_zero {size : Word} (hsize : size ≠ 0) : lastOfSize 0 size = decide (size = 1) := by
  unfold lastOfSize
  congr 1
  rw [eq_iff_iff]
  constructor <;> intro h <;> bv_omega

/-- Settles O32: URECVB's set-up step, and the first poll of the other two. -/
theorem receiveCommands : Obligations.ReceiveCommands := by
  intro n r size u s hwf hu hc hr hsize
  refine ⟨exec_urecvb_eq_next.mpr (.inr ⟨u, hu, .inr ⟨hr, hc, rfl⟩⟩), fun x hx => ?_⟩
  have hpoll : ∃ last, last u.rdr = x.2 ∧ exec x.1 s = recvPoll x.1 n u r 0 last s := by
    simp only [List.mem_cons, List.not_mem_nil, or_false] at hx
    rcases hx with rfl | rfl
    · refine ⟨fun _ => lastOfSize 0 size, lastOfSize_zero hsize, ?_⟩
      simp only [exec, execUrecvbuf, instCheck_of_some hu, nullCheck_of_ne_zero hr, needConfigured_of_configured hc,
        if_neg hsize]
    · refine ⟨fun v => decide (v = Config.terminator), rfl, ?_⟩
      simp only [exec, execUrecvstr, instCheck_of_some hu, nullCheck_of_ne_zero hr, needConfigured_of_configured hc]
  obtain ⟨last, hlast, hpoll⟩ := hpoll
  have hout := recvPoll_outcomes x.1 n u r 0 last hwf
  rw [show r + 0 = r from BitVec.add_zero r, hlast] at hout
  rw [hpoll]
  exact hout

/-- Settles O33: the step is a poll of `RECV1`, with each command's own test for its last byte. -/
theorem receivePoll : Obligations.ReceivePoll := by
  intro n b ph r size k u s hwf hu x hx hact
  have hpoll : ∃ last, last u.rdr = x.2 ∧ perform .sequencer s = recvPoll x.1 n u r k last s := by
    rw [perform_sequencer hact]
    simp only [List.mem_cons, List.not_mem_nil, or_false] at hx
    rcases hx with rfl | rfl | rfl <;> exact ⟨_, rfl, instCheck_of_some hu _⟩
  obtain ⟨last, hlast, hpoll⟩ := hpoll
  rw [hpoll, ← hlast]
  exact recvPoll_outcomes x.1 n u r k last hwf

end Sys2Proof.Machine
end

section
/-!
PROOFS. The serial line (42_uart_transceiver.md R180 to R183): a frame shifted out to its end, and a frame that arrives.
-/

namespace Sys2Proof.Machine

/-! Shifting out (R180, R181). -/

/-- A shift drives the first bit and keeps the rest; with the last bit `TC` is 1. -/
theorem Uart.shift_of_cons {u : Uart} {b : Bool} {rest : List Bool} (htx : u.tx = b :: rest) :
    u.shift = { u with
      txd := b, tx := rest, usr := { u.usr with tc := if rest = [] then true else u.usr.tc } } := by
  cases rest <;> simp [Uart.shift, htx]

theorem txShift_of_cons {i : Nat} {u : Uart} {s : State} {b : Bool} {rest : List Bool} (hu : s.uarts[i]? = some u)
    (htx : u.tx = b :: rest) : s.txShift i = (s.withUart i u.shift).emit (.txBit i b) := by
  simp only [State.txShift, hu, htx]

/-- As many shifts as the frame has bits put those bits on the line in order, and leave the shifter idle. -/
theorem iterate_txShift (i : Nat) (frame : List Bool) (u : Uart) (s : State) (hu : s.uarts[i]? = some u)
    (htx : u.tx = frame) (hne : frame ≠ []) :
    (State.txShift i)^[frame.length] s =
      { s with
        uarts := s.uarts.set i
          { u with tx := [], txd := frame.getLast?.getD true, usr := { u.usr with tc := true } }
        trace := (frame.map (Emission.txBit i)).reverse ++ s.trace } := by
  induction frame generalizing u s with
  | nil => exact absurd rfl hne
  | cons b rest ih =>
    have hshift := Uart.shift_of_cons htx
    rw [List.length_cons, Function.iterate_succ_apply, txShift_of_cons hu htx]
    cases rest with
    | nil =>
      rw [hshift]
      rfl
    | cons c rest =>
      have hu' : ((s.withUart i u.shift).emit (.txBit i b)).uarts[i]? = some u.shift :=
        State.getElem?_withUart_self s i u.shift u hu
      rw [ih u.shift _ hu' (by rw [hshift]) (List.cons_ne_nil c rest), hshift]
      simp [State.withUart, State.emit]

/-- Settles O35: one shift, and all of them by induction on the frame. -/
theorem frameShiftsOut : Obligations.FrameShiftsOut := by
  refine fun i u s hu => ⟨fun b rest htx => ?_, iterate_txShift i u.tx u s hu rfl⟩
  rw [perform, txShift_of_cons hu htx, Uart.shift_of_cons htx]
  rfl

/-! Frame arrival (R182, R183, R262). -/

/-- With `RXNE` at 1 already, raising it changes nothing. -/
theorem Usr.raise_rxne {f : Usr} (hrx : f.rxne = true) : { f with rxne := true } = f := by
  rw [← hrx]

/-- A received frame leaves its byte in the cell, or at an overrun perhaps the byte before it, and `RXNE` at 1. -/
theorem receive_eq (takeNew : Bool) (d : Byte) (u : Uart) :
    ∃ v, (v = d ∨ (u.usr.rxne = true ∧ v = u.rdr)) ∧
      u.receive takeNew d = { u with rdr := v, usr := { u.usr with rxne := true } } := by
  by_cases hrx : u.usr.rxne = true
  · cases takeNew
    · exact ⟨u.rdr, .inr ⟨hrx, rfl⟩, by rw [Usr.raise_rxne hrx, Uart.receive, if_pos hrx]; rfl⟩
    · exact ⟨d, .inl rfl, by simp [Uart.receive, hrx, Uart.takeByte]⟩
  · exact ⟨d, .inl rfl, by simp [Uart.receive, hrx, Uart.takeByte]⟩

theorem receive_of_empty {u : Uart} (hrx : u.usr.rxne = false) (takeNew : Bool) (d : Byte) :
    u.receive takeNew d = u.takeByte d := by
  simp [Uart.receive, hrx]

/-- An instance never configured raises no receive request (R262 d). -/
theorem requested_of_unconfigured {s : State} {i : Nat} {u : Uart} (hu : s.uarts[i]? = some u)
    (hc : u.configured = false) : s.requested (.uartRx i) = false := by
  simp [State.requested, hu, Uart.rxRequest, hc]

/-- A source without a request is not dispatched (R227 a). -/
theorem takeInterrupt_of_not_requested {s : State} {src : Source} (h : s.requested src = false) :
    s.takeInterrupt src = s :=
  if_neg (by simp [State.mayDispatch, h])

/-! What `RX_FRAME` does, one equation per case (R182, R183, R262 c). -/

theorem rxFrame_of_disabled {i : Nat} {d : Byte} {u : Uart} {s : State} (hu : s.uarts[i]? = some u)
    (hc : u.configured = true) (hoff : (u.ucr.uen && u.ucr.rxen) = false) : s.rxFrame i d = s := by
  simp [State.rxFrame, hu, hc, hoff]

theorem rxFrame_of_empty {i : Nat} {d : Byte} {u : Uart} {s : State} (hu : s.uarts[i]? = some u)
    (hc : u.configured = true) (hon : (u.ucr.uen && u.ucr.rxen) = true) (hrx : u.usr.rxne = false) :
    s.rxFrame i d = s.withUart i (u.receive true d) := by
  simp only [State.rxFrame, hu, if_pos hc, if_pos hon, hrx]
  rfl

theorem rxFrame_of_overrun {i : Nat} {d : Byte} {u : Uart} {s : State} (hu : s.uarts[i]? = some u)
    (hc : u.configured = true) (hon : (u.ucr.uen && u.ucr.rxen) = true) (hrx : u.usr.rxne = true) :
    s.rxFrame i d =
      { s.withUart i (u.receive (Config.freeBit (s.free + 1)) d) with free := s.free + 2 } := by
  simp only [State.rxFrame, hu, if_pos hc, if_pos hon, if_pos hrx]

theorem rxFrame_of_unconfigured {i : Nat} {d : Byte} {u : Uart} {s : State} (hu : s.uarts[i]? = some u)
    (hc : u.configured = false) :
    s.rxFrame i d = { s with free := s.free + 2 } ∨
      s.rxFrame i d = { s.withUart i (u.receive (Config.freeBit (s.free + 1)) d) with free := s.free + 2 } := by
  cases hbit : Config.freeBit s.free
  · exact .inl (by simp [State.rxFrame, hu, hc, hbit])
  · exact .inr (by simp [State.rxFrame, hu, hc, hbit])

/-- Settles O36: the cases of the instance's enables and `RXNE`, and the free values of the model. -/
theorem frameArrival : Obligations.FrameArrival := by
  intro i d u s hu
  obtain ⟨v, hv, hreceive⟩ := receive_eq (Config.freeBit (s.free + 1)) d u
  refine ⟨fun hc => ⟨fun hoff => ?_, fun huen hrxen hrx => ?_, fun huen hrxen hrx => ?_⟩, fun hc => ⟨?_, ?_⟩⟩
  · rw [perform, rxFrame_of_disabled hu hc hoff]
  · rw [perform, rxFrame_of_empty hu hc (by rw [huen, hrxen]; rfl) hrx, receive_of_empty hrx, Uart.takeByte]
  · rw [perform, rxFrame_of_overrun hu hc (by rw [huen, hrxen]; rfl) hrx, hreceive, Usr.raise_rxne hrx]
    exact ⟨_, v, rfl, hv.symm.imp_left And.right, rfl⟩
  · rcases rxFrame_of_unconfigured hu hc with h | h
    · exact ⟨_, rfl, .inl (by rw [h])⟩
    · refine ⟨_, rfl, .inr ⟨v, hv, ?_⟩⟩
      rw [h, hreceive]
  · rw [perform, takeInterrupt_of_not_requested (requested_of_unconfigured hu hc)]

end Sys2Proof.Machine
end

section
/-!
PROOFS. Who changes the flag `TC` of an instance (10_state.md R34, 42_uart_transceiver.md R181, R185).
-/

namespace Sys2Proof.Machine

/-- Every instance has the `TC` it had. -/
def SameTc (us us' : List Uart) : Prop := us'.map (·.usr.tc) = us.map (·.usr.tc)

/-- A write of one instance that keeps its `TC` keeps them all. -/
theorem SameTc.set {us : List Uart} {j : Nat} {u u' : Uart} (hu : us[j]? = some u) (htc : u'.usr.tc = u.usr.tc) :
    SameTc us (us.set j u') := by
  obtain ⟨hj, rfl⟩ := List.getElem?_eq_some_iff.mp hu
  rw [SameTc, List.map_set, htc, ← List.getElem_map (f := fun u : Uart => u.usr.tc) (h := by simpa using hj),
    List.set_getElem_self]

theorem SameTc.tc_eq {us us' : List Uart} (h : SameTc us us') {j : Nat} {u u' : Uart} (hu : us[j]? = some u)
    (hu' : us'[j]? = some u') : u'.usr.tc = u.usr.tc := by
  have hj := congrArg (·[j]?) h
  simpa [hu, hu'] using hj

/-- A data-slot write leaves `TC` alone (R179). -/
theorem writeUdr_tc {u u' : Uart} {v : Word} (h : u.writeUdr v = .ok u') : u'.usr.tc = u.usr.tc := by
  rcases writeUdr_eq_ok.mp h with ⟨-, -, rfl⟩ | ⟨-, rfl⟩ <;> rfl

theorem recvPoll_sameTc {cmd : Instr} {n : Byte} {u : Uart} {base k : Word} {last : Byte → Bool} {s t : State}
    (hu : s.uarts[n.toNat]? = some u) (h : recvPoll cmd n u base k last s = .next t) : SameTc s.uarts t.uarts := by
  rcases recvPoll_eq_next.mp h with ⟨-, rfl⟩ | ⟨-, s1, hw, h⟩
  · exact rfl
  · obtain ⟨-, rfl⟩ := writeByte_eq_ok.mp hw
    rcases recvAfter_eq_next.mp h with ⟨-, rfl⟩ | ⟨-, rfl⟩ <;>
      exact SameTc.set (u' := (u.readUdr s.params.rxneClearedByRead).2) hu rfl

/-- No command touches `TC` at issue: UCONFIG and the data-slot write leave it alone (R171, R179). -/
theorem exec_sameTc {i : Instr} {s t : State} (h : exec i s = .next t) : SameTc s.uarts t.uarts := by
  cases exec_shape h with
  | ended _ _ h => subst h; exact rfl
  | timer _ _ h => subst h; exact rfl
  | busy _ _ _ h => subst h; exact rfl
  | config n p u r _ hu _ h => subst h; exact SameTc.set (u' := u.configure s.params r) hu rfl
  | callback n a u _ hu _ h => subst h; exact SameTc.set (u' := { u with callback := some a }) hu rfl
  | send n u u' b _ hu _ hw h => subst h; exact SameTc.set hu (writeUdr_tc hw)
  | setup _ _ _ _ _ _ h => subst h; exact rfl
  | recv _ _ _ _ _ hu _ _ h => exact recvPoll_sameTc hu h

/-- Of a command's later steps only a send's poll that sees `TC` = 1 touches it (R185). -/
theorem resume_tc {cmd : Instr} {ph : Phase} {k : Word} {b : Byte} {s t : State} (h : resume cmd ph k b s = .next t) :
    SameTc s.uarts t.uarts ∨
    ∃ n u, ph = .spin ∧ Instr.sendInst cmd = some n ∧ s.uarts[n.toNat]? = some u ∧
      t.uarts = s.uarts.set n.toNat u.clearTc := by
  cases resume_shape h with
  | same h => subst h; exact .inl rfl
  | busy _ _ _ h => subst h; exact .inl rfl
  | noInstance _ _ _ h => subst h; exact .inl rfl
  | send n u u' b _ hu hw h => subst h; exact .inl (SameTc.set hu (writeUdr_tc hw))
  | sent n u hph hi hu _ h => exact .inr ⟨n, u, hph, hi, hu, by rcases h with rfl | rfl <;> rfl⟩
  | recv _ _ _ _ _ hu _ h => exact .inl (recvPoll_sameTc hu h)

@[simp] theorem State.exitAction_uarts (s : State) (src : Source) : (s.exitAction src).uarts = s.uarts := by
  rcases exitAction_cases s src with h | ⟨-, -, h⟩ <;> rw [h]
  exact s.deinitTimer_uarts

@[simp] theorem State.dispatchTimer_uarts (s : State) : s.dispatchTimer.uarts = s.uarts := by
  rcases dispatchTimer_cases s with ⟨_, -, h⟩ | ⟨-, h⟩ <;> simp [h]

@[simp] theorem State.dispatchUart_uarts (s : State) (i : Nat) (u : Uart) :
    (s.dispatchUart i u).uarts = s.uarts.set i (u.readUdr s.params.rxneClearedByRead).2 := by
  rcases dispatchUart_cases s i u with ⟨_, _, h⟩ | h <;> simp [h]

/-- What a step does to the flags `TC`. -/
inductive TcChange (s t : State) : Prop where
  | keep (h : SameTc s.uarts t.uarts)
  | shift (i : Nat) (u : Uart) (he : s.nextEvent = .txShift i) (hu : s.uarts[i]? = some u)
      (h : t.uarts = s.uarts.set i u.shift)
  | clear (cmd : Instr) (n : Byte) (k : Word) (b : Byte) (u : Uart) (he : s.nextEvent = .sequencer)
      (ha : s.active.act = .inCmd cmd .spin k b) (hi : Instr.sendInst cmd = some n) (hu : s.uarts[n.toNat]? = some u)
      (h : t.uarts = s.uarts.set n.toNat u.clearTc)

theorem step_tc {s t : State} (hstep : step s = .next t) : TcChange s t := by
  obtain ⟨inbox, free, hs⟩ : ∃ inbox free, s.takeEvent = { s with inbox := inbox, free := free } :=
    ⟨_, _, takeEvent_eq s⟩
  have shape := step_shape hstep
  rw [hs] at shape
  cases shape with
  | same h => subst h; exact .keep rfl
  | illegal _ _ _ _ _ h => subst h; exact .keep rfl
  | command _ _ _ _ _ h =>
    have hkeep := exec_sameTc h
    exact .keep hkeep
  | poll cmd ph k b he ha h =>
    rcases resume_tc h with hkeep | ⟨n, u, rfl, hi, hu, h⟩
    · exact .keep hkeep
    · exact .clear cmd n k b u he ha hi hu h
  | ret src f rest _ _ _ _ h => subst h; exact .keep (congrArg _ (State.exitAction_uarts _ src))
  | write _ _ _ h => subst h; exact .keep rfl
  | line _ _ _ h => subst h; exact .keep rfl
  | tick _ _ h => subst h; exact .keep rfl
  | shift i u _ _ he hu _ h => subst h; exact .shift i u he hu rfl
  | frame i d u u' n he hu hw h =>
    subst h
    refine .keep (SameTc.set hu ?_)
    rcases hw with rfl | rfl <;> rfl
  | timerIrq _ _ h => subst h; exact .keep (congrArg _ (State.dispatchTimer_uarts _))
  | uartIrq i u _ _ hu h =>
    subst h
    refine .keep ?_
    rw [State.dispatchUart_uarts]
    exact SameTc.set hu rfl

/-- Instance `i` after a write of instance `j`. -/
theorem getElem?_set_cases {us : List Uart} {i j : Nat} {u u' v v' : Uart} (hv : us[j]? = some v)
    (hu : us[i]? = some u) (hu' : (us.set j v')[i]? = some u') : (j = i ∧ v = u ∧ u' = v') ∨ u' = u := by
  by_cases hij : j = i
  · subst hij
    obtain ⟨hlt, -⟩ := List.getElem?_eq_some_iff.mp hv
    rw [List.getElem?_set_self hlt] at hu'
    exact .inl ⟨rfl, Option.some.inj (hv.symm.trans hu), (Option.some.inj hu').symm⟩
  · rw [List.getElem?_set_ne hij] at hu'
    exact .inr (Option.some.inj (hu'.symm.trans hu))

/-- A step keeps `TC` of an instance, or shifts the instance, or is a send's poll on it. -/
theorem step_uart_tc {s t : State} {i : Nat} {u u' : Uart} (hstep : step s = .next t) (hu : s.uarts[i]? = some u)
    (hu' : t.uarts[i]? = some u') :
    u'.usr.tc = u.usr.tc ∨ (s.nextEvent = .txShift i ∧ u' = u.shift) ∨
    ((s.nextEvent = .sequencer ∧
        ∃ cmd n k b, s.active.act = .inCmd cmd .spin k b ∧ Instr.sendInst cmd = some n ∧ n.toNat = i) ∧
      u' = u.clearTc) := by
  cases step_tc hstep with
  | keep h => exact .inl (h.tc_eq hu hu')
  | shift j v he hv h =>
    rcases getElem?_set_cases hv hu (h ▸ hu') with ⟨rfl, rfl, rfl⟩ | rfl
    · exact .inr (.inl ⟨he, rfl⟩)
    · exact .inl rfl
  | clear cmd n k b v he ha hi hv h =>
    rcases getElem?_set_cases hv hu (h ▸ hu') with ⟨rfl, rfl, rfl⟩ | rfl
    · exact .inr (.inr ⟨⟨he, cmd, n, k, b, ha, hi, rfl⟩, rfl⟩)
    · exact .inl rfl

/-- A shift raises `TC` with the last bit and otherwise leaves it alone (R181). -/
theorem Uart.shift_tc (u : Uart) : u.shift.usr.tc = true ↔ (∃ b, u.tx = [b]) ∨ u.usr.tc = true := by
  match htx : u.tx with
  | [] => simp [Uart.shift, htx]
  | b :: rest => cases rest <;> simp [Uart.shift_of_cons htx]

/-- The step that shifts out the last bit of a frame raises `TC` (R181). -/
theorem step_last_bit {s t : State} {i : Nat} {u u' : Uart} {b : Bool} (hstep : step s = .next t)
    (he : s.nextEvent = .txShift i) (hu : s.uarts[i]? = some u) (hu' : t.uarts[i]? = some u') (htx : u.tx = [b]) :
    u'.usr.tc = true := by
  have hperform := (step_eq_next.mp hstep).2
  have hu0 : s.takeEvent.uarts[i]? = some u := by rw [takeEvent_uarts, hu]
  rw [he, perform, txShift_of_cons hu0 htx, next_inj] at hperform
  have hshift : t.uarts[i]? = some u.shift := by
    rw [hperform]
    exact State.getElem?_withUart_self _ i u.shift u hu0
  obtain rfl := Option.some.inj (hu'.symm.trans hshift)
  exact u.shift_tc.mpr (.inl ⟨b, htx⟩)

/-- Settles O52: of the ways a step changes `TC`, a shift raises it and a send's poll clears it. -/
theorem transmissionCompleteChangers : Obligations.TransmissionCompleteChangers := by
  intro s t i u u' hstep hu hu'
  have change := step_uart_tc hstep hu hu'
  refine ⟨fun hlow => ⟨fun hrise => ?_, fun ⟨he, b, htx⟩ => step_last_bit hstep he hu hu' htx⟩, fun hhigh hfall => ?_⟩
  · rcases change with heq | ⟨he, rfl⟩ | ⟨-, rfl⟩
    · rw [heq, hlow] at hrise
      cases hrise
    · exact ⟨he, (u.shift_tc.mp hrise).resolve_right (Bool.eq_false_iff.mp hlow)⟩
    · cases hrise
  · rcases change with heq | ⟨-, rfl⟩ | ⟨hpoll, -⟩
    · rw [heq, hhigh] at hfall
      cases hfall
    · rw [u.shift_tc.mpr (.inr hhigh)] at hfall
      cases hfall
    · exact hpoll

end Sys2Proof.Machine
end

section
/-!
PROOFS. Commands in progress on the context stack (60_exceptions.md R240, 70_reset_and_hazards.md R262, 90_conflicts.md
C7): only those that can spin, each on a configured instance.
-/

namespace Sys2Proof.Machine

theorem State.mayBeInProgress_iff {s : State} {cmd : Instr} :
    s.mayBeInProgress cmd = true ↔
      Instr.blockingOn cmd = some none ∨
      ∃ n u, Instr.blockingOn cmd = some (some n) ∧ s.uarts[n.toNat]? = some u ∧ u.configured = true := by
  unfold State.mayBeInProgress
  split
  · rename_i hb; simp [hb]
  · rename_i hb; simp [hb]
  · rename_i n hb
    split <;> rename_i hu <;> simp [hb, hu]

theorem blockingOn_of_sendInst {i : Instr} {n : Byte} (h : Instr.sendInst i = some n) :
    Instr.blockingOn i = some (some n) := by
  cases i <;> simp_all [Instr.sendInst, Instr.blockingOn]

/-! An instance once configured stays so (R171, R262). -/

@[simp] theorem Uart.shift_configured (u : Uart) : u.shift.configured = u.configured := by
  unfold Uart.shift
  split <;> rfl

theorem UartChange.configured {u u' : Uart} (h : UartChange u u') (hc : u.configured = true) :
    u'.configured = true := by
  cases h with
  | keep => exact hc
  | configure p r => rfl
  | callback a _ => exact hc
  | write v _ h => rcases writeUdr_eq_ok.mp h with ⟨-, -, rfl⟩ | ⟨-, rfl⟩ <;> exact hc
  | clearTc => exact hc
  | read clears => exact hc
  | shift => rw [Uart.shift_configured, hc]
  | take d => exact hc

theorem step_keeps_configured {s t : State} (hstep : step s = .next t) {j : Nat} {u : Uart}
    (hu : s.uarts[j]? = some u) (hc : u.configured = true) :
    ∃ u', t.uarts[j]? = some u' ∧ u'.configured = true := by
  obtain ⟨-, hlen, -⟩ := instancesAreIndependent s t hstep
  obtain ⟨hj, -⟩ := List.getElem?_eq_some_iff.mp hu
  have hu' : t.uarts[j]? = some (t.uarts[j]'(hlen ▸ hj)) := List.getElem?_eq_getElem _
  obtain ⟨v, hv, hch⟩ := step_uart hstep hu'
  obtain rfl := Option.some.inj (hu.symm.trans hv)
  exact ⟨_, hu', hch.configured hc⟩

/-- So a command that may be in progress before a step may be after it. -/
theorem step_keeps_mayBeInProgress {s t : State} (hstep : step s = .next t) {cmd : Instr}
    (h : s.mayBeInProgress cmd = true) : t.mayBeInProgress cmd = true := by
  rw [State.mayBeInProgress_iff] at h ⊢
  refine h.imp_right fun ⟨n, u, hb, hu, hc⟩ => ?_
  obtain ⟨u', hu', hc'⟩ := step_keeps_configured hstep hu hc
  exact ⟨n, u', hb, hu', hc'⟩

/-! The frames. -/

theorem State.frameOk_iff {s : State} {f : Frame} :
    s.frameOk f = true ↔ ∀ cmd ph k b, f.act = .inCmd cmd ph k b → s.mayBeInProgress cmd = true := by
  unfold State.frameOk
  cases f.act with
  | running => exact ⟨fun _ _ _ _ _ h => (by cases h), fun _ => rfl⟩
  | inCmd cmd ph k b => exact ⟨fun h _ _ _ _ hact => (by cases hact; exact h), fun h => h cmd ph k b rfl⟩

theorem State.frameOk_of_running {s : State} {f : Frame} (h : f.act = .running) : s.frameOk f = true := by
  simp [State.frameOk, h]

/-- A command that its issue leaves in progress has passed its instance and configuration checks (R170, R262 a). -/
theorem exec_mayBeInProgress {i : Instr} {s t : State} (h : exec i s = .next t) :
    t.active.act = .running ∨ s.mayBeInProgress i = true := by
  rw [State.mayBeInProgress_iff]
  cases exec_shape h with
  | ended _ _ h => subst h; exact .inl rfl
  | timer _ _ h => subst h; exact .inl rfl
  | busy ms _ hi _ => subst hi; exact .inr (.inl rfl)
  | config _ _ _ _ _ _ _ h => subst h; exact .inl rfl
  | callback _ _ _ _ _ _ h => subst h; exact .inl rfl
  | send n u _ _ hi hu hc _ _ => exact .inr (.inr ⟨n, u, blockingOn_of_sendInst hi, hu, hc⟩)
  | setup n u base hi hu hc _ => subst hi; exact .inr (.inr ⟨n, u, rfl, hu, hc⟩)
  | recv n u _ _ hi hu hc _ _ => exact .inr (.inr ⟨n, u, hi, hu, hc⟩)

/-- A frame that does after the step what a good frame did before it is good. -/
theorem step_keeps_frameOk {s t : State} (hstep : step s = .next t) {f g : Frame} (hact : g.act = f.act)
    (h : s.frameOk f = true) : t.frameOk g = true := by
  rw [State.frameOk_iff] at h ⊢
  exact fun cmd ph k b hg => step_keeps_mayBeInProgress hstep (h cmd ph k b (hact ▸ hg))

/-- The command that acts in a step and stays in progress was checked at its issue, in this step or before. -/
theorem step_acting_mayBeInProgress {s t : State} (hinv : CommandInv s) (hstep : step s = .next t) {i : Instr}
    (hi : s.actingCommand = some i) (hact : t.active.act ≠ .running) : s.mayBeInProgress i = true := by
  rcases actingCommand_cases hi with hi | hi
  · have h := (exec_mayBeInProgress (exec_of_step_issued hstep hi)).resolve_left hact
    rw [takeEvent_eq] at h
    exact h
  · obtain ⟨-, ph, k, b, ha⟩ := steppedCommand_eq_some.mp hi
    exact State.frameOk_iff.mp (List.all_eq_true.mp hinv s.active List.mem_cons_self) i ph k b ha

/-- Settles O44: a command in progress after a step was so before it or is the one that acts in it, and an instance
once configured stays so. -/
theorem stepKeepsCommandInv : Obligations.StepKeepsCommandInv := by
  intro s t hinv hstep
  have hframes := List.all_eq_true.mp hinv
  refine List.all_eq_true.mpr (List.forall_mem_cons.mpr ⟨?_, fun f hf => ?_⟩)
  · cases step_act hstep with
    | keep h => exact step_keeps_frameOk hstep h (hframes s.active List.mem_cons_self)
    | running h => exact State.frameOk_of_running h
    | resumed h => exact step_keeps_frameOk hstep rfl (hframes t.active (List.mem_cons_of_mem _ h))
    | working i ph k b hi hact =>
      have hprog := step_acting_mayBeInProgress hinv hstep hi (by rw [hact]; nofun)
      refine State.frameOk_iff.mpr fun cmd _ _ _ h => ?_
      obtain rfl : i = cmd := by rw [hact] at h; cases h; rfl
      exact step_keeps_mayBeInProgress hstep hprog
  · exact step_keeps_frameOk hstep rfl (hframes f ((step_change hstep).stack.mem_of_mem_beneath hf))

end Sys2Proof.Machine
end

section
/-!
PROOFS. What a command answers at issue (60_exceptions.md R221 to R223, R237), and what every command leaves alone
(R235).
-/

namespace Sys2Proof.Machine

/-- The answers of a command's step at issue, by what they say of the delivery: the command ends and has changed nothing
else; it ends with Success; it polls; it faults; it is refused, of R237's refusals only as R237 says. -/
inductive IssueAnswer (i : Instr) (s : State) : Answer → Prop where
  | ended (st : Status) : IssueAnswer i s (.next (s.deliver st 0))
  | success (s' : State) (rv : Word) : IssueAnswer i s (.next (s'.deliver .success rv))
  | polls (s' : State) (cmd : Instr) (k : Word) (b : Byte) : IssueAnswer i s (.next (s'.spin cmd k b))
  | fault (f : Fault) : IssueAnswer i s (.fault f)
  | nested (n : Byte) (hi : Instr.sendInst i = some n) (hn : s.sendBeneath n = true) :
      IssueAnswer i s (.refused .nestedSendSameInstance)
  | refused (x : Refusal) (hx : x ≠ .nestedSendSameInstance) : IssueAnswer i s (.refused x)

section
variable {i : Instr} {s : State} {go : Answer}

/-! The checks (R120, R170, R93, R236, R237, R262). -/

theorem IssueAnswer.instCheck {n : Byte} {go : Uart → Answer} (h : ∀ u, IssueAnswer i s (go u)) :
    IssueAnswer i s (instCheck n s go) := by
  unfold Machine.instCheck
  split
  · exact .ended _
  · exact h _

theorem IssueAnswer.nullCheck {r : Word} (h : IssueAnswer i s go) : IssueAnswer i s (nullCheck r s go) := by
  unfold Machine.nullCheck
  split
  · exact .ended _
  · exact h

theorem IssueAnswer.needConfigured {u : Uart} (h : IssueAnswer i s go) : IssueAnswer i s (needConfigured u go) := by
  unfold Machine.needConfigured
  split
  · exact h
  · exact .refused _ nofun

theorem IssueAnswer.guardNestedSend {n : Byte} (hi : Instr.sendInst i = some n) (h : IssueAnswer i s go) :
    IssueAnswer i s (guardNestedSend n s go) := by
  unfold Machine.guardNestedSend
  split
  · rename_i hn; exact .nested n hi hn
  · exact h

theorem IssueAnswer.guardRearm (h : IssueAnswer i s go) : IssueAnswer i s (guardRearm s go) := by
  unfold Machine.guardRearm
  split
  · exact .refused _ nofun
  · exact h

theorem IssueAnswer.armCheck {ms : Half} {go : Nat → Answer} (h : ∀ n, IssueAnswer i s (go n)) :
    IssueAnswer i s (armCheck ms s go) := by
  unfold Machine.armCheck
  split
  · exact .ended _
  · split
    · exact .refused _ nofun
    · split
      · exact .ended _
      · exact h _

theorem IssueAnswer.ite {c : Prop} [Decidable c] {a b : Answer} (ha : IssueAnswer i s a) (hb : IssueAnswer i s b) :
    IssueAnswer i s (if c then a else b) := by
  split
  · exact ha
  · exact hb

/-! Sending and receiving (R179, R185). -/

/-- The one refusal of a data-slot write (R179). -/
theorem writeUdr_eq_error {v : Word} {u : Uart} {x : Refusal} (h : u.writeUdr v = .error x) :
    x = .drWriteWhileShifting := by
  unfold Uart.writeUdr at h
  split at h
  · split at h <;> cases h
    rfl
  · cases h

theorem IssueAnswer.sendByte (cmd : Instr) (n : Byte) (u : Uart) (k : Word) (b : Byte) :
    IssueAnswer i s (sendByte cmd n u k b s) := by
  unfold Machine.sendByte
  split
  · rename_i h
    exact .refused _ (by rw [writeUdr_eq_error h]; nofun)
  · exact .polls _ _ _ _

theorem IssueAnswer.sendFrom (cmd : Instr) (n : Byte) (u : Uart) (base k : Word) :
    IssueAnswer i s (sendFrom cmd n u base k s) := by
  unfold Machine.sendFrom
  split
  · exact .fault _
  · exact .sendByte _ _ _ _ _

theorem IssueAnswer.recvPoll (cmd : Instr) (n : Byte) (u : Uart) (base k : Word) (last : Byte → Bool) :
    IssueAnswer i s (recvPoll cmd n u base k last s) := by
  unfold Machine.recvPoll
  split
  · simp only
    split
    · exact .fault _
    · exact .ite (.success _ _) (.polls _ _ _ _)
  · exact .polls _ _ _ _

end

/-- Every command's step at issue answers in one of those ways. -/
theorem exec_answer (i : Instr) (s : State) : IssueAnswer i s (exec i s) := by
  cases i with
  | tinit c => exact .success _ _
  | tbusy ms => exact .guardRearm (.armCheck fun n => .ite (.success _ _) (.polls _ _ _ _))
  | tsingle ms => exact .guardRearm (.armCheck fun n => .ite (.refused _ nofun) (.success _ _))
  | tperiod ms => exact .guardRearm (.armCheck fun n => .ite (.refused _ nofun) (.success _ _))
  | tsetcb h => exact .nullCheck (.success _ _)
  | telapsed => exact .success _ _
  | tremain => exact .success _ _
  | tdeinit => exact .success _ _
  | uconfig n r =>
    refine .instCheck fun u => .nullCheck ?_
    split
    · exact .fault _
    · split
      · exact .ended _
      · exact .success _ _
  | usendb n b => exact .instCheck fun u => .guardNestedSend rfl (.needConfigured (.sendByte _ _ _ _ _))
  | urecvb n r => exact .instCheck fun u => .nullCheck (.needConfigured (.polls _ _ _ _))
  | usendbuf n r size =>
    exact .instCheck fun u => .guardNestedSend rfl (.nullCheck (.needConfigured (.ite (.ended _) (.sendFrom _ _ _ _ _))))
  | urecvbuf n r size =>
    exact .instCheck fun u => .nullCheck (.needConfigured (.ite (.ended _) (.recvPoll _ _ _ _ _ _)))
  | usendstr n r =>
    exact .instCheck fun u => .guardNestedSend rfl (.nullCheck (.needConfigured (.sendFrom _ _ _ _ _)))
  | urecvstr n r => exact .instCheck fun u => .nullCheck (.needConfigured (.recvPoll _ _ _ _ _ _))
  | usetcb n h => exact .ite (.instCheck fun u => .nullCheck (.success _ _)) (.ended _)

/-- Settles O55: a command that neither polls nor ends with Success has only delivered its status. -/
theorem failingStatusChangesNothing : Obligations.FailingStatusChangesNothing := by
  intro i s t st rv h hact hresult hst
  have answer := exec_answer i s
  rw [h] at answer
  cases answer with
  | ended st' =>
    obtain rfl : st' = st := by cases hresult; rfl
    rfl
  | success s' rv' => cases hresult; exact absurd rfl hst
  | polls s' cmd k b => cases hact

/-- Settles O56: a command's steps keep the context (`State.SameContext`). -/
theorem commandsLeaveOtherFramesAlone : Obligations.CommandsLeaveOtherFramesAlone := by
  refine fun s t => ⟨fun i h => ?_, fun h => ?_⟩
  · obtain ⟨-, hctx, hbeneath⟩ := exec_sameContext h
    exact ⟨hbeneath, hctx⟩
  · cases hact : s.active.act with
    | running =>
      simp only [perform, sequencerStep, hact, next_inj] at h
      rw [h]
      exact ⟨rfl, rfl⟩
    | inCmd cmd ph k b =>
      rw [perform_sequencer hact] at h
      obtain ⟨⟨-, hctx, hbeneath⟩, -⟩ := resume_frame h
      exact ⟨hbeneath, hctx⟩

end Sys2Proof.Machine
end

section
/-!
PROOFS. What the contexts beneath forbid (60_exceptions.md R232, R236, R237): a second handler of one source, an arming
command over a spinning TBUSY, a send over a send on the same instance.
-/

namespace Sys2Proof.Machine

/-! Sources on the stack (R232). -/

/-- `PREEMPTS(a, b)` as a relation (R5). -/
def Preempts (p : Params) (a b : Source) : Prop := (a, b) ∈ p.preempts

theorem preemptChain_iff_isChain {p : Params} {l : List Source} :
    preemptChain p l = true ↔ l.IsChain (Preempts p) := by
  induction l with
  | nil => simp [preemptChain]
  | cons a l ih =>
    cases l with
    | nil => simp [preemptChain]
    | cons b rest =>
      rw [List.isChain_cons_cons, ← ih, preemptChain, Bool.and_eq_true, Params.preemptsRel, decide_eq_true_eq,
        Preempts]

/-- Settles O43: by transitivity each source preempts all beneath it, and by irreflexivity none of them is the source. -/
theorem noSourceTwiceOnStack : Obligations.NoSourceTwiceOnStack := by
  intro s ⟨_, hchain⟩ hok
  simp only [State.paramsOk, Bool.and_eq_true] at hok
  obtain ⟨irrefl, trans⟩ := (Params.preemptsOk_iff s.params).mp hok.2
  have : Trans (Preempts s.params) (Preempts s.params) (Preempts s.params) := ⟨trans _ _ _⟩
  have hpair := (preemptChain_iff_isChain.mp hchain).pairwise
  refine hpair.imp fun {a b} (hab : (a, b) ∈ s.params.preempts) heq => ?_
  subst heq
  exact irrefl a hab

/-! Arming over a spinning TBUSY (R236). -/

theorem guardRearm_of_busy {s : State} (hbusy : s.busyWaitBeneath = true) (go : Answer) :
    guardRearm s go = .refused .rearmDuringBusyWait :=
  if_pos hbusy

/-- Settles O14: all three arming commands begin with the guard of R236. -/
theorem rearmDuringBusyWaitRefused : Obligations.RearmDuringBusyWaitRefused := by
  intro ms ms' k b src f s hctx hf hact i hi
  have hbusy : s.busyWaitBeneath = true := by
    have hwait : f.busyWaiting = true := by simp [Frame.busyWaiting, hact]
    simp only [State.busyWaitBeneath, State.inHandler, hctx, Context.source, Option.isSome_some, Bool.true_and]
    exact List.any_eq_true.mpr ⟨f, hf, hwait⟩
  simp only [armingCommands, List.mem_cons, List.not_mem_nil, or_false] at hi
  rcases hi with rfl | rfl | rfl <;> exact guardRearm_of_busy hbusy _

/-! A send over a send (R237). -/

theorem Frame.sendingOn_iff {n : Byte} {f : Frame} :
    f.sendingOn n = true ↔ ∃ cmd ph k b, f.act = .inCmd cmd ph k b ∧ Instr.sendInst cmd = some n := by
  unfold Frame.sendingOn
  cases f.act <;> simp

/-- The test of R237: the active frame is a handler's and a frame beneath it sends on the instance. -/
theorem State.sendBeneath_iff {n : Byte} {s : State} :
    s.sendBeneath n = true ↔
      (∃ src, s.active.ctx = .handler src) ∧
      ∃ f ∈ s.beneath, ∃ cmd ph k b, f.act = .inCmd cmd ph k b ∧ Instr.sendInst cmd = some n := by
  have hhandler : s.inHandler = true ↔ ∃ src, s.active.ctx = .handler src := by
    unfold State.inHandler Context.source
    cases s.active.ctx <;> simp
  simp only [State.sendBeneath, Bool.and_eq_true, hhandler, List.any_eq_true, Frame.sendingOn_iff]

theorem guardNestedSend_of_nested {n : Byte} {s : State} (hnested : s.sendBeneath n = true) (go : Answer) :
    guardNestedSend n s go = .refused .nestedSendSameInstance :=
  if_pos hnested

/-- On an existing instance every send command begins with the guard of R237 (log 19). -/
theorem exec_send_guarded {n b : Byte} {r size : Word} {u : Uart} {s : State} (hu : s.uarts[n.toNat]? = some u)
    {i : Instr} (hi : i ∈ [Instr.usendb n b, .usendbuf n r size, .usendstr n r]) :
    Instr.sendInst i = some n ∧ ∃ go, exec i s = guardNestedSend n s go := by
  simp only [List.mem_cons, List.not_mem_nil, or_false] at hi
  rcases hi with rfl | rfl | rfl <;> exact ⟨rfl, _, instCheck_of_some hu _⟩

/-- No other command and no other state gives that refusal. -/
theorem sendBeneath_of_exec_refused {i : Instr} {s : State} (h : exec i s = .refused .nestedSendSameInstance) :
    ∃ n, Instr.sendInst i = some n ∧ s.sendBeneath n = true := by
  have answer := exec_answer i s
  rw [h] at answer
  cases answer with
  | nested n hi hn => exact ⟨n, hi, hn⟩
  | refused _ hx => exact absurd rfl hx

/-- Settles O31: the guard of R237 refuses, and nothing else refuses for its reason. -/
theorem nestedSendRefused : Obligations.NestedSendRefused := by
  refine fun n b r size u s hu => ⟨fun i hi h => ?_, fun i hi => ?_⟩
  · obtain ⟨m, hsend, -⟩ := sendBeneath_of_exec_refused h
    simp only [List.mem_cons, List.not_mem_nil, or_false] at hi
    rcases hi with rfl | rfl | rfl <;> cases hsend
  · obtain ⟨hsend, go, hguard⟩ := exec_send_guarded hu hi
    refine ⟨fun ⟨src, f, cmd, ph, k, b', hctx, hf, hact, hcmd⟩ => ?_, fun hfree h => ?_⟩
    · rw [hguard]
      exact guardNestedSend_of_nested (State.sendBeneath_iff.mpr ⟨⟨src, hctx⟩, f, hf, cmd, ph, k, b', hact, hcmd⟩) go
    · obtain ⟨m, hm, hbeneath⟩ := sendBeneath_of_exec_refused h
      obtain rfl : n = m := Option.some.inj (hsend.symm.trans hm)
      obtain ⟨⟨src, hctx⟩, f, hf, cmd, ph, k, b', hact, hcmd⟩ := State.sendBeneath_iff.mp hbeneath
      rcases hfree with hmain | hnone
      · cases hmain.symm.trans hctx
      · exact hnone f hf cmd ph k b' hact hcmd

end Sys2Proof.Machine
end

section
/-!
PROOFS. The host's issue of a command (60_exceptions.md R242), required references (R220, R222), and taking an interrupt
and returning from it (R225 to R231).
-/

namespace Sys2Proof.Machine

/-! Issuing a command. -/

theorem decode_of_decodeTableWord {nbits w : Nat} {i : Instr} (h : decodeTableWord nbits w = some i) :
    decode (commandOfBits nbits w) = .ok i := by
  unfold decodeTableWord at h
  cases hd : decode (commandOfBits nbits w) with
  | error x => rw [hd] at h; cases h
  | ok j => rw [hd] at h; cases h; rfl

/-- The step that issues a legal command runs it on the state with the event taken (R242). -/
theorem step_of_issue_ok {s : State} {c : Command} {i : Instr} {rest : List Event} (hok : s.paramsOk = true)
    (hinbox : s.inbox = .issue c :: rest) (hrun : s.active.act = .running) (hd : decode c = .ok i) :
    step s = exec i { s with inbox := rest } :=
  (step_of_issue hok hinbox hrun).trans (issueCommand_of_ok hd _)

/-- Settles O5: a placed table word is a command issued in a Running frame. -/
theorem stepRunsDecodedInstruction : Obligations.StepRunsDecodedInstruction :=
  ⟨fun _ _ _ _ hok hinbox hrun hd => step_of_issue_ok hok hinbox hrun hd, fun s nbits w _ hok hw =>
    step_of_issue_ok (s := s.withFetchWord nbits w) hok rfl rfl (decode_of_decodeTableWord hw)⟩

/-- Settles O24: on an existing instance the null check is the next one, after R237's guard in a send (log 19). -/
theorem nullReferenceRejected : Obligations.NullReferenceRejected := by
  refine fun n size u s hu => ⟨?_, fun hfree => ?_⟩ <;> simp only [List.forall_mem_cons]
  · exact ⟨fun _ => exec_uconfig_eq_next.mpr (.inr ⟨u, hu, .inl ⟨rfl, rfl⟩⟩),
      fun _ => exec_urecvb_eq_next.mpr (.inr ⟨u, hu, .inl ⟨rfl, rfl⟩⟩),
      fun _ => exec_urecvbuf_eq_next.mpr (.inr ⟨u, hu, .inl ⟨rfl, rfl⟩⟩),
      fun _ => exec_urecvstr_eq_next.mpr (.inr ⟨u, hu, .inl ⟨rfl, rfl⟩⟩),
      fun hbuild => exec_usetcb_eq_next.mpr (.inr ⟨hbuild, .inr ⟨u, hu, .inl ⟨rfl, rfl⟩⟩⟩), nofun⟩
  · exact ⟨exec_usendbuf_eq_next.mpr (.inr ⟨u, hu, hfree, .inl ⟨rfl, rfl⟩⟩),
      exec_usendstr_eq_next.mpr (.inr ⟨u, hu, hfree, .inl ⟨rfl, rfl⟩⟩), nofun⟩

/-! Taking an interrupt and returning (R227, R231). -/

/-- R227: request active, line enabled, nothing on top that the source does not preempt. -/
theorem State.mayDispatch_iff {s : State} {src : Source} :
    s.mayDispatch src = true ↔ s.requested src = true ∧ src ∉ s.linesOff ∧ s.stackAdmits src = true := by
  simp [State.mayDispatch, and_assoc]

theorem takeInterrupt_of_not_mayDispatch {s : State} {src : Source} (h : ¬ s.mayDispatch src = true) :
    s.takeInterrupt src = s :=
  if_neg h

theorem takeInterrupt_timer {s : State} (h : s.mayDispatch .timer = true) : s.takeInterrupt .timer = s.dispatchTimer :=
  if_pos h

theorem takeInterrupt_uartRx {s : State} {i : Nat} {u : Uart} (h : s.mayDispatch (.uartRx i) = true)
    (hu : s.uarts[i]? = some u) : s.takeInterrupt (.uartRx i) = s.dispatchUart i u := by
  simp only [State.takeInterrupt, if_pos h, hu]

/-- A receive request is the level of R226, on a configured instance (R262 d). -/
theorem requested_uartRx_iff {s : State} {i : Nat} {u : Uart} (hu : s.uarts[i]? = some u) :
    s.requested (.uartRx i) = true ↔
      s.params.rxIrqBuild = true ∧ u.configured = true ∧ u.usr.rxne = true ∧ u.ucr.rxie = true := by
  simp [State.requested, hu, Uart.rxRequest, and_assoc]

theorem returnFromHandler_of_handler {s : State} {src : Source} {f : Frame} {rest : List Frame}
    (hctx : s.active.ctx = .handler src) (hact : s.active.act = .running) (hb : s.beneath = f :: rest) :
    s.returnFromHandler = State.exitAction { s with active := f, beneath := rest } src := by
  simp only [State.returnFromHandler, hctx, hact, hb]

theorem dispatchTimer_of_callback {s : State} {h : Word} (hcb : s.timer.callback = some h) :
    s.dispatchTimer = (s.withTimer { s.timer with irqPending := false }).enterHandler .timer h none := by
  rcases dispatchTimer_cases s with ⟨h', hcb', heq⟩ | ⟨hnone, -⟩
  · cases hcb.symm.trans hcb'
    exact heq
  · cases hcb.symm.trans hnone

theorem dispatchTimer_of_no_callback {s : State} (hcb : s.timer.callback = none) :
    s.dispatchTimer = (s.withTimer { s.timer with irqPending := false }).timerExit := by
  rcases dispatchTimer_cases s with ⟨h, hcb', -⟩ | ⟨-, heq⟩
  · cases hcb.symm.trans hcb'
  · exact heq

theorem timerExit_of_oneShot {s : State} (hm : s.timer.mode = .oneShot) : s.timerExit = s.deinitTimer :=
  if_pos hm

theorem timerExit_of_not_oneShot {s : State} (hm : s.timer.mode ≠ .oneShot) : s.timerExit = s :=
  if_neg hm

/-- Settles O37: the two forms of the timer's dispatch, and the exit action after its callback. -/
theorem timerHandler : Obligations.TimerHandler := by
  refine fun s => ⟨fun hpend hline hadm => ?_, fun f rest hctx hact hb => ?_⟩
  · have hmay : s.mayDispatch .timer = true := State.mayDispatch_iff.mpr ⟨hpend, hline, hadm⟩
    rw [perform, takeInterrupt_timer hmay]
    exact ⟨fun h hcb => congrArg _ (dispatchTimer_of_callback hcb),
      fun hcb hm => congrArg _ ((dispatchTimer_of_no_callback hcb).trans (timerExit_of_oneShot hm)),
      fun hcb hm => congrArg _ ((dispatchTimer_of_no_callback hcb).trans (timerExit_of_not_oneShot hm))⟩
  · rw [perform, returnFromHandler_of_handler hctx hact hb, State.exitAction, State.timerExit_eq]
    rfl

/-- Settles O38: the read of the data slot stands before the test for a callback, and the exit action is empty. -/
theorem receiveHandler : Obligations.ReceiveHandler := by
  refine fun i s => ⟨fun u hu hbuild hconf hrx hrxie hline hadm u' hu' => ?_, fun f rest hctx hact hb => ?_⟩
  · have hmay : s.mayDispatch (.uartRx i) = true :=
      State.mayDispatch_iff.mpr ⟨(requested_uartRx_iff hu).mpr ⟨hbuild, hconf, hrx, hrxie⟩, hline, hadm⟩
    rw [perform, takeInterrupt_uartRx hmay hu]
    rw [← readUdr_of_rxne hrx] at hu'
    refine ⟨fun h hcb => ?_, fun hcb => ?_⟩
    · simp only [State.dispatchUart, hcb, readUdr_byte, hu']
      rfl
    · simp only [State.dispatchUart, hcb, hu']
  · rw [perform, returnFromHandler_of_handler hctx hact hb, State.exitAction]

/-- Settles O39: each of the conditions of R227 that fails leaves the source undispatched (log 2). -/
theorem dispatchNeedsRequestLineAndPriority : Obligations.DispatchNeedsRequestLineAndPriority := by
  intro src s hfail
  rw [perform, takeInterrupt_of_not_mayDispatch]
  intro hmay
  obtain ⟨hreq, hline, hadm⟩ := State.mayDispatch_iff.mp hmay
  rcases hfail with ⟨i, u, rfl, hu, hlow⟩ | ⟨rfl, hlow⟩ | hoff | ⟨top, rest, hsrc, htop⟩
  · obtain ⟨hbuild, -, hrx, hrxie⟩ := (requested_uartRx_iff hu).mp hreq
    simp [hbuild, hrx, hrxie] at hlow
  · exact absurd hreq (Bool.eq_false_iff.mp hlow)
  · exact hline hoff
  · simp only [State.stackAdmits, hsrc, Params.preemptsRel, decide_eq_true_eq] at hadm
    exact htop hadm

end Sys2Proof.Machine
end

section
/-!
PROOFS. The host's own accesses (60_exceptions.md R242, 20_memory.md R63), and the faults of every access the platform
does not back (93_implementation_defined.md U17).
-/

namespace Sys2Proof.Machine

/-! Host code. -/

theorem readByte_of_unbacked {s : State} {a : Word} (h : Params.backs s.params a = false) :
    s.readByte a = .error (.unbackedAddress a) :=
  if_neg (Bool.eq_false_iff.mp h)

theorem writeByte_of_unbacked {s : State} {a : Word} (v : Byte) (h : Params.backs s.params a = false) :
    s.writeByte a v = .error (.unbackedAddress a) :=
  if_neg (Bool.eq_false_iff.mp h)

theorem whenRunning_of_running {s : State} (hrun : s.active.act = .running) (go : Answer) : whenRunning s go = go :=
  if_pos (by rw [hrun]; rfl)

theorem perform_host_backed {s : State} {addr : Word} (b : Byte) (hrun : s.active.act = .running)
    (hback : Params.backs s.params addr = true) :
    perform (.hostRead addr) s = .next s ∧
      perform (.hostWrite addr b) s = .next { s with mem := Memory.write s.mem addr.toNat b } := by
  simp only [perform, whenRunning_of_running hrun, hostReadStep, hostWriteStep, readByte_eq_ok.mpr ⟨hback, rfl⟩,
    writeByte_eq_ok.mpr ⟨hback, rfl⟩, and_self]

theorem perform_host_unbacked {s : State} {addr : Word} (b : Byte) (hrun : s.active.act = .running)
    (hback : Params.backs s.params addr = false) :
    ∀ e ∈ [Event.hostRead addr, .hostWrite addr b], perform e s = .fault (.unbackedAddress addr) := by
  simp only [List.forall_mem_cons, perform, whenRunning_of_running hrun, hostReadStep, hostWriteStep,
    readByte_of_unbacked hback, writeByte_of_unbacked b hback, true_and]
  exact nofun

/-- `setLine` moves the one source in or out of the disabled lines (R242). -/
theorem mem_setLine_linesOff (src : Source) (on : Bool) (s : State) (x : Source) :
    x ∈ (s.setLine src on).linesOff ↔ if x = src then on = false else x ∈ s.linesOff := by
  cases on <;> by_cases hx : x = src <;> simp [State.setLine, hx]

/-! Reading several bytes (R62, R75). -/

theorem add_ofNat_succ (addr : Word) (m : Nat) :
    addr + BitVec.ofNat 32 (m + 1) = addr + 1 + BitVec.ofNat 32 m := by
  rw [Nat.add_comm m 1, BitVec.ofNat_add, ← BitVec.add_assoc]
  rfl

/-- A read whose bytes are all backed succeeds. -/
theorem memRead_of_backed {s : State} {n : Nat} : ∀ {addr : Word},
    (∀ m < n, Params.backs s.params (addr + BitVec.ofNat 32 m) = true) → ∃ v, s.memRead addr n = .ok v := by
  induction n with
  | zero => exact fun _ => ⟨0, rfl⟩
  | succ n ih =>
    intro addr hback
    have hfirst : Params.backs s.params addr = true := by simpa using hback 0 n.succ_pos
    obtain ⟨v, hv⟩ := ih fun m hm => add_ofNat_succ addr m ▸ hback (m + 1) (Nat.succ_lt_succ hm)
    exact ⟨_, memRead_succ (readByte_eq_ok.mpr ⟨hfirst, rfl⟩) hv⟩

/-- A read faults at its first byte that is not backed (U17). -/
theorem memRead_of_unbacked {s : State} {n : Nat} : ∀ {addr : Word} {j : Nat}, j < n →
    (∀ m < j, Params.backs s.params (addr + BitVec.ofNat 32 m) = true) →
    Params.backs s.params (addr + BitVec.ofNat 32 j) = false →
    s.memRead addr n = .error (.unbackedAddress (addr + BitVec.ofNat 32 j)) := by
  induction n with
  | zero => exact fun h => absurd h (Nat.not_lt_zero _)
  | succ n ih =>
    intro addr j hj hback hno
    cases j with
    | zero =>
      have haddr : addr + BitVec.ofNat 32 0 = addr := BitVec.add_zero addr
      rw [haddr] at hno ⊢
      simp only [State.memRead, readByte_of_unbacked hno]
    | succ j =>
      have hfirst : Params.backs s.params addr = true := by simpa using hback 0 j.succ_pos
      have hrest := ih (Nat.lt_of_succ_lt_succ hj)
        (fun m hm => add_ofNat_succ addr m ▸ hback (m + 1) (Nat.succ_lt_succ hm)) (add_ofNat_succ addr j ▸ hno)
      rw [add_ofNat_succ]
      simp only [State.memRead, readByte_eq_ok.mpr ⟨hfirst, rfl⟩, hrest]

theorem memRead_one_of_unbacked {s : State} {addr : Word} (hno : Params.backs s.params addr = false) :
    s.memRead addr 1 = .error (.unbackedAddress addr) := by
  simp only [State.memRead, readByte_of_unbacked hno]

/-- The configuration record is read byte by byte, so it faults at the first of its six that is not backed (R100). -/
theorem readRecord_of_unbacked {s : State} {p : Word} {j : Nat} (hj : j < 6)
    (hback : ∀ m < j, Params.backs s.params (p + BitVec.ofNat 32 m) = true)
    (hno : Params.backs s.params (p + BitVec.ofNat 32 j) = false) :
    s.readRecord p = .error (.unbackedAddress (p + BitVec.ofNat 32 j)) := by
  by_cases hbaud : j < 4
  · simp only [State.readRecord, memRead_of_unbacked hbaud hback hno]
  · obtain ⟨baud, hread⟩ := memRead_of_backed (n := 4) fun m hm => hback m (by omega)
    obtain rfl | rfl : j = 4 ∨ j = 5 := by omega
    · have hfault : s.memRead (p + 4) 1 = _ := memRead_one_of_unbacked hno
      change s.readRecord p = .error (.unbackedAddress (p + 4))
      simp only [State.readRecord, hread, hfault]
    · have hduplex : Params.backs s.params (p + 4) = true := hback 4 (by omega)
      have hread4 : s.memRead (p + 4) 1 = _ := memRead_succ (v := 0) (readByte_eq_ok.mpr ⟨hduplex, rfl⟩) rfl
      have hfault : s.memRead (p + 5) 1 = _ := memRead_one_of_unbacked hno
      change s.readRecord p = .error (.unbackedAddress (p + 5))
      simp only [State.readRecord, hread, hread4, hfault]

/-! Commands (U17). -/

section
variable {n : Byte} {r size k : Word} {u : Uart} {s : State}

theorem sendFrom_of_unbacked (hno : Params.backs s.params (r + k) = false) (cmd : Instr) (n : Byte) (u : Uart) :
    sendFrom cmd n u r k s = .fault (.unbackedAddress (r + k)) := by
  simp only [sendFrom, byteAddr, readByte_of_unbacked hno]

theorem recvPoll_of_unbacked (hrx : u.usr.rxne = true) (hno : Params.backs s.params (r + k) = false) (cmd : Instr)
    (n : Byte) (last : Byte → Bool) : recvPoll cmd n u r k last s = .fault (.unbackedAddress (r + k)) := by
  simp only [recvPoll, if_pos hrx, byteAddr, writeByte_of_unbacked _ hno]

theorem exec_uconfig_of_unbacked (hu : s.uarts[n.toNat]? = some u) (hr : r ≠ 0) {j : Nat} (hj : j < 6)
    (hback : ∀ m < j, Params.backs s.params (r + BitVec.ofNat 32 m) = true)
    (hno : Params.backs s.params (r + BitVec.ofNat 32 j) = false) :
    exec (.uconfig n r) s = .fault (.unbackedAddress (r + BitVec.ofNat 32 j)) := by
  simp only [exec, execUconfig, instCheck_of_some hu, nullCheck_of_ne_zero hr, readRecord_of_unbacked hj hback hno]

/-- A send of a buffer or string reads byte 0 at issue (R174, R176). -/
theorem exec_send_of_unbacked (hu : s.uarts[n.toNat]? = some u) (hr : r ≠ 0) (hsize : size ≠ 0)
    (hc : u.configured = true) (hno : Params.backs s.params r = false) (hfree : s.sendBeneath n = false) :
    ∀ i ∈ [Instr.usendbuf n r size, .usendstr n r], exec i s = .fault (.unbackedAddress r) := by
  have haddr : r + 0 = r := BitVec.add_zero r
  rw [← haddr] at hno
  simp only [List.forall_mem_cons, exec, execUsendbuf, execUsendstr, instCheck_of_some hu,
    guardNestedSend_of_free hfree, nullCheck_of_ne_zero hr, needConfigured_of_configured hc, if_neg hsize,
    sendFrom_of_unbacked hno, haddr, true_and]
  exact nofun

/-- A receive to a buffer polls for byte 0 at issue (R240; log 17). -/
theorem exec_recv_of_unbacked (hu : s.uarts[n.toNat]? = some u) (hr : r ≠ 0) (hsize : size ≠ 0)
    (hc : u.configured = true) (hno : Params.backs s.params r = false) (hrx : u.usr.rxne = true) :
    ∀ i ∈ [Instr.urecvbuf n r size, .urecvstr n r], exec i s = .fault (.unbackedAddress r) := by
  have haddr : r + 0 = r := BitVec.add_zero r
  rw [← haddr] at hno
  simp only [List.forall_mem_cons, exec, execUrecvbuf, execUrecvstr, instCheck_of_some hu,
    nullCheck_of_ne_zero hr, needConfigured_of_configured hc, if_neg hsize, recvPoll_of_unbacked hrx hno, haddr,
    true_and]
  exact nofun

theorem sequencer_send_of_unbacked {b : Byte} (hu : s.uarts[n.toNat]? = some u)
    (hno : Params.backs s.params (r + k) = false) :
    ∀ i ∈ [Instr.usendbuf n r size, .usendstr n r], s.active.act = .inCmd i .start k b →
      perform .sequencer s = .fault (.unbackedAddress (r + k)) := by
  intro i hi hact
  rw [perform_sequencer hact, ← sendFrom_of_unbacked hno i n u]
  simp only [List.mem_cons, List.not_mem_nil, or_false] at hi
  rcases hi with rfl | rfl <;> exact instCheck_of_some hu _

theorem sequencer_recv_of_unbacked {b : Byte} (hu : s.uarts[n.toNat]? = some u) (hrx : u.usr.rxne = true)
    (hno : Params.backs s.params (r + k) = false) :
    ∀ i ∈ [Instr.urecvb n r, .urecvbuf n r size, .urecvstr n r], ∀ ph, s.active.act = .inCmd i ph k b →
      perform .sequencer s = .fault (.unbackedAddress (r + k)) := by
  intro i hi ph hact
  rw [perform_sequencer hact]
  simp only [List.mem_cons, List.not_mem_nil, or_false] at hi
  rcases hi with rfl | rfl | rfl <;>
    exact (instCheck_of_some hu _).trans (recvPoll_of_unbacked hrx hno _ n _)

end

/-- Settles O60: host code first, then each command's access where the platform does not back it. -/
theorem hostAccesses : Obligations.HostAccesses := by
  refine ⟨fun s addr b => ⟨fun _ => rfl, fun hrun =>
      ⟨perform_host_backed b hrun, perform_host_unbacked b hrun, fun src on => ⟨_, ?_, mem_setLine_linesOff src on s⟩⟩⟩,
    fun n r size u s hu => ⟨?_, ?_, ?_⟩⟩
  · rw [perform, whenRunning_of_running hrun]
    rfl
  · exact fun j hj hr hback hno => exec_uconfig_of_unbacked hu hr hj hback hno
  · exact fun hr hsize hc hno => ⟨exec_send_of_unbacked hu hr hsize hc hno, exec_recv_of_unbacked hu hr hsize hc hno⟩
  · exact fun k b hno => ⟨sequencer_send_of_unbacked hu hno, fun hrx => sequencer_recv_of_unbacked hu hrx hno⟩

end Sys2Proof.Machine
end

section
/-!
PROOFS. Reset and the instances it leaves unconfigured (70_reset_and_hazards.md R260, R262): the values after reset, the
invariants that hold there, and the refusal of a transfer on an instance never configured.
-/

namespace Sys2Proof.Machine

/-! Transfers on an unconfigured instance (R262 a). -/

section
variable {n b : Byte} {r size : Word} {u : Uart} {s : State}

theorem needConfigured_of_unconfigured (hc : u.configured = false) (go : Answer) :
    needConfigured u go = .refused .uartUnconfigured :=
  if_neg (Bool.eq_false_iff.mp hc)

/-- In a send the test of R262 (a) comes after R237's guard (log 19). -/
theorem exec_send_of_unconfigured (hu : s.uarts[n.toNat]? = some u) (hc : u.configured = false) (hr : r ≠ 0)
    (hfree : s.sendBeneath n = false) :
    ∀ i ∈ [Instr.usendb n b, .usendbuf n r size, .usendstr n r], exec i s = .refused .uartUnconfigured := by
  simp only [List.forall_mem_cons, exec, execUsendb, execUsendbuf, execUsendstr, instCheck_of_some hu,
    guardNestedSend_of_free hfree, nullCheck_of_ne_zero hr, needConfigured_of_unconfigured hc, true_and]
  exact nofun

theorem exec_recv_of_unconfigured (hu : s.uarts[n.toNat]? = some u) (hc : u.configured = false) (hr : r ≠ 0) :
    ∀ i ∈ [Instr.urecvb n r, .urecvbuf n r size, .urecvstr n r], exec i s = .refused .uartUnconfigured := by
  simp only [List.forall_mem_cons, exec, execUrecvb, execUrecvbuf, execUrecvstr, instCheck_of_some hu,
    nullCheck_of_ne_zero hr, needConfigured_of_unconfigured hc, true_and]
  exact nofun

end

/-- The transfer commands are the sends and the receives. -/
theorem mem_transferCommands {n b : Byte} {r size : Word} {i : Instr} :
    i ∈ transferCommands n b r size ↔
      i ∈ [Instr.usendb n b, .usendbuf n r size, .usendstr n r] ∨
      i ∈ [Instr.urecvb n r, .urecvbuf n r size, .urecvstr n r] := by
  simp only [transferCommands, List.mem_cons, List.not_mem_nil, or_false]
  tauto

/-- Settles O26: a send has R237's guard to pass as well, a receive has not. -/
theorem unconfiguredTransferRefused : Obligations.UnconfiguredTransferRefused := by
  intro n b r size u s hu hc hr i hi hguard
  rcases mem_transferCommands.mp hi with hsend | hrecv
  · obtain ⟨hinst, -⟩ := exec_send_guarded hu hsend
    have hfree : s.sendBeneath n = false := hguard.resolve_left (by simp [hinst])
    exact exec_send_of_unconfigured hu hc hr hfree i hsend
  · exact exec_recv_of_unconfigured hu hc hr i hrecv

/-! Reset (R260). -/

theorem forall_mem_resetWith_uarts {p : Params} {n : Nat} {P : Uart → Prop} (h : ∀ i, P (Uart.reset p i)) :
    ∀ u ∈ (State.resetWith p n).uarts, P u :=
  List.forall_mem_map.mpr fun i _ => h i

theorem length_resetWith_uarts (p : Params) (n : Nat) : (State.resetWith p n).uarts.length = n := by
  simp [State.resetWith]

/-- `TC` is given by R5's parameter where that is 0 or 1 (R34). -/
theorem tcAfterReset_eq (i : Nat) (c : TcReset) :
    (c = .zero → tcAfterReset i c = false) ∧ (c = .one → tcAfterReset i c = true) := by
  constructor <;> rintro rfl <;> rfl

/-- Reset leaves the timer as the deinit actions do. -/
theorem timerInv_reset : TimerInv Timer.reset := timerInv_deinit Timer.reset

theorem lineInv_reset (p : Params) (i : Nat) : LineInv (Uart.reset p i) :=
  ⟨fun _ => rfl, fun h => absurd rfl h⟩

/-- No TBUSY is in progress after reset: the one frame runs host code. -/
theorem busyWaitInv_resetWith (p : Params) (n : Nat) : BusyWaitInv (State.resetWith p n) := by
  intro f hf ms ph k b hact
  obtain rfl : f = Frame.reset := List.mem_singleton.mp hf
  cases hact

theorem callbackInv_resetWith (p : Params) (n : Nat) : CallbackInv (State.resetWith p n) :=
  ⟨nofun, forall_mem_resetWith_uarts fun _ => nofun⟩

/-- Settles O40: the values are those of `State.resetWith`, and each invariant holds of them. -/
theorem resetState : Obligations.ResetState := by
  intro p n s
  refine ⟨⟨rfl, length_resetWith_uarts p n, rfl, rfl, rfl, rfl, rfl, rfl, rfl, rfl, rfl, rfl, rfl, ?_⟩,
    timerInv_reset, ⟨rfl, rfl⟩, rfl, busyWaitInv_resetWith p n, callbackInv_resetWith p n,
    forall_mem_resetWith_uarts (lineInv_reset p), rfl⟩
  exact forall_mem_resetWith_uarts fun i => ⟨rfl, rfl, rfl, rfl, rfl, tcAfterReset_eq i p.tcReset⟩

end Sys2Proof.Machine
end

section
/-!
PROOFS. Agents that are not enabled (00_scope.md R10): one equation per agent for the event that the model takes as a
step without effect (log 2).
-/

namespace Sys2Proof.Machine

theorem Timer.tick_of_disabled {t : Timer} (hen : t.tctrl.en = false) : t.tick = t :=
  if_neg (Bool.eq_false_iff.mp hen)

theorem perform_sequencer_of_running {s : State} (hrun : s.active.act = .running) :
    perform .sequencer s = .next s := by
  simp only [perform, sequencerStep, hrun]

theorem txShift_of_idle {i : Nat} {u : Uart} {s : State} (hu : s.uarts[i]? = some u) (htx : u.tx = []) :
    s.txShift i = s := by
  simp only [State.txShift, hu, htx]

/-- The main context has nothing to return from, and a handler that is inside a command does not return (R231). -/
theorem returnFromHandler_of_main_or_not_running {s : State} (h : s.active.ctx = .main ∨ s.active.act ≠ .running) :
    s.returnFromHandler = s := by
  unfold State.returnFromHandler
  split
  · rename_i hctx hact _
    rcases h with hmain | hbusy
    · cases hmain.symm.trans hctx
    · exact absurd hact hbusy
  · rfl

theorem Activity.isRunning_iff {a : Activity} : a.isRunning = true ↔ a = .running := by
  cases a <;> simp [Activity.isRunning]

theorem whenRunning_of_not_running {s : State} (hbusy : s.active.act ≠ .running) (go : Answer) :
    whenRunning s go = .next s :=
  if_neg fun hrun => hbusy (Activity.isRunning_iff.mp hrun)

/-- While a command is in progress the host neither issues, reads, writes nor changes a line (R242). -/
theorem perform_host_of_not_running {s : State} (hbusy : s.active.act ≠ .running) (c : Command) (a : Word) (b : Byte)
    (src : Source) (on : Bool) :
    ∀ e ∈ [Event.issue c, .hostRead a, .hostWrite a b, .setLine src on], perform e s = .next s := by
  simp only [List.forall_mem_cons, perform, whenRunning_of_not_running hbusy, true_and]
  exact nofun

/-- Settles O8: each agent's own equation where it is not enabled (log 2). -/
theorem disabledAgentsTakeNoStep : Obligations.DisabledAgentsTakeNoStep := by
  refine fun s => ⟨fun hen => ?_, perform_sequencer_of_running, fun i u hu htx => ?_, fun src hmay => ?_, fun hret => ?_,
    perform_host_of_not_running⟩
  · rw [perform, Timer.tick_of_disabled hen, State.withTimer_self]
  · rw [perform, txShift_of_idle hu htx]
  · rw [perform, takeInterrupt_of_not_mayDispatch (Bool.eq_false_iff.mp hmay)]
  · rw [perform, returnFromHandler_of_main_or_not_running hret]

end Sys2Proof.Machine
end
